-- ==== Sys2Proof/Word.lean ====
section
/-! DEFINITION. The word types of the GCM core: bytes, 16-byte blocks, schedule handles, header words.

`00_scope.md` R7 fixes the numbering every later file relies on: `B[0]` is the first byte of a block on every
port and the leftmost in hexadecimal, so a block is held here as the 128-bit number `int(B)` whose most
significant byte is `B[0]`.  Bit 7 of a byte is its most significant bit. -/

namespace Sys2Proof

/-- A byte: 8 bits (R7). -/
abbrev Byte := BitVec 8

/-- A block: 16 bytes, held as `int(B)`; `B[0]` is the most significant byte (R6 `BLOCK`, R7). -/
abbrev Block := BitVec 128

/-- A schedule handle, `SCHED_W` = 32 bits, never interpreted by the core (R6, R11). -/
abbrev Handle := BitVec 32

/-- A command header word (R71). -/
abbrev Header := BitVec 32

end Sys2Proof
end

