-- ==== Sys2Proof/Syntax.lean ====
section
/-! DEFINITION. The seven commands (R2, R78), one constructor per row of `spec/opcode_table.json`.

The operands are those of the formats of R72 to R77; a byte string carries its own length.  The
pseudo-commands of R88 are other names for these words (ENCRYPT and DECRYPT are PROCESS, CLOSE_IV is ADD_AAD
of no bytes, ENTER_TEXT is PROCESS of no bytes) and have no constructor. -/

namespace Sys2Proof

/-- The direction operand, header bit 27 (R71): 0 = Encrypt, 1 = Decrypt. -/
inductive Direction where
  | encrypt
  | decrypt
deriving DecidableEq, Repr, Inhabited

/-- A command of the core. -/
inductive Instr where
  /-- INIT, format I (R73, R100). -/
  | init (tbl : Bool) (blockLen : Byte) (sched : Handle)
  /-- ADD_IV, format S (R74, R150). -/
  | addIv (chunk : List Byte)
  /-- ADD_AAD, format S (R74, R165). -/
  | addAad (chunk : List Byte)
  /-- PROCESS, format S (R74, R185). -/
  | process (dir : Direction) (chunk : List Byte)
  /-- FINISH, format F (R75, R210). -/
  | finish (tagLen : Byte)
  /-- RESET, format N (R76, R102). -/
  | reset
  /-- ONE_SHOT, format O (R77, R225). -/
  | oneShot (dir : Direction) (tbl : Bool) (tagLen : Byte) (key iv aad payload : List Byte)
deriving DecidableEq, Repr, Inhabited

end Sys2Proof
end

