-- ==== Sys2Proof/WellFormed.lean ====
section
/-! DEFINITION. Which commands have an encoding: the byte strings fit their length fields (R6, R72).

The other operands are bit vectors of their field's width, so nothing else can be ill-formed. -/

namespace Sys2Proof

/-- A byte string whose length a 16-bit length field can carry: a format S chunk or a key (R6, R72). -/
abbrev fits16 (bytes : List Byte) : Prop := bytes.length < 2 ^ 16

/-- A byte string whose length a 32-bit length word can carry: an IV, AAD or payload of ONE_SHOT (R77). -/
abbrev fits32 (bytes : List Byte) : Prop := bytes.length < 2 ^ 32

/-- The command has an encoding. -/
def Instr.wellFormed : Instr → Bool
  | .init _ _ _ => true
  | .addIv chunk => decide (fits16 chunk)
  | .addAad chunk => decide (fits16 chunk)
  | .process _ chunk => decide (fits16 chunk)
  | .finish _ => true
  | .reset => true
  | .oneShot _ _ _ key iv aad payload =>
      decide (fits16 key) && decide (fits32 iv) && decide (fits32 aad) && decide (fits32 payload)

end Sys2Proof
end

