-- ==== Sys2Proof/Decode.lean ====
section
/-! DEFINITION. The decoder of the CMD byte stream and, after it, the encoder (`30_encoding.md`).

The decoder is R89: four bytes, the header word, the row of R78, then exactly the operand bytes the header
announces.  It is total on any bytes; a header that matches no row is rejected by name (`illegal`, R80).  The
encoder writes the bytes of R71 to R77 and never looks at the decoder. -/

namespace Sys2Proof

/-! ### Byte order: everything wider than a byte is big-endian (R52) -/

/-- `be32(n)`, the 4-byte big-endian string (R7). -/
def be32 (w : BitVec 32) : List Byte :=
  [w.extractLsb' 24 8, w.extractLsb' 16 8, w.extractLsb' 8 8, w.extractLsb' 0 8]

/-- `int(B)` of a 4-byte string (R7). -/
def word32 (b0 b1 b2 b3 : Byte) : BitVec 32 := b0 ++ b1 ++ b2 ++ b3

/-! ### The header word (R71) -/

/-- `dir`, bit 27: 0 = Encrypt, 1 = Decrypt. -/
def hdrDir (h : Header) : Direction := if h.getLsbD 27 then .decrypt else .encrypt

/-- `tbl`, bit 26: the multiplier choice. -/
def hdrTbl (h : Header) : Bool := h.getLsbD 26

/-- `arg8`, bits 23:16: `block_len` or `requested_tag_len`. -/
def hdrArg8 (h : Header) : Byte := h.extractLsb' 16 8

/-- `len16`, bits 15:0, as a byte count: `n` or `keylen` (R79: zero-extended, used as it is read). -/
def hdrLen16 (h : Header) : Nat := (h.extractLsb' 0 16).toNat

/-! ### The opcode map (R78) -/

/-- The seven rows of R78, by name. -/
inductive Opcode where
  | init
  | addIv
  | addAad
  | process
  | finish
  | reset
  | oneShot
deriving DecidableEq, Repr, Inhabited

/-- A row of R78: a header `h` selects the command when `h and mask = bits`. -/
structure OpcodeRow where
  opcode : Opcode
  bits : Header
  mask : Header
deriving DecidableEq, Repr

/-- The table of R78, column for column. -/
def opcodeTable : List OpcodeRow :=
  [ ⟨.init,    0x10000000, 0xFB00FFFF⟩,
    ⟨.addIv,   0x20000000, 0xFFFF0000⟩,
    ⟨.addAad,  0x30000000, 0xFFFF0000⟩,
    ⟨.process, 0x40000000, 0xF7FF0000⟩,
    ⟨.finish,  0x50000000, 0xFF00FFFF⟩,
    ⟨.reset,   0x60000000, 0xFFFFFFFF⟩,
    ⟨.oneShot, 0x70000000, 0xF3000000⟩ ]

/-- The header selects the row. -/
def OpcodeRow.selects (r : OpcodeRow) (h : Header) : Bool := h &&& r.mask == r.bits

/-- The row a header selects, `none` when it is illegal (R80). -/
def lookupOpcode (h : Header) : Option Opcode :=
  (opcodeTable.find? fun r => r.selects h).map (·.opcode)

/-! ### The decoding procedure (R89) -/

/-- What stands at the front of the CMD stream. -/
inductive Fetched where
  /-- No byte of a command has arrived: the core is idle at a command boundary (R302). -/
  | idle
  /-- The string ends inside a command: the core waits for the rest (R46, R302). -/
  | incomplete
  /-- No row of R78 matches the header; four bytes are consumed and nothing more (R80). -/
  | illegal (header : Header) (rest : List Byte)
  /-- A whole command and the bytes after it. -/
  | command (i : Instr) (rest : List Byte)
deriving DecidableEq, Repr

/-- The next `n` bytes of the stream and what follows them, `none` when fewer have arrived. -/
def takeBytes (n : Nat) (bytes : List Byte) : Option (List Byte × List Byte) :=
  if n ≤ bytes.length then some (bytes.take n, bytes.drop n) else none

/-- The next big-endian 32-bit word (R52). -/
def takeWord : List Byte → Option (BitVec 32 × List Byte)
  | b0 :: b1 :: b2 :: b3 :: rest => some (word32 b0 b1 b2 b3, rest)
  | _ => none

/-- The operands of format S: `hdr[15:0]` chunk bytes (R74). -/
def takeChunk (h : Header) (bytes : List Byte) : Option (List Byte × List Byte) :=
  takeBytes (hdrLen16 h) bytes

/-- The operands of format O (R77): three length words, then key, iv, aad and payload in that order. -/
def takeOneShot (h : Header) (bytes : List Byte) : Option (Instr × List Byte) :=
  (takeWord bytes).bind fun (ivlen, r1) =>
  (takeWord r1).bind fun (aadlen, r2) =>
  (takeWord r2).bind fun (ptlen, r3) =>
  (takeBytes (hdrLen16 h) r3).bind fun (key, r4) =>
  (takeBytes ivlen.toNat r4).bind fun (iv, r5) =>
  (takeBytes aadlen.toNat r5).bind fun (aad, r6) =>
  (takeBytes ptlen.toNat r6).map fun (payload, r7) =>
    (.oneShot (hdrDir h) (hdrTbl h) (hdrArg8 h) key iv aad payload, r7)

/-- The operands of each format (R89's case split), `none` when they have not all arrived. -/
def takeOperands (h : Header) (bytes : List Byte) : Opcode → Option (Instr × List Byte)
  | .init => (takeWord bytes).map fun (sched, rest) => (.init (hdrTbl h) (hdrArg8 h) sched, rest)
  | .addIv => (takeChunk h bytes).map fun (chunk, rest) => (.addIv chunk, rest)
  | .addAad => (takeChunk h bytes).map fun (chunk, rest) => (.addAad chunk, rest)
  | .process => (takeChunk h bytes).map fun (chunk, rest) => (.process (hdrDir h) chunk, rest)
  | .finish => some (.finish (hdrArg8 h), bytes)
  | .reset => some (.reset, bytes)
  | .oneShot => takeOneShot h bytes

/-- R89 after the header: an illegal header consumes its four bytes and nothing more (R80). -/
def decodeAfterHeader (h : Header) (bytes : List Byte) : Fetched :=
  match lookupOpcode h with
  | none => .illegal h bytes
  | some op =>
    match takeOperands h bytes op with
    | none => .incomplete
    | some (i, rest) => .command i rest

/-- R89: the decoding procedure, total on any byte stream. -/
def decode : List Byte → Fetched
  | [] => .idle
  | b0 :: b1 :: b2 :: b3 :: rest => decodeAfterHeader (word32 b0 b1 b2 b3) rest
  | _ :: _ => .incomplete

/-! ### The encoder -/

/-- The bit of a direction operand (R71). -/
def Direction.bit : Direction → Bool
  | .encrypt => false
  | .decrypt => true

/-- The header word from its fields, most significant first (R71); bits 25:24 are 0. -/
def headerWord (op : BitVec 4) (dir tbl : Bool) (arg8 : Byte) (len16 : Nat) : Header :=
  op ++ BitVec.ofBool dir ++ BitVec.ofBool tbl ++ 0#2 ++ arg8 ++ BitVec.ofNat 16 len16

/-- The header of a command: opcode numbers of R78, fields of R73 to R77. -/
def Instr.header : Instr → Header
  | .init tbl blockLen _ => headerWord 1 false tbl blockLen 0
  | .addIv chunk => headerWord 2 false false 0 chunk.length
  | .addAad chunk => headerWord 3 false false 0 chunk.length
  | .process dir chunk => headerWord 4 dir.bit false 0 chunk.length
  | .finish tagLen => headerWord 5 false false tagLen 0
  | .reset => headerWord 6 false false 0 0
  | .oneShot dir tbl tagLen key _ _ _ => headerWord 7 dir.bit tbl tagLen key.length

/-- The operand bytes after the header (R72). -/
def Instr.operandBytes : Instr → List Byte
  | .init _ _ sched => be32 sched
  | .addIv chunk => chunk
  | .addAad chunk => chunk
  | .process _ chunk => chunk
  | .finish _ => []
  | .reset => []
  | .oneShot _ _ _ key iv aad payload =>
      be32 (BitVec.ofNat 32 iv.length) ++ be32 (BitVec.ofNat 32 aad.length) ++
        be32 (BitVec.ofNat 32 payload.length) ++ key ++ iv ++ aad ++ payload

/-- The bytes of a command on the CMD stream (R71, R72). -/
def encode (i : Instr) : List Byte := be32 i.header ++ i.operandBytes

/-- The total length in bytes of a command (R72's last column). -/
def Instr.byteLength : Instr → Nat
  | .init _ _ _ => 8
  | .addIv chunk => 4 + chunk.length
  | .addAad chunk => 4 + chunk.length
  | .process _ chunk => 4 + chunk.length
  | .finish _ => 4
  | .reset => 4
  | .oneShot _ _ _ key iv aad payload =>
      16 + key.length + iv.length + aad.length + payload.length

/-! ### An opcode-table word laid out on the stream

`spec/opcode_table.json` numbers a header's bits as one 32-bit number, bit 0 its least significant; a later
32-bit word counts on from bit 32.  Each word lies on the stream in the big-endian order of R71. -/

/-- The length in bytes of the command whose first 16 bytes, zeros where it is shorter, hold these words:
the formula of the row (R72), 4 for an illegal header. -/
def commandBytes (h w1 w2 w3 : BitVec 32) : Nat :=
  match lookupOpcode h with
  | none => 4
  | some .init => 8
  | some .addIv => 4 + hdrLen16 h
  | some .addAad => 4 + hdrLen16 h
  | some .process => 4 + hdrLen16 h
  | some .finish => 4
  | some .reset => 4
  | some .oneShot => 16 + hdrLen16 h + w1.toNat + w2.toNat + w3.toNat

/-- Word `k` (32 bits) of a table word. -/
def tableWordPart (w k : Nat) : BitVec 32 := BitVec.ofNat 32 (w >>> (32 * k))

/-- The bytes of the instruction whose low `nbits` bits are `w` and whose other bits are 0. -/
def tableWordBytes (nbits w : Nat) : List Byte :=
  let v := w % 2 ^ nbits
  let given := (List.range ((nbits + 31) / 32)).flatMap fun k => be32 (tableWordPart v k)
  let total := commandBytes (tableWordPart v 0) (tableWordPart v 1) (tableWordPart v 2) (tableWordPart v 3)
  given.take total ++ List.replicate (total - given.length) 0

/-- The instruction this decoder reads from a table word, `none` where it refuses. -/
def decodeTableWord (nbits w : Nat) : Option Instr :=
  match decode (tableWordBytes nbits w) with
  | .command i _ => some i
  | _ => none

end Sys2Proof
end

