-- ==== Sys2Proof/Machine/Context.lean ====
section
/-! DEFINITION. The context of the core: every register of `10_state.md` and the table memory.

R10: "The whole mutable state of the core is one *context*: the fields of the table below, and nothing else."
The types stand here, before `Config.lean`, because a free value of `Config.lean` has the type `Context`.
The ports and the adapter, which are not state of the core (R25), are in `Machine/State.lean`. -/

namespace Sys2Proof.Machine

/-- The lifecycle register `life` (R20), values 0 to 3 in this order. -/
inductive Life where
  /-- 0: there is no context. -/
  | empty
  /-- 1: a context exists and can absorb or process. -/
  | live
  /-- 2: FINISH has produced the tag. -/
  | final
  /-- 3: a command on this context ended in an error. -/
  | fault
deriving DecidableEq, Repr, Inhabited

/-- The phase register `mode` (R21): IV = 0, AAD = 1, TEXT = 2; the value 3 is never produced. -/
inductive Mode where
  | iv
  | aad
  | text
deriving DecidableEq, Repr, Inhabited

/-- The table memory `PC` as a list of (address, byte) cells in canonical form (R41): addresses strictly
rising, no cell equal to what an unlisted address reads as.  `Memory.wf` in `Machine/Ops.lean` says so. -/
abbrev Memory := List Host.Cell

/-- The context (R10).  One field per row of the table of R10. -/
structure Context where
  /-- R11: the schedule handle. -/
  sched : Handle
  /-- R12: the hash subkey. -/
  H : Block
  /-- R13: the accumulator. -/
  X : Block
  /-- R14: the current counter block. -/
  Y : Block
  /-- R14: the initial counter block `Y_0`. -/
  Y0 : Block
  /-- R15: the partial IV block in phase IV, the keystream block in phase TEXT. -/
  buf : Block
  /-- R16: the fill count of the block in progress, 5 bits. -/
  buflen : BitVec 5
  /-- R17: the one flag; more than 12 IV bytes have arrived in the session. -/
  ivmode : Bool
  /-- R18: bit count of IV, then of AAD, modulo 2^64. -/
  totlen : BitVec 64
  /-- R19: bit count of payload, modulo 2^64. -/
  pttotlen : BitVec 64
  /-- R20: the lifecycle register. -/
  life : Life
  /-- R21: the phase register, the sequencer (R26). -/
  mode : Mode
  /-- R22: the context multiplies by table lookup. -/
  tblSel : Bool
  /-- R23: the table memory `PC`, 65536 bytes, present when `HAS_TABLE`. -/
  table : Memory
deriving DecidableEq, Repr, Inhabited

/-- The context after power-on reset (R30, R280): `life = EMPTY`.  The spec gives every other field no value;
the zeros, `mode = IV` and the empty table are the model's (DESIGN CHOICE, unsafe; log entry 1). -/
def Context.powerOn : Context :=
  { sched := 0, H := 0, X := 0, Y := 0, Y0 := 0, buf := 0, buflen := 0, ivmode := false,
    totlen := 0, pttotlen := 0, life := .empty, mode := .iv, tblSel := false, table := [] }

end Sys2Proof.Machine
end

