-- ==== Sys2Proof/Config.lean ====
section
/-! DEFINITION. What an instance fixes and what the spec leaves open: opaque constants, none with a body.

R6: "A model takes each `OPEN` one as an argument and must not assume a value for it."  Nothing in Lean can
evaluate any of these, so a theorem that mentions one holds whatever it is. -/

namespace Sys2Proof

/-- R6 `HAS_TABLE` (OPEN): whether this instance has the table memory. -/
opaque Config.hasTable : Bool

/-- R6 `RELEASE_INVALIDATES` (OPEN): whether an ENCRYPT with a released handle fails. -/
opaque Config.releaseInvalidates : Bool

/-- R6 `E` (OPEN): the adapter's "encrypt one 128-bit block under a scheduled key", `none` for an error.  It
depends on the handle and the input block alone (R49). -/
opaque Config.encrypt : Handle → Block → Option Block

/-- R6 `Setup` (OPEN): the adapter's `setup(key, keylen)`: a handle and the cipher's block length in bytes,
`none` for an error (R50). -/
opaque Config.setup : List Byte → Option (Handle × Byte)

/-- What the fields of a context hold once they "hold no value" (R31, R245; `93_implementation_defined.md` U2):
free values, one context per event, the event numbered by the counter `State.freeIndex` (log entry 2). -/
opaque Config.noValue : Nat → Machine.Context

/-- The 4-byte field `dlen` of a response whose data does not fit it, 2^32 bytes or more: R83 states `dlen`
= `ptlen + t` in 4 bytes and no value for such a sum, so the field is free (DESIGN CHOICE; log entry 3). -/
opaque Config.longDlen : Nat → BitVec 32

end Sys2Proof
end

