-- ==== Sys2Proof/Machine/State.lean ====
section
/-! DEFINITION. The state of the machine: the context, the three ports, the adapter and the instance.

The core's own state is the context alone (R10).  R25 names what is a parameter of the step and not state of
the core: the adapter, `HAS_TABLE`, and the bytes still unread on CMD.  They stand in `State` as plain data so
that a claim about every state is a claim about every adapter, every instance and every input.  The two output
histories `rsp` and `ciph` are what an observer of a run sees (R302). -/

namespace Sys2Proof.Machine

/-! ### The adapter behind the CIPH port (R47 to R51) -/

/-- The adapter's answer to a request.  R48 and R50 give one `ok` bit and, with it, a value. -/
inductive Reply (α : Type) where
  /-- `ok = 1` and the value. -/
  | ok (value : α)
  /-- `ok = 0`. -/
  | notOk
  /-- The adapter never answers; the core waits for ever (R302; `93_implementation_defined.md` U7). -/
  | silent
deriving DecidableEq, Repr

/-- One transaction on the CIPH port, the request with the adapter's answer (R302). -/
inductive Transaction where
  /-- SETUP (R50): `keylen` is the key's length; the answer holds the handle and the block length in bytes. -/
  | setup (key : List Byte) (answer : Reply (Handle × Byte))
  /-- ENCRYPT (R48). -/
  | encrypt (handle : Handle) (input : Block) (answer : Reply Block)
  /-- RELEASE (R51): no answer. -/
  | release (handle : Handle)
deriving DecidableEq, Repr

/-- The Block Cipher Adapter wired to the CIPH port: one of two plain-data descriptions of an external agent. -/
inductive Adapter where
  /-- The adapter of R6 and R49: it answers every request from the open functions `Config.encrypt` and
  `Config.setup`.  `released` lists the handles released and not set up again; with `releaseInvalidates` an
  ENCRYPT with one of them answers not-ok (R6 `RELEASE_INVALIDATES`, R300). -/
  | cipher (releaseInvalidates : Bool) (released : List Handle)
  /-- Any adapter at all, as the list of the answers it will give to ENCRYPT and to SETUP, in order, `none` for
  `ok = 0`.  When the list is used up it never answers again. -/
  | scripted (encrypts : List (Option Block)) (setups : List (Option (Handle × Byte)))
deriving DecidableEq, Repr

/-! ### Errors (R240) -/

/-- The five error kinds (R240). -/
inductive ErrorKind where
  | invalidState
  | invalidArgument
  | invalidCipher
  | allocationFailure
  | invalidKey
deriving DecidableEq, Repr

/-! ### The state -/

/-- The machine. -/
structure State where
  /-- The context (R10): all the state of the core itself. -/
  ctx : Context
  /-- The instance parameter `HAS_TABLE` (R6, R25); no step writes it. -/
  hasTable : Bool
  /-- The external agent behind the CIPH port (R47, R272). -/
  adapter : Adapter
  /-- Every transaction so far on the CIPH port, oldest first (R302). -/
  ciph : List Transaction
  /-- The bytes on the CMD port that the core has not read, next byte first (R44). -/
  cmd : List Byte
  /-- Every byte so far written on the RSP port, oldest first (R45, R302). -/
  rsp : List Byte
  /-- The core is inside a command, waiting for an adapter answer that does not come (R46, R302). -/
  waiting : Bool
  /-- The model's own counter: how many free contexts of `Config.noValue` have been taken (log entry 2). -/
  freeIndex : Nat
deriving DecidableEq, Repr

/-- Why the machine stops.  In both cases the hardware waits for ever and only power-on reset or the missing
input ends the wait, so stopping is safe: no claim about a later state is provable. -/
inductive Fault where
  /-- Raised by `step` when the CMD string ends inside a command: the core waits for the rest for ever, the
  command has no effect on the context and no response is written (R46, R302; U7).  Safe. -/
  | commandIncomplete
  /-- Raised by `step` in a state whose command waits for an adapter that never answers (R302; U7).  Safe. -/
  | adapterSilent
deriving DecidableEq, Repr

/-- Why a command has no meaning.  Every command of the table has one. -/
inductive Refusal where
  /-- An arm of `exec` not yet modelled; no arm answers it any more.  Safe: nothing follows from a refusal. -/
  | notModelled (mnemonic : String)
deriving DecidableEq, Repr

/-- The machine right after power-on reset (R280, R302): the context of the power-on column of R30, nothing on
any port, the instance and the adapter as the open parameters of `Config` make them (R6). -/
def State.reset : State :=
  { ctx := Context.powerOn, hasTable := Config.hasTable,
    adapter := .cipher Config.releaseInvalidates [], ciph := [], cmd := [], rsp := [],
    waiting := false, freeIndex := 0 }

/-! ### How a command ends -/

/-- How the pseudocode of a command ends (R241, R302). -/
inductive Result (α : Type) where
  /-- It ran to its end with this value. -/
  | done (value : α) (s : State)
  /-- A `raise k` was reached; nothing after it ran (R8, R241). -/
  | raised (k : ErrorKind) (s : State)
  /-- The adapter did not answer a request; the command never goes on (R47, R302). -/
  | waiting (s : State)
deriving DecidableEq, Repr

end Sys2Proof.Machine
end

