-- ==== Sys2Proof/Machine/Flags.lean ====
section
/-! DEFINITION. The one flag, `ivmode` (R17), and the status byte that reports `life`, `mode` and the error code
(R85, R86). -/

namespace Sys2Proof.Machine

/-- `ivmode` after an IV byte has made the fill count `buflen`: set when it passes 12, never cleared (R150). -/
def ivmodeAfter (ivmode : Bool) (buflen : BitVec 5) : Bool := ivmode || decide (12 < buflen)

/-- The encoding of `life` (R20). -/
def Life.code : Life → BitVec 2
  | .empty => 0
  | .live => 1
  | .final => 2
  | .fault => 3

/-- The encoding of `mode` (R21). -/
def Mode.code : Mode → BitVec 2
  | .iv => 0
  | .aad => 1
  | .text => 2

/-- The error codes (R86); OK is 0 and has no error kind. -/
def ErrorKind.code : ErrorKind → BitVec 4
  | .invalidState => 1
  | .invalidArgument => 2
  | .invalidCipher => 3
  | .allocationFailure => 4
  | .invalidKey => 5

/-- The code OK (R86). -/
def okCode : BitVec 4 := 0

/-- `status[1:0]`: `mode` when `life` is LIVE or FINAL, and 0 when it is EMPTY or FAULT (R85). -/
def modeBits : Life → Mode → BitVec 2
  | .empty, _ => 0
  | .live, m => m.code
  | .final, m => m.code
  | .fault, _ => 0

/-- The status byte `code | life | mode` (R85). -/
def statusByte (code : BitVec 4) (life : Life) (mode : Mode) : Byte := code ++ life.code ++ modeBits life mode

end Sys2Proof.Machine
end

