-- ==== Sys2Proof/Machine/Operands.lean ====
section
/-! DEFINITION. The operand forms: bytes of a block, the counter block, the length blocks, the tag's bytes.

Every integer is unsigned and every additional bit is a zero (R7, R136). A block has bytes 0 to 15 only: reading
a byte beyond 15 gives 0 and writing one is dropped, which no reachable state does (DESIGN CHOICE, log entry 4). -/

namespace Sys2Proof.Machine

/-- `Unit(v, j)`: the block whose byte `j` is `v` and whose other bytes are 0 (R129). -/
def unit (v : Byte) (j : Nat) : Block := (v.setWidth 128 <<< 120) >>> (8 * j)

/-- `B[j]` (R7). -/
def blockByte (B : Block) (j : Nat) : Byte := ((B <<< (8 * j)) >>> 120).setWidth 8

/-- `B[j] <- v`; the other bytes keep their values (R8). -/
def setBlockByte (B : Block) (j : Nat) (v : Byte) : Block := (B &&& ~~~ unit 0xFF j) ||| unit v j

/-- `B[j] <- B[j] xor v` (R165, R185). -/
def xorBlockByte (B : Block) (j : Nat) (v : Byte) : Block := B ^^^ unit v j

/-- `B[0 .. n-1]` padded on the right with zero bytes to a block (R166: "zero-padded on the right"). -/
def firstBytes (B : Block) (n : Nat) : Block := B &&& ~~~ (BitVec.allOnes 128 >>> (8 * n))

/-- The bytes of a block in index order (R7). -/
def blockBytes (B : Block) : List Byte := (List.range 16).map (blockByte B)

/-- `B[0..11] || c`: the first twelve bytes of `B` and a 32-bit big-endian counter field (R6, R52). -/
def withCounter (B : Block) (c : BitVec 32) : Block := B.extractLsb' 32 96 ++ c

/-- `int(B[12..15])`, the counter field (R6, R186). -/
def counterOf (B : Block) : BitVec 32 := B.setWidth 32

/-- `Inc32(B)`: the counter field plus 1 modulo 2^32; the carry never reaches byte 11 (R186). -/
def inc32 (B : Block) : Block := withCounter B (counterOf B + 1)

/-- `be64(a) || be64(b)`: the length block of R211, and of R166 with `a = 0`. -/
def lengthBlock (a b : BitVec 64) : Block := a ++ b

/-- `8 * buflen`, the bits of the partial block, as a 64-bit count (R136: at most 128). -/
def partialBits (buflen : BitVec 5) : BitVec 64 := buflen.setWidth 64 * 8

/-- `t = min(16, requested_tag_len)` (R212). -/
def tagBytes (requested : Byte) : Nat := min 16 requested.toNat

/-- The tag: the first `t` bytes of `T` (R212). -/
def truncateTag (T : Block) (requested : Byte) : List Byte := (blockBytes T).take (tagBytes requested)

end Sys2Proof.Machine
end

