-- ==== Sys2Proof/Machine/Ops.lean ====
section
/-! DEFINITION. The named operations over the table memory, the ports, the adapter and the state: the memory
accesses of R42, the transactions of R48 to R51, the response of R83, and the ONE error entry of R245.

There is no return from an error (R247: "There is no return-from-error command and nothing to restore"), so no
operation stands beside the error entry. -/

namespace Sys2Proof.Machine

/-! ### The table memory (R41, R42) -/

/-- What an address that no cell lists reads as.  The spec gives the table no value before INIT writes it
(R30); the model takes 0 (DESIGN CHOICE, unsafe; log entry 5), and no reachable state reads it (R43). -/
def Memory.unlisted : Byte := 0

/-- The canonical form: addresses of the 65536-byte table, strictly rising, none with the unlisted value. -/
abbrev Memory.wf (m : Memory) : Prop :=
  m.Pairwise (fun a b => a.1 < b.1) ∧ ∀ c ∈ m, c.2 ≠ Memory.unlisted ∧ c.1 < 65536

/-- The byte at an address. -/
def Memory.read : Memory → Nat → Byte
  | [], _ => Memory.unlisted
  | (a, b) :: m, k => if a = k then b else Memory.read m k

/-- A cell put before `m`, unless it holds the unlisted value. -/
def Memory.put (k : Nat) (v : Byte) (m : Memory) : Memory := if v = Memory.unlisted then m else (k, v) :: m

/-- One byte written; the canonical form is kept (`Laws/Memory.lean`). -/
def Memory.write : Memory → Nat → Byte → Memory
  | [], k, v => Memory.put k v []
  | (a, b) :: m, k, v =>
    if k < a then Memory.put k v ((a, b) :: m)
    else if k = a then Memory.put k v m
    else (a, b) :: Memory.write m k v

/-- `MemRead(a, 16)`: the 16 bytes at `a .. a+15`, the byte at `a` first (R42). -/
def memRead16 (m : Memory) (a : Nat) : Block :=
  (List.range 16).foldl (fun B z => B ||| unit (m.read (a + z)) z) 0

/-- `MemWrite(a, 16, v)`: `v[0]` at `a` (R42). -/
def memWrite16 (m : Memory) (a : Nat) (v : Block) : Memory :=
  (List.range 16).foldl (fun m z => m.write (a + z) (blockByte v z)) m

/-- The table address of `PC[i][v]`: `4096*i + 16*v` (R41). -/
def tableAddress (i v : Nat) : Nat := 4096 * i + 16 * v

/-! ### Results -/

/-- `r`, and then `k` on its value; an error or a wait ends the command (R8, R241). -/
def Result.andThen {α β : Type} (r : Result α) (k : α → State → Result β) : Result β :=
  match r with
  | .done a s => k a s
  | .raised e s => .raised e s
  | .waiting s => .waiting s

/-- The test a command makes at its place in the pseudocode: `if bad: raise e` (R8). -/
def Result.refuseIf (bad : Bool) (e : ErrorKind) (s : State) : Result Unit :=
  if bad then .raised e s else .done () s

/-- The state a result carries. -/
def Result.state {α : Type} : Result α → State
  | .done _ s => s
  | .raised _ s => s
  | .waiting s => s

/-! ### The adapter (R47 to R51) -/

/-- One `ok` bit and a value from the form of R6, "or error". -/
def replyOf {α : Type} : Option α → Reply α
  | some a => .ok a
  | none => .notOk

/-- The adapter's answer to ENCRYPT and the adapter after it (R48, R49). -/
def Adapter.encrypt : Adapter → Handle → Block → Reply Block × Adapter
  | .cipher inval released, h, B =>
    (if inval && released.contains h then .notOk else replyOf (Config.encrypt h B), .cipher inval released)
  | .scripted (e :: es) ss, _, _ => (replyOf e, .scripted es ss)
  | .scripted [] ss, _, _ => (.silent, .scripted [] ss)

/-- The released handles after a SETUP answered: the handle it made, if any, is live again. -/
def releasedAfterSetup (released : List Handle) : Option (Handle × Byte) → List Handle
  | some (h, _) => released.filter fun x => x != h
  | none => released

/-- The adapter's answer to SETUP and the adapter after it (R50). -/
def Adapter.setup : Adapter → List Byte → Reply (Handle × Byte) × Adapter
  | .cipher inval released, key =>
    (replyOf (Config.setup key), .cipher inval (releasedAfterSetup released (Config.setup key)))
  | .scripted es (a :: ss), _ => (replyOf a, .scripted es ss)
  | .scripted es [], _ => (.silent, .scripted es [])

/-- The adapter after RELEASE (R51).  It has no answer; a scripted adapter's later answers are its script. -/
def Adapter.release : Adapter → Handle → Adapter
  | .cipher inval released, h => .cipher inval (if released.contains h then released else h :: released)
  | .scripted es ss, _ => .scripted es ss

/-- A transaction recorded on the CIPH port, with the adapter after it (R302). -/
def State.transact (s : State) (t : Transaction) (a : Adapter) : State :=
  { s with ciph := s.ciph ++ [t], adapter := a }

/-- `Enc(B)`: one ENCRYPT with handle `sched`; not-ok raises `InvalidCipher` (R8, R48, R262). -/
def enc (B : Block) (s : State) : Result Block :=
  let answered := s.adapter.encrypt s.ctx.sched B
  let s' := s.transact (.encrypt s.ctx.sched B answered.1) answered.2
  match answered.1 with
  | .ok out => .done out s'
  | .notOk => .raised .invalidCipher s'
  | .silent => .waiting s'

/-- `AdapterSetup(key)`: one SETUP; not-ok raises `InvalidKey` (R8, R50, R264). -/
def adapterSetup (key : List Byte) (s : State) : Result (Handle × Byte) :=
  let answered := s.adapter.setup key
  let s' := s.transact (.setup key answered.1) answered.2
  match answered.1 with
  | .ok made => .done made s'
  | .notOk => .raised .invalidKey s'
  | .silent => .waiting s'

/-- `AdapterRelease(h)`: one RELEASE, no answer (R8, R51). -/
def adapterRelease (h : Handle) (s : State) : State := s.transact (.release h) (s.adapter.release h)

/-! ### The response (R83 to R86) -/

/-- The length field `dlen` of a response of `n` data bytes, 4 bytes big-endian (R83); free when `n` does not fit
it, which only a ONE_SHOT of more than 2^32 - 17 payload bytes reaches (log entry 3). -/
def dlenField (n : Nat) : BitVec 32 := if n < 2 ^ 32 then BitVec.ofNat 32 n else Config.longDlen n

/-- A whole response: status, `dlen`, data (R83). -/
def response (code : BitVec 4) (c : Context) (data : List Byte) : List Byte :=
  statusByte code c.life c.mode :: (be32 (dlenField data.length) ++ data)

/-- The response of a command written on RSP, with `life` and `mode` as they are after it (R83, R85). -/
def State.respond (s : State) (code : BitVec 4) (data : List Byte) : State :=
  { s with rsp := s.rsp ++ response code s.ctx data }

/-! ### The context written, emptied, lost -/

/-- The context replaced. -/
def State.setCtx (s : State) (c : Context) : State := { s with ctx := c }

/-- `life <- l`. -/
def State.setLife (s : State) (l : Life) : State := s.setCtx { s.ctx with life := l }

/-- The context with `life = l` and every other field holding no value (R31, R245): the registers are free
values (`Config.noValue`), and the table lists nothing, as before INIT has written it (R30). -/
def State.loseContext (s : State) (l : Life) : State :=
  { s with ctx := { Config.noValue s.freeIndex with life := l, table := [] }, freeIndex := s.freeIndex + 1 }

/-! ### The error entry (R245): what an error of any kind changes -/

/-- `life` after an error: EMPTY for INIT and ONE_SHOT (`creates`); else FAULT if there was a context, and
EMPTY if there was none (R245). -/
def lifeAfterError (creates : Bool) : Life → Life
  | .empty => .empty
  | .live => if creates then .empty else .fault
  | .final => if creates then .empty else .fault
  | .fault => if creates then .empty else .fault

/-- Taking an error: the context is lost, `life` goes to FAULT or EMPTY, the response carries the code and no
data (R83, R245).  Nothing is sent on CIPH; ONE_SHOT's owed RELEASE stands in its own meaning (R226). -/
def State.takeError (s : State) (creates : Bool) (k : ErrorKind) : State :=
  (s.loseContext (lifeAfterError creates s.ctx.life)).respond k.code []

/-- The core stays inside the command, waiting for the adapter for ever (R46, R302): no response is written and "the
command has no effect on the context", which is `before`, the context the command found.  The requests sent so far
and their answers stand on CIPH. -/
def State.wait (s : State) (before : Context) : State := { s with ctx := before, waiting := true }

/-- The end of every command that found the context `before`: the response of R83 with the data, the error entry of
R245, or the wait of R302. -/
def concludeCommand (creates : Bool) (before : Context) : Result (List Byte) → State
  | .done data s => s.respond okCode data
  | .raised k s => s.takeError creates k
  | .waiting s => s.wait before

/-- What an illegal header does after its four bytes are consumed (R80): `InvalidArgument`, no data. -/
def State.illegalHeader (s : State) : State := s.takeError false .invalidArgument

/-! ### The state checks (R260, R261) -/

/-- `if not legal: raise InvalidState`, then `if buflen > 16: raise InvalidArgument` (R243 items 3 and 4). -/
def checkState (legal : Bool) (s : State) : Result Unit :=
  (Result.refuseIf (!legal) .invalidState s).andThen fun _ s =>
    Result.refuseIf (decide (16 < s.ctx.buflen)) .invalidArgument s

/-! ### Power-on reset (R281) -/

/-- Power-on reset applied to a machine that has read `lost` bytes of a command: the context is the power-on
one, the command is lost without a response, and the bytes after those are read as a header.  It is no command
and no step performs it; the host or the platform does. -/
def State.powerOnReset (s : State) (lost : Nat) : State :=
  { s with ctx := Context.powerOn, cmd := s.cmd.drop lost, waiting := false }

end Sys2Proof.Machine
end

