-- ==== Sys2Proof/Machine/Field.lean ====
section
/-! DEFINITION. The GF(2^128) field multiplier (`41_field_multiplier.md`), an internal unit: no command multiplies by
itself, every command rule calls `multH`.

Field bit `i` of a block is its `i`-th bit from the most significant end (R7, R121), which is `getMsbD i`.  The
polynomial, the bit order and the constant are this spec's, from the published definition of GCM (R120 to R123;
`92_eei_decisions.md` D2). -/

namespace Sys2Proof.Machine

/-- The reduction constant `R = e1 00 .. 00`, what x^128 reduces to (R123). -/
def reductionR : Block := 0xE1#128 <<< 120

/-- The block of the element 1, field bit 0 alone (R121). -/
def fieldOne : Block := 1#128 <<< 127

/-- `MulX(V)`: the product of `V` by x (R124). -/
def mulX (V : Block) : Block := (V >>> 1) ^^^ (if V.getLsbD 0 then reductionR else 0)

/-- One turn of `GfMult`'s loop on `(Z, V)`, at field bit `i` of `B` (R125). -/
def gfStep (B : Block) (zv : Block × Block) (i : Nat) : Block × Block :=
  (if B.getMsbD i then zv.1 ^^^ zv.2 else zv.1, mulX zv.2)

/-- `GfMult(A, B)`: the product by shift-and-reduce, 128 turns (R125). -/
def gfMult (A B : Block) : Block := ((List.range 128).foldl (gfStep B) (0, A)).1

/-- `MulX` applied `n` times. -/
def mulXTimes : Nat → Block → Block
  | 0, V => V
  | n + 1, V => mulXTimes n (mulX V)

/-- `RED[t]`: the top two bytes of `MulX` applied eight times to the block `00 .. 00 t` (R128). -/
def red (t : Byte) : BitVec 16 := (mulXTimes 8 (t.setWidth 128)).extractLsb' 112 16

/-- `MulX8(V)`: the block moved one byte toward byte 15, the byte that falls off reduced into bytes 0 and 1
(R127). -/
def mulX8 (V : Block) : Block := (V >>> 8) ^^^ ((red (blockByte V 15)).setWidth 128 <<< 112)

/-- The entries of row 0: `PC[0][v] = GfMult(H, Unit(v, 0))` for v = 0 .. 255 (R129, first loop). -/
def tableRow0 (H : Block) : List Block :=
  (List.range 256).map fun v => gfMult H (unit (BitVec.ofNat 8 v) 0)

/-- `n` rows, the first given, each next one derived entry by entry with `MulX8` (R129, second loop). -/
def tableRows : Nat → List Block → List (List Block)
  | 0, _ => []
  | n + 1, row => row :: tableRows n (row.map mulX8)

/-- The cells of one entry `B` written at address `a` where nothing was listed (R42). -/
def entryCells (a : Nat) (B : Block) : Memory :=
  (List.range 16).flatMap fun z => Memory.put (a + z) (blockByte B z) []

/-- The cells of entries written one after another from address `a` on. -/
def cellsFrom : Nat → List Block → Memory
  | _, [] => []
  | a, B :: Bs => entryCells a B ++ cellsFrom (a + 16) Bs

/-- `TableGen()`: the table memory after all 4096 entries are written (R129).  The loops of R129 write every entry
once, in rising address order (entry `v` of row `i` at `4096*i + 16*v`, R41), over a table that holds nothing, the
old context being gone (R100); so this is the list of their bytes in that order.  `tableGenByWrites` is the
pseudocode word for word, and `Laws/Table.lean` proves the two equal. -/
def tableGen (H : Block) : Memory := cellsFrom 0 (tableRows 16 (tableRow0 H)).flatten

/-- The first loop of R129 as its `MemWrite`s. -/
def writeRow0 (H : Block) (m : Memory) : Memory :=
  (List.range 256).foldl
    (fun m v => memWrite16 m (tableAddress 0 v) (gfMult H (unit (BitVec.ofNat 8 v) 0))) m

/-- The second loop of R129 for one `i` as its `MemRead`s and `MemWrite`s. -/
def writeNextRow (m : Memory) (i : Nat) : Memory :=
  (List.range 256).foldl
    (fun m v => memWrite16 m (tableAddress i v) (mulX8 (memRead16 m (tableAddress (i - 1) v)))) m

/-- The pseudocode of R129, access by access. -/
def tableGenByWrites (H : Block) : Memory := (List.range' 1 15).foldl writeNextRow (writeRow0 H [])

/-- `TblMult(V)`: sixteen table reads accumulated with XOR (R131). -/
def tblMult (m : Memory) (V : Block) : Block :=
  (List.range 16).foldl (fun Z i => Z ^^^ memRead16 m (tableAddress i (blockByte V i).toNat)) 0

/-- `MultH(V)`: the product of `V` by the context's H, in the form the context was built with (R132). -/
def multH (c : Context) (V : Block) : Block := if c.tblSel then tblMult c.table V else gfMult V c.H

/-- `GHASH_H(B_1, .., B_m)` from an accumulator `X`: each block XORed in and multiplied by H (R135). -/
def ghashFrom (H X : Block) (blocks : List Block) : Block :=
  blocks.foldl (fun X B => gfMult (X ^^^ B) H) X

end Sys2Proof.Machine
end

