-- ==== Sys2Proof/Machine/AddIv.lean ====
section
/-! DEFINITION. ADD_IV (`42_add_iv.md`). -/

namespace Sys2Proof.Machine

/-- The fold of a complete IV block, when the byte just stored completed one (R150). -/
def foldIvBlock (c : Context) : Context :=
  if c.buflen = 16 then
    { c with X := multH c (c.X ^^^ c.buf), buflen := 0, totlen := c.totlen + 128 }
  else c

/-- One byte of an IV chunk: the loop body of R150. -/
def absorbIvByte (c : Context) (b : Byte) : Context :=
  let n := c.buflen + 1
  foldIvBlock { c with buf := setBlockByte c.buf c.buflen.toNat b, buflen := n,
                       ivmode := ivmodeAfter c.ivmode n }

/-- A chunk of IV bytes (R150). -/
def absorbIv (c : Context) (chunk : List Byte) : Context := chunk.foldl absorbIvByte c

/-- The legal state of ADD_IV (R150, R260). -/
def addIvLegal (c : Context) : Bool := c.life == .live && c.mode == .iv

/-- The pseudocode of ADD_IV (R150), run by ADD_IV and inside ONE_SHOT. -/
def addIvBody (chunk : List Byte) (s : State) : Result (List Byte) :=
  (checkState (addIvLegal s.ctx) s).andThen fun _ s =>
  .done [] (s.setCtx (absorbIv s.ctx chunk))

/-- ADD_IV (R150). -/
def execAddIv (chunk : List Byte) (s : State) : Host.Outcome State Fault Refusal :=
  .next (concludeCommand false s.ctx (addIvBody chunk s))

end Sys2Proof.Machine
end

