-- ==== Sys2Proof/Machine/Finish.lean ====
section
/-! DEFINITION. FINISH (`45_finish.md`). -/

namespace Sys2Proof.Machine

/-- The last 1 to 16 ciphertext bytes folded and counted, when there are any: a complete block whose fold was
deferred is one of them (R210). -/
def foldPartialText (c : Context) : Context :=
  if 0 < c.buflen then { c with X := multH c c.X, pttotlen := c.pttotlen + partialBits c.buflen } else c

/-- The length block of AAD and payload folded into X (R210, R211). -/
def foldLengths (c : Context) : Context := { c with X := multH c (c.X ^^^ lengthBlock c.totlen c.pttotlen) }

/-- The legal state of FINISH (R210, R260). -/
def finishLegal (c : Context) : Bool := c.life == .live && c.mode == .text

/-- The pseudocode of FINISH (R210), run by FINISH and inside ONE_SHOT: the folds, the mask from the ORIGINAL
counter, the tag, one RELEASE, `life <- FINAL`. -/
def finishBody (tagLen : Byte) (s : State) : Result (List Byte) :=
  (checkState (finishLegal s.ctx) s).andThen fun _ s =>
  (enc s.ctx.Y0 (s.setCtx (foldLengths (foldPartialText s.ctx)))).andThen fun mask s =>
  .done (truncateTag (mask ^^^ s.ctx.X) tagLen) ((adapterRelease s.ctx.sched s).setLife .final)

/-- FINISH (R210). -/
def execFinish (tagLen : Byte) (s : State) : Host.Outcome State Fault Refusal :=
  .next (concludeCommand false s.ctx (finishBody tagLen s))

end Sys2Proof.Machine
end

