-- ==== Sys2Proof/Machine/InitReset.lean ====
section
/-! DEFINITION. INIT and RESET (`40_init_reset.md`). -/

namespace Sys2Proof.Machine

/-- `ZeroSession()`: the common tail of INIT and RESET (R101).  It does not write `sched`, `H`, `tbl_sel`, `PC` or
`life`. -/
def zeroSession (c : Context) : Context :=
  { c with X := 0, Y := 0, Y0 := 0, buf := 0, buflen := 0, ivmode := false,
           totlen := 0, pttotlen := 0, mode := .iv }

/-- What INIT writes after `H` has arrived: the session zeroed, the multiplier chosen, the table generated if it
was chosen and without values if not, `life <- LIVE` (R100; corner case b). -/
def openContext (tbl : Bool) (H : Block) (c : Context) : Context :=
  { zeroSession { c with H := H } with
    tblSel := tbl, table := if tbl then tableGen H else [], life := .live }

/-- The pseudocode of INIT (R100), run by INIT and inside ONE_SHOT. -/
def initBody (tbl : Bool) (blockLen : Byte) (sched : Handle) (s : State) : Result (List Byte) :=
  (Result.refuseIf (blockLen != 16) .invalidCipher (s.setLife .empty)).andThen fun _ s =>
  (Result.refuseIf (tbl && !s.hasTable) .allocationFailure s).andThen fun _ s =>
  (enc 0 (s.setCtx { s.ctx with sched := sched })).andThen fun H s =>
  .done [] (s.setCtx (openContext tbl H s.ctx))

/-- INIT (R100). -/
def execInit (tbl : Bool) (blockLen : Byte) (sched : Handle) (s : State) :
    Host.Outcome State Fault Refusal :=
  .next (concludeCommand true s.ctx (initBody tbl blockLen sched s))

/-- The states in which RESET is legal: LIVE and FINAL (R102, R260). -/
def resetLegal : Life → Bool
  | .empty => false
  | .live => true
  | .final => true
  | .fault => false

/-- The pseudocode of RESET (R102). -/
def resetBody (s : State) : Result (List Byte) :=
  (Result.refuseIf (!resetLegal s.ctx.life) .invalidState s).andThen fun _ s =>
  .done [] (s.setCtx { zeroSession s.ctx with life := .live })

/-- RESET (R102). -/
def execReset (s : State) : Host.Outcome State Fault Refusal :=
  .next (concludeCommand false s.ctx (resetBody s))

end Sys2Proof.Machine
end

