-- ==== Sys2Proof/Machine/AddAad.lean ====
section
/-! DEFINITION. The close of the IV phase and ADD_AAD (`43_add_aad.md`). -/

namespace Sys2Proof.Machine

/-- The fold of the partial IV block, zero-padded on the right, when there is one (R166 point 1). -/
def foldPartialIv (c : Context) : Context :=
  if 0 < c.buflen then
    { c with X := multH c (c.X ^^^ firstBytes c.buf c.buflen.toNat),
             totlen := c.totlen + partialBits c.buflen }
  else c

/-- `Y` by the GHASH path of R166: the partial block, then the length block of the IV. -/
def ghashCounter (c : Context) : Block :=
  multH c ((foldPartialIv c).X ^^^ lengthBlock 0 (foldPartialIv c).totlen)

/-- `Y` by the direct path of R166: `buf[0..11] || 00 00 00 01`. -/
def directCounter (c : Context) : Block := withCounter c.buf 1

/-- IvClose takes the GHASH path: `ivmode = 1 or buflen != 12` (R166). -/
def takesGhashPath (c : Context) : Bool := c.ivmode || c.buflen != 12

/-- `IvClose()`: phase IV ends, `Y` and `Y_0` are written (R166).  On the direct path X is left as it was, which
in every reachable state is zero (R166 point 3). -/
def ivClose (c : Context) : Context :=
  let Y := if takesGhashPath c then ghashCounter c else directCounter c
  { c with X := if takesGhashPath c then 0 else c.X, Y := Y, Y0 := Y,
           buf := 0, buflen := 0, totlen := 0, mode := .aad }

/-- `if mode = IV: IvClose()` (R165, R185). -/
def closeIvPhase (c : Context) : Context := if c.mode = .iv then ivClose c else c

/-- The fold of a complete AAD block, when the byte just XORed in completed one (R165). -/
def foldAadBlock (c : Context) : Context :=
  if c.buflen = 16 then { c with X := multH c c.X, buflen := 0, totlen := c.totlen + 128 } else c

/-- One byte of an AAD chunk: the loop body of R165. -/
def absorbAadByte (c : Context) (b : Byte) : Context :=
  foldAadBlock { c with X := xorBlockByte c.X c.buflen.toNat b, buflen := c.buflen + 1 }

/-- A chunk of AAD bytes (R165). -/
def absorbAad (c : Context) (chunk : List Byte) : Context := chunk.foldl absorbAadByte c

/-- The legal states of ADD_AAD (R165, R260). -/
def addAadLegal (c : Context) : Bool := c.life == .live && c.mode != .text

/-- The pseudocode of ADD_AAD (R165), run by ADD_AAD and inside ONE_SHOT. -/
def addAadBody (chunk : List Byte) (s : State) : Result (List Byte) :=
  (checkState (addAadLegal s.ctx) s).andThen fun _ s =>
  .done [] (s.setCtx (absorbAad (closeIvPhase s.ctx) chunk))

/-- ADD_AAD (R165). -/
def execAddAad (chunk : List Byte) (s : State) : Host.Outcome State Fault Refusal :=
  .next (concludeCommand false s.ctx (addAadBody chunk s))

end Sys2Proof.Machine
end

