-- ==== Sys2Proof/Machine/Process.lean ====
section
/-! DEFINITION. The close of the AAD phase, the counter mode and PROCESS (`44_process.md`). -/

namespace Sys2Proof.Machine

/-- What AadClose does before its ENCRYPT: the partial AAD block, already in X, is multiplied and counted, and
the counter is incremented (R188). -/
def foldPartialAad (c : Context) : Context :=
  if 0 < c.buflen then { c with X := multH c c.X, totlen := c.totlen + partialBits c.buflen } else c

/-- `Y <- Inc32(Y)` (R186, R188). -/
def advanceCounter (c : Context) : Context := { c with Y := inc32 c.Y }

/-- `buf <- Enc(Y)`, then `buflen <- 0`: a new keystream block (R185, R188). -/
def fetchKeystream (s : State) : Result Unit :=
  (enc s.ctx.Y s).andThen fun keystream s =>
  .done () (s.setCtx { s.ctx with buf := keystream, buflen := 0 })

/-- `AadClose()`: phase AAD ends and the first keystream block arrives (R188). -/
def aadClose (s : State) : Result Unit :=
  (fetchKeystream (s.setCtx (advanceCounter (foldPartialAad s.ctx)))).andThen fun _ s =>
  .done () (s.setCtx { s.ctx with mode := .text })

/-- `if mode = AAD: AadClose()` (R185). -/
def closeAadPhase (s : State) : Result Unit := if s.ctx.mode = .aad then aadClose s else .done () s

/-- What a block boundary does before its ENCRYPT: the completed ciphertext block is folded, 128 bits are counted,
the counter is incremented (R185). -/
def foldTextBlock (c : Context) : Context :=
  advanceCounter { c with X := multH c c.X, pttotlen := c.pttotlen + 128 }

/-- `if buflen = 16`: a block boundary is crossed (R185). -/
def crossBoundary (s : State) : Result Unit :=
  if s.ctx.buflen = 16 then fetchKeystream (s.setCtx (foldTextBlock s.ctx)) else .done () s

/-- The output byte: input xor keystream byte, in both directions (R185). -/
def outputByte (c : Context) (b : Byte) : Byte := b ^^^ blockByte c.buf c.buflen.toNat

/-- The ciphertext byte: the output in direction Encrypt, the input in direction Decrypt (R185). -/
def cipherByte (dir : Direction) (c : Context) (b : Byte) : Byte :=
  match dir with
  | .encrypt => outputByte c b
  | .decrypt => b

/-- The ciphertext byte XORed into X, whatever the direction (R185). -/
def absorbTextByte (dir : Direction) (c : Context) (b : Byte) : Context :=
  { c with X := xorBlockByte c.X c.buflen.toNat (cipherByte dir c b), buflen := c.buflen + 1 }

/-- One payload byte: the boundary test stands before the byte (R185). -/
def processByte (dir : Direction) (b : Byte) (s : State) : Result Byte :=
  (crossBoundary s).andThen fun _ s =>
  .done (outputByte s.ctx b) (s.setCtx (absorbTextByte dir s.ctx b))

/-- The bytes of a chunk, one output byte per input byte, same index (R84, R185). -/
def processBytes (dir : Direction) : List Byte → State → Result (List Byte)
  | [], s => .done [] s
  | b :: rest, s =>
    (processByte dir b s).andThen fun out s =>
    (processBytes dir rest s).andThen fun outs s =>
    .done (out :: outs) s

/-- The legal state of PROCESS: LIVE, any phase (R185, R260). -/
def processLegal (c : Context) : Bool := c.life == .live

/-- The pseudocode of PROCESS (R185), run by PROCESS and inside ONE_SHOT. -/
def processBody (dir : Direction) (chunk : List Byte) (s : State) : Result (List Byte) :=
  (checkState (processLegal s.ctx) s).andThen fun _ s =>
  (closeAadPhase (s.setCtx (closeIvPhase s.ctx))).andThen fun _ s =>
  processBytes dir chunk s

/-- PROCESS (R185). -/
def execProcess (dir : Direction) (chunk : List Byte) (s : State) : Host.Outcome State Fault Refusal :=
  .next (concludeCommand false s.ctx (processBody dir chunk s))

end Sys2Proof.Machine
end

