-- ==== Sys2Proof/Machine/OneShot.lean ====
section
/-! DEFINITION. ONE_SHOT (`46_one_shot.md`): the bodies of the other commands run inside one command. -/

namespace Sys2Proof.Machine

/-- The five steps of R225: INIT, ADD_IV, ADD_AAD, PROCESS, FINISH, each on its whole byte string.  The data is the
output bytes and then the tag. -/
def oneShotSteps (dir : Direction) (tbl : Bool) (tagLen blockLen : Byte) (handle : Handle)
    (iv aad payload : List Byte) (s : State) : Result (List Byte) :=
  (initBody tbl blockLen handle s).andThen fun _ s =>
  (addIvBody iv s).andThen fun _ s =>
  (addAadBody aad s).andThen fun _ s =>
  (processBody dir payload s).andThen fun out s =>
  (finishBody tagLen s).andThen fun tag s =>
  .done (out ++ tag) s

/-- The way out of ONE_SHOT after a SETUP that answered: on success FINISH has sent the RELEASE and the context is
gone; on the first error the owed RELEASE is sent and the error goes on (R225, R226). -/
def releaseOnError (handle : Handle) : Result (List Byte) → Result (List Byte)
  | .done data s => .done data (s.loseContext .empty)
  | .raised k s => .raised k (adapterRelease handle s)
  | .waiting s => .waiting s

/-- The pseudocode of ONE_SHOT (R225). -/
def oneShotBody (dir : Direction) (tbl : Bool) (tagLen : Byte) (key iv aad payload : List Byte)
    (s : State) : Result (List Byte) :=
  (adapterSetup key (s.setLife .empty)).andThen fun made s =>
  releaseOnError made.1 (oneShotSteps dir tbl tagLen made.2 made.1 iv aad payload s)

/-- ONE_SHOT (R225). -/
def execOneShot (dir : Direction) (tbl : Bool) (tagLen : Byte) (key iv aad payload : List Byte)
    (s : State) : Host.Outcome State Fault Refusal :=
  .next (concludeCommand true s.ctx (oneShotBody dir tbl tagLen key iv aad payload s))

end Sys2Proof.Machine
end

