-- ==== Sys2Proof/Machine/Dispatch.lean ====
section
/-! DEFINITION. The dispatch of a decoded command to its meaning (R78's last column). -/

namespace Sys2Proof.Machine

def exec (i : Instr) (s : State) : Host.Outcome State Fault Refusal :=
  match i with
  | .init tbl blockLen sched => Sys2Proof.Machine.execInit tbl blockLen sched s
  | .addIv chunk => Sys2Proof.Machine.execAddIv chunk s
  | .addAad chunk => Sys2Proof.Machine.execAddAad chunk s
  | .process dir chunk => Sys2Proof.Machine.execProcess dir chunk s
  | .finish tagLen => Sys2Proof.Machine.execFinish tagLen s
  | .reset => Sys2Proof.Machine.execReset s
  | .oneShot dir tbl tagLen key iv aad payload => Sys2Proof.Machine.execOneShot dir tbl tagLen key iv aad payload s

end Sys2Proof.Machine
end

