-- ==== Sys2Proof/Machine/Step.lean ====
section
/-! DEFINITION. One step: one command (R296: "a model is untimed, and a command takes one step"). -/

namespace Sys2Proof.Machine

/-- The bytes still unread on the CMD port (R44). -/
def State.withCmd (s : State) (cmd : List Byte) : State := { s with cmd := cmd }

/-- The core decodes what stands at the front of CMD (R89) and performs it to completion (R55).  With no byte it is
idle and stays as it is (R275, R302); with part of a command, or inside one whose adapter never answers, it waits
for ever (R46, R302). -/
def step (s : State) : Host.Outcome State Fault Refusal :=
  if s.waiting then .fault .adapterSilent
  else
    match decode s.cmd with
    | .idle => .next s
    | .incomplete => .fault .commandIncomplete
    | .illegal _ rest => .next (s.withCmd rest).illegalHeader
    | .command i rest => exec i (s.withCmd rest)

/-- The instruction of an opcode-table word put at the front of CMD, where `step` reads its next command. -/
def State.withFetchWord (s : State) (nbits w : Nat) : State := s.withCmd (tableWordBytes nbits w ++ s.cmd)

end Sys2Proof.Machine
end

