-- ==== Sys2Proof/Safety.lean ====
section
/-! DEFINITION. The vocabulary of the claims: the invariants of a safe run, the adapter's answers to a list of
requests, the GCM values of whole byte strings, and sessions as lists of commands. -/

namespace Sys2Proof.Machine

/-! ### A context that exists -/

/-- There is a context whose fields hold values: LIVE or FINAL (R20, R31). -/
def Life.holds : Life → Bool
  | .empty => false
  | .live => true
  | .final => true
  | .fault => false

/-- Bytes 0 to 11 of two blocks agree (R24 item 3). -/
abbrev samePrefix (A B : Block) : Prop := A.extractLsb' 32 96 = B.extractLsb' 32 96

/-! ### The invariants every step keeps -/

/-- What holds of the context in every state, while it holds values (R16, R24, R166 point 3, R23, R130). -/
structure ContextInv (s : State) : Prop where
  /-- The table's list of cells has its canonical form, in every state. -/
  tableWf : s.ctx.table.wf
  /-- R24 item 1: `0 <= buflen <= 16`. -/
  buflenLe : s.ctx.life.holds → s.ctx.buflen ≤ 16
  /-- R24 item 1: `buflen <= 15` in phases IV and AAD. -/
  buflenLt : s.ctx.life.holds → s.ctx.mode ≠ .text → s.ctx.buflen ≤ 15
  /-- R23, R130: a context that multiplies by table has the memory, and it holds the table of its H. -/
  tableHolds : s.ctx.life.holds → s.ctx.tblSel → s.hasTable = true ∧ s.ctx.table = tableGen s.ctx.H
  /-- R24 item 3: `Y[0..11] = Y_0[0..11]` once IvClose has written them. -/
  counterPrefix : s.ctx.life.holds → s.ctx.mode ≠ .iv → samePrefix s.ctx.Y s.ctx.Y0
  /-- R14, R19: in phase IV the counter blocks and the payload count are still zero. -/
  ivPhase : s.ctx.life.holds → s.ctx.mode = .iv → s.ctx.Y = 0 ∧ s.ctx.Y0 = 0 ∧ s.ctx.pttotlen = 0
  /-- R18: `totlen` counts whole blocks in phase IV. -/
  ivCount : s.ctx.life.holds → s.ctx.mode = .iv → s.ctx.totlen.toNat % 128 = 0
  /-- R166 point 3, R24 item 5: with `ivmode = 0` in phase IV no block was folded and at most 12 bytes wait. -/
  ivDirect : s.ctx.life.holds → s.ctx.mode = .iv → s.ctx.ivmode = false →
    s.ctx.X = 0 ∧ s.ctx.totlen = 0 ∧ s.ctx.buflen ≤ 12
  /-- R19: no payload is counted before phase TEXT. -/
  aadPhase : s.ctx.life.holds → s.ctx.mode = .aad → s.ctx.pttotlen = 0
  /-- R20, R21: FINISH leaves phase TEXT. -/
  finalText : s.ctx.life = .final → s.ctx.mode = .text

/-- R187, R24 item 7 between commands: in phase AAD the counter is still `Y_0`; in phase TEXT the counter field is that of
`Y_0` plus 1 plus the number of boundaries crossed, which `pttotlen` counts 128 bits at a time. -/
structure CounterInv (s : State) : Prop where
  ivZero : s.ctx.life = .live → s.ctx.mode = .iv → s.ctx.pttotlen = 0
  aadStart : s.ctx.life = .live → s.ctx.mode = .aad → s.ctx.Y = s.ctx.Y0 ∧ s.ctx.pttotlen = 0
  textCount : s.ctx.life = .live → s.ctx.mode = .text →
    s.ctx.pttotlen.toNat % 128 = 0 ∧
      s.ctx.Y = withCounter s.ctx.Y0 (counterOf s.ctx.Y0 + 1 + (s.ctx.pttotlen >>> 7).setWidth 32)

/-- The machine runs with the adapter of R6 and R49, whose answers are `Config.encrypt`. -/
def State.usesCipher (s : State) : Prop :=
  ∃ inval released, s.adapter = .cipher inval released

/-- R103: `H` is the cipher's encryption of the zero block; R187: in phase TEXT `buf` is the keystream
block of `Y`. -/
structure SubkeyInv (s : State) : Prop where
  cipher : s.usesCipher
  subkey : s.ctx.life.holds → Config.encrypt s.ctx.sched 0 = some s.ctx.H
  keystream : s.ctx.life.holds → s.ctx.mode = .text → Config.encrypt s.ctx.sched s.ctx.Y = some s.ctx.buf

/-- Two machines that differ in `tbl_sel` and in the table memory alone (R133). -/
abbrev sameButTable (c d : Context) : Prop := { c with tblSel := d.tblSel, table := d.table } = d

/-! ### Classes of commands -/

/-- The legal (`life`, `mode`) of each command: the table of R260, row by row. -/
def stateLegal : Instr → Life → Mode → Bool
  | .init _ _ _, _, _ => true
  | .addIv _, life, mode => life == .live && mode == .iv
  | .addAad _, life, mode => life == .live && (mode == .iv || mode == .aad)
  | .process _ _, life, _ => life == .live
  | .finish _, life, mode => life == .live && mode == .text
  | .reset, life, _ => life == .live || life == .final
  | .oneShot _ _ _ _ _ _ _, _, _ => true

/-- ADD_IV, ADD_AAD, PROCESS or FINISH: the commands that test `buflen` (R261). -/
def isDataCommand : Instr → Bool
  | .init _ _ _ => false
  | .addIv _ => true
  | .addAad _ => true
  | .process _ _ => true
  | .finish _ => true
  | .reset => false
  | .oneShot _ _ _ _ _ _ _ => false

/-- INIT or ONE_SHOT: the commands that make a context of their own (R245). -/
def createsContext : Instr → Bool
  | .init _ _ _ => true
  | .addIv _ => false
  | .addAad _ => false
  | .process _ _ => false
  | .finish _ => false
  | .reset => false
  | .oneShot _ _ _ _ _ _ _ => true

/-- ONE_SHOT. -/
def isOneShot : Instr → Bool
  | .init _ _ _ => false
  | .addIv _ => false
  | .addAad _ => false
  | .process _ _ => false
  | .finish _ => false
  | .reset => false
  | .oneShot _ _ _ _ _ _ _ => true

/-- FINISH. -/
def isFinish : Instr → Bool
  | .init _ _ _ => false
  | .addIv _ => false
  | .addAad _ => false
  | .process _ _ => false
  | .finish _ => true
  | .reset => false
  | .oneShot _ _ _ _ _ _ _ => false

/-- ADD_AAD or PROCESS: the commands whose first use closes phase IV (R171). -/
def entersLaterPhase : Instr → Bool
  | .init _ _ _ => false
  | .addIv _ => false
  | .addAad _ => true
  | .process _ _ => true
  | .finish _ => false
  | .reset => false
  | .oneShot _ _ _ _ _ _ _ => false

/-- INIT or RESET: the commands that begin a session (R306). -/
def opensSession : Instr → Bool
  | .init _ _ _ => true
  | .addIv _ => false
  | .addAad _ => false
  | .process _ _ => false
  | .finish _ => false
  | .reset => true
  | .oneShot _ _ _ _ _ _ _ => false

/-- The context INIT and RESET leave: LIVE, the session's fields as `ZeroSession` writes them (R30). -/
abbrev atSessionStart (c : Context) : Prop := c.life = .live ∧ zeroSession c = c

/-! ### The adapter's answers to several requests -/

/-- The adapter answers an ENCRYPT of each of these blocks, in order, with `ok`: the outputs and the adapter after
them. -/
def Adapter.encryptAll (h : Handle) : List Block → Adapter → Option (List Block × Adapter)
  | [], a => some ([], a)
  | B :: Bs, a =>
    match a.encrypt h B with
    | (.ok out, a') => (Adapter.encryptAll h Bs a').map fun (outs, a'') => (out :: outs, a'')
    | _ => none

/-- Two adapters answer equal ENCRYPT requests with a handle equally (R305's proviso): the same blocks, asked for one
after another, are answered with the same outputs, or not all answered with `ok` by either. -/
def Adapter.answerAlike (h : Handle) (a a' : Adapter) : Prop :=
  ∀ Bs, (Adapter.encryptAll h Bs a').map Prod.fst = (Adapter.encryptAll h Bs a).map Prod.fst

/-- The transactions of those requests on CIPH. -/
def encryptTransactions (h : Handle) (ins outs : List Block) : List Transaction :=
  List.zipWith (fun B out => .encrypt h B (.ok out)) ins outs

/-! ### Byte strings as blocks -/

/-- The first 16 bytes of a string as a block, padded on the right with zero bytes (R166, R168). -/
def blockOfBytes (bytes : List Byte) : Block :=
  (List.range 16).foldl (fun B j => B ||| unit (bytes.getD j 0) j) 0

/-- The complete 16-byte blocks of a string, in order (R151). -/
def completeBlocks (bytes : List Byte) : List Block :=
  (List.range (bytes.length / 16)).map fun k => blockOfBytes (bytes.drop (16 * k))

/-- The bytes after the last complete block (R151). -/
def lastBytes (bytes : List Byte) : List Byte := bytes.drop (16 * (bytes.length / 16))

/-- The blocks of a string padded on the right with zero bytes to a multiple of 16 (R168, R213). -/
def paddedBlocks (bytes : List Byte) : List Block :=
  (List.range ((bytes.length + 15) / 16)).map fun k => blockOfBytes (bytes.drop (16 * k))

/-- The bit length of a string modulo 2^64 (R18, R211). -/
def bitLength (bytes : List Byte) : BitVec 64 := BitVec.ofNat 64 (8 * bytes.length)

/-- `Y_0` as a function of H and the IV bytes: the direct path for 12 bytes (R167), else the GHASH path (R168). -/
def initialCounter (H : Block) (iv : List Byte) : Block :=
  if iv.length = 12 then withCounter (blockOfBytes iv) 1
  else ghashFrom H 0 (paddedBlocks iv ++ [lengthBlock 0 (bitLength iv)])

/-- `Ctr(j)` (R187). -/
def ctrBlock (Y0 : Block) (j : Nat) : Block := withCounter Y0 (counterOf Y0 + 1 + BitVec.ofNat 32 j)

/-- `b = max(1, ceil(n / 16))`, the keystream blocks a payload of `n` bytes asks for (R192). -/
def keystreamBlocks (n : Nat) : Nat := max 1 ((n + 15) / 16)

/-- The counter blocks of a payload of `n` bytes, in the order they are requested (R192). -/
def counterBlocks (Y0 : Block) (n : Nat) : List Block := (List.range (keystreamBlocks n)).map (ctrBlock Y0)

/-- Byte `p` of a keystream given by its blocks (R185 corner case g). -/
def keystreamByte (keystream : List Block) (p : Nat) : Byte := blockByte (keystream.getD (p / 16) 0) (p % 16)

/-- The outputs of a payload under a keystream: `out = in xor keystream byte`, in both directions (R187). -/
def xorKeystream (keystream : List Block) (payload : List Byte) : List Byte :=
  payload.mapIdx fun p b => b ^^^ keystreamByte keystream p

/-- A payload whose bytes carry each its own command's direction (R185 corner case d). -/
abbrev Payload := List (Direction × Byte)

/-- The ciphertext of a payload with its outputs: the output in direction Encrypt, the input in direction Decrypt
(R190). -/
def cipherBytes (payload : Payload) (outs : List Byte) : List Byte :=
  List.zipWith (fun b out => match b.1 with | .encrypt => out | .decrypt => b.2) payload outs

/-- `T` in closed form (R213): the mask XORed with the GHASH of the padded AAD, the padded ciphertext and the length
block. -/
def closedTag (H mask : Block) (aad cipher : List Byte) : Block :=
  mask ^^^ ghashFrom H 0 (paddedBlocks aad ++ paddedBlocks cipher ++ [lengthBlock (bitLength aad) (bitLength cipher)])

/-! ### Commands performed one after another -/

/-- The data of the response a command appended to RSP, when that response is a success; `none` otherwise. -/
def answerData (s t : State) : Option (List Byte) :=
  let data := t.rsp.drop (s.rsp.length + 5)
  if t.rsp = s.rsp ++ response okCode t.ctx data then some data else none

/-- One command that succeeds: its response data and the state after it; `none` when it answers an error or waits. -/
def perform (i : Instr) (s : State) : Option (List Byte × State) :=
  match exec i s with
  | .next t => if t.waiting then none else (answerData s t).map fun data => (data, t)
  | _ => none

/-- Commands that all succeed, one after another: their response data, in order, and the last state. -/
def performAll : List Instr → State → Option (List (List Byte) × State)
  | [], s => some ([], s)
  | i :: is, s =>
    (perform i s).bind fun (data, t) => (performAll is t).map fun (datas, u) => (data :: datas, u)

/-- A session after its opening command: ADD_IV commands, ADD_AAD commands, PROCESS commands, FINISH (R283). -/
def sessionBody (ivs aads : List (List Byte)) (texts : List (Direction × List Byte)) (tagLen : Byte) : List Instr :=
  ivs.map .addIv ++ aads.map .addAad ++ texts.map (fun c => .process c.1 c.2) ++ [.finish tagLen]

/-- A session in the form of R306: the opening command and then the rest. -/
def session (opener : Instr) (ivs aads : List (List Byte)) (texts : List (Direction × List Byte)) (tagLen : Byte) :
    List Instr :=
  opener :: sessionBody ivs aads texts tagLen

/-- The payload of PROCESS commands, each byte with the direction of its command (R306). -/
def payloadOf (texts : List (Direction × List Byte)) : Payload :=
  texts.flatMap fun c => c.2.map fun b => (c.1, b)

end Sys2Proof.Machine
end

