-- ==== Sys2Proof/Certificates/Slice0/Obligations.lean ====
section
/-! DEFINITION. The statements for the provers, in the order of `OBLIGATIONS.json`.  Each docstring names the rule of
the spec it formalises and, where a clause is the model's own choice, the log entry that declares it. -/

open Sys2Proof Sys2Proof.Machine

section

/-! ### Encoding (`30_encoding.md`) -/

/-- R71 to R78, R89: decoding the encoding of a well-formed command gives the command, every operand at every value,
and leaves the bytes after it on the stream. -/
def Obligations.DecodeEncodeRoundTrip : Prop :=
  ∀ (i : Instr) (rest : List Byte), i.wellFormed = true → decode (encode i ++ rest) = .command i rest

/-- R70, R72, R82, R89: the decoder reads a command from its own encoding and from nothing else; it consumes exactly
the command's bytes, as many as R72 says. -/
def Obligations.DecodedCommandIsItsEncoding : Prop :=
  ∀ (bytes rest : List Byte) (i : Instr), decode bytes = .command i rest →
    i.wellFormed = true ∧ bytes = encode i ++ rest ∧ bytes.length = i.byteLength + rest.length

/-- The words R73 to R77 give as examples, and one for each command without one, decode to the commands they stand
for. -/
def Obligations.SpecEncodingsDecode : Prop :=
  decode [0x10, 0x10, 0, 0, 0, 0, 0, 1] = .command (.init false 16 1) [] ∧
  decode [0x14, 0x10, 0, 0, 0, 0, 0, 1] = .command (.init true 16 1) [] ∧
  decode ([0x20, 0, 0, 0x0C] ++ List.replicate 12 0) = .command (.addIv (List.replicate 12 0)) [] ∧
  decode [0x30, 0, 0, 0] = .command (.addAad []) [] ∧
  decode [0x48, 0, 0, 3, 0xAA, 0xBB, 0xCC] = .command (.process .decrypt [0xAA, 0xBB, 0xCC]) [] ∧
  decode [0x50, 0x10, 0, 0] = .command (.finish 16) [] ∧
  decode [0x60, 0, 0, 0] = .command .reset [] ∧
  decode ([0x70, 0x10, 0, 0x10] ++ [0, 0, 0, 0x0C] ++ [0, 0, 0, 0] ++ [0, 0, 0, 0x20] ++ List.replicate 60 0) =
    .command (.oneShot .encrypt false 16 (List.replicate 16 0) (List.replicate 12 0) [] (List.replicate 32 0)) []

/-- R80, whole: which headers are illegal, and what the core does with one: four bytes consumed, no CIPH
transaction, `InvalidArgument` and no data, `life` FAULT if there was a context and EMPTY if there was none; the
bytes after it are what the core reads next. -/
def Obligations.IllegalHeaderExactlyAndItsEffect : Prop :=
  (∀ h : Header, lookupOpcode h = none ↔
    (h.extractLsb' 28 4 = 0 ∨ 8 ≤ h.extractLsb' 28 4) ∨
    h.extractLsb' 24 2 ≠ 0 ∨
    (hdrDir h = .decrypt ∧ h.extractLsb' 28 4 ∉ [4, 7]) ∨
    (hdrTbl h = true ∧ h.extractLsb' 28 4 ∉ [1, 7]) ∨
    (hdrArg8 h ≠ 0 ∧ h.extractLsb' 28 4 ∉ [1, 5, 7]) ∨
    (hdrLen16 h ≠ 0 ∧ h.extractLsb' 28 4 ∉ [2, 3, 4, 7])) ∧
  (∀ (s : State) (h : Header) (rest : List Byte), s.waiting = false → lookupOpcode h = none →
    s.cmd = be32 h ++ rest →
    ∃ t, step s = .next t ∧ t.cmd = rest ∧ t.ciph = s.ciph ∧ t.adapter = s.adapter ∧ t.hasTable = s.hasTable ∧
      t.waiting = false ∧
      t.ctx.life = (if s.ctx.life = .empty then .empty else .fault) ∧
      t.rsp = s.rsp ++ [if s.ctx.life = .empty then 0x20 else 0x2C, 0, 0, 0, 0])

/-! ### The step (R55, R89, R302) -/

/-- R55, R89: when the bytes on CMD decode to a command, the step consumes them and performs that command. -/
def Obligations.StepRunsDecodedCommand : Prop :=
  ∀ (s : State) (i : Instr) (rest : List Byte), s.waiting = false → decode s.cmd = .command i rest →
    step s = exec i (s.withCmd rest)

/-- R46, R302: at a command boundary with no byte the core stays as it is; inside a command, or waiting for the
adapter, it goes no further.  That being stuck is a fault of `step` is the model's form of it (log entries 7, 8). -/
def Obligations.StepWithoutAWholeCommand : Prop :=
  (∀ s : State, s.waiting = false → s.cmd = [] → step s = .next s) ∧
  (∀ s : State, s.waiting = true → step s = .fault .adapterSilent) ∧
  (∀ (s : State) (i : Instr) (front back : List Byte), s.waiting = false → i.wellFormed = true →
    encode i = front ++ back → front ≠ [] → back ≠ [] → s.cmd = front → step s = .fault .commandIncomplete)

/-- R45, R83, R249, R302: every command answers a next state, with exactly one response on RSP and no data in it unless
the code is OK, or it waits for an adapter answer, and then no response is written and the command has no effect on
the context.  What was on CIPH stays, no byte of CMD is read beyond the command, and the instance does not change. -/
def Obligations.EveryCommandAnswersOnce : Prop :=
  ∀ (i : Instr) (s : State), ∃ t, exec i s = .next t ∧
    ((∃ code data, t.rsp = s.rsp ++ response code t.ctx data ∧ (code ≠ okCode → data = []) ∧ code ≤ 5 ∧
        t.waiting = s.waiting) ∨
      (t.rsp = s.rsp ∧ t.waiting = true ∧ t.ctx = s.ctx ∧ t.freeIndex = s.freeIndex)) ∧
    s.ciph <+: t.ciph ∧ t.cmd = s.cmd ∧ t.hasTable = s.hasTable

/-- R249: with an adapter that answers every request, here the cipher of R49, no command waits. -/
def Obligations.CipherAdapterNeverWaits : Prop :=
  ∀ (i : Instr) (s t : State), s.usesCipher → exec i s = .next t → t.waiting = s.waiting ∧ t.usesCipher

/-- R85: the three fields of the status byte, `mode` being reported for LIVE and FINAL alone. -/
def Obligations.StatusByteFields : Prop :=
  ∀ (code : BitVec 4) (life : Life) (mode : Mode),
    (statusByte code life mode).extractLsb' 4 4 = code ∧
    (statusByte code life mode).extractLsb' 2 2 = life.code ∧
    (statusByte code life mode).extractLsb' 0 2 = (if life.holds then mode.code else 0)

/-! ### Errors (`60_exceptions.md`) -/

/-- R260, whole: in the combinations its table marks "ok" the command does not answer `InvalidState`; in every other
one it does, and the response is all it does. -/
def Obligations.InvalidStateExactly : Prop :=
  (∀ (i : Instr) (s : State), stateLegal i s.ctx.life s.ctx.mode = false →
    ∃ t, exec i s = .next t ∧ t.ciph = s.ciph ∧ t.adapter = s.adapter ∧ t.waiting = s.waiting ∧
      t.ctx.life = (if s.ctx.life = .empty then .empty else .fault) ∧
      t.rsp = s.rsp ++ [if s.ctx.life = .empty then 0x10 else 0x1C, 0, 0, 0, 0]) ∧
  (∀ (i : Instr) (s t : State) (code : BitVec 4) (data : List Byte), stateLegal i s.ctx.life s.ctx.mode = true →
    exec i s = .next t → t.rsp = s.rsp ++ response code t.ctx data → code ≠ ErrorKind.invalidState.code)

/-- R261 cause 1, R243 item 4: the four data commands, in a legal state, refuse a fill count above 16. -/
def Obligations.BuflenAbove16IsInvalidArgument : Prop :=
  ∀ (i : Instr) (s : State), isDataCommand i = true → stateLegal i s.ctx.life s.ctx.mode = true →
    16 < s.ctx.buflen →
    ∃ t, exec i s = .next t ∧ t.ciph = s.ciph ∧ t.adapter = s.adapter ∧ t.ctx.life = .fault ∧
      t.rsp = s.rsp ++ [0x2C, 0, 0, 0, 0]

/-- R246, whole: in FAULT the data commands and RESET raise `InvalidState` and leave FAULT; a command that leaves it
is an INIT, to LIVE with OK or to EMPTY with an error, or a ONE_SHOT, to EMPTY; power-on reset leaves it too. -/
def Obligations.FaultIsTerminal : Prop :=
  (∀ (i : Instr) (s : State), s.ctx.life = .fault → isDataCommand i = true ∨ i = .reset →
    ∃ t, exec i s = .next t ∧ t.ctx.life = .fault ∧ t.rsp = s.rsp ++ [0x1C, 0, 0, 0, 0]) ∧
  (∀ (tbl : Bool) (blockLen : Byte) (sched : Handle) (s t : State) (code : BitVec 4) (data : List Byte),
    s.ctx.life = .fault → exec (.init tbl blockLen sched) s = .next t →
    t.rsp = s.rsp ++ response code t.ctx data →
    t.ctx.life = (if code = okCode then .live else .empty)) ∧
  (∀ (dir : Direction) (tbl : Bool) (tagLen : Byte) (key iv aad payload : List Byte) (s t : State)
    (code : BitVec 4) (data : List Byte),
    s.ctx.life = .fault → exec (.oneShot dir tbl tagLen key iv aad payload) s = .next t →
    t.rsp = s.rsp ++ response code t.ctx data → t.ctx.life = .empty) ∧
  (∀ (s : State) (lost : Nat), (s.powerOnReset lost).ctx.life = .empty)

/-- R245: a command that answers an error returns no data, leaves `life` EMPTY (INIT, ONE_SHOT, or no context before)
or FAULT, reports it in the status byte with the mode bits 0, and, unless it is ONE_SHOT, has sent no RELEASE. -/
def Obligations.ErrorEntry : Prop :=
  ∀ (i : Instr) (s t : State) (code : BitVec 4) (data : List Byte),
    exec i s = .next t → t.rsp = s.rsp ++ response code t.ctx data → code ≠ okCode →
    data = [] ∧
    t.ctx.life = (if createsContext i = true ∨ s.ctx.life = .empty then .empty else .fault) ∧
    t.rsp = s.rsp ++ [code ++ t.ctx.life.code ++ 0#2, 0, 0, 0, 0] ∧
    (isOneShot i = false → ∃ sent, t.ciph = s.ciph ++ sent ∧ ∀ h, Transaction.release h ∉ sent)

/-! ### INIT and RESET (`40_init_reset.md`) -/

/-- R100, R30: INIT with block length 16, the table memory there if asked for, and an answer to the ENCRYPT of the
zero block, succeeds in every state.  It sends that one ENCRYPT, answers `04 00 00 00 00`, leaves every field as the
INIT column of R30 says, the table written whole when `tbl = 1`, and changes nothing else of the machine.  The
table's contents with `tbl = 0` are not stated. -/
def Obligations.InitCreatesContext : Prop :=
  ∀ (s : State) (tbl : Bool) (sched : Handle) (H : Block) (a : Adapter),
    (tbl = true → s.hasTable = true) → s.adapter.encrypt sched 0 = (.ok H, a) →
    ∃ t table, exec (.init tbl 16 sched) s = .next t ∧ (tbl = true → table = tableGen H) ∧
      t = { s with
        ctx := { sched := sched, H := H, X := 0, Y := 0, Y0 := 0, buf := 0, buflen := 0, ivmode := false,
                 totlen := 0, pttotlen := 0, life := .live, mode := .iv, tblSel := tbl, table := table },
        adapter := a,
        ciph := s.ciph ++ [.encrypt sched 0 (.ok H)],
        rsp := s.rsp ++ [0x04, 0, 0, 0, 0] }

/-- R100, R243 item 5, R263: INIT's three errors in the order they are tested: the block length, the table memory
(neither sends anything on CIPH), the answer to the ENCRYPT of the zero block. -/
def Obligations.InitErrorsInOrder : Prop :=
  (∀ (s : State) (tbl : Bool) (blockLen : Byte) (sched : Handle), blockLen ≠ 16 →
    ∃ t, exec (.init tbl blockLen sched) s = .next t ∧ t.rsp = s.rsp ++ [0x30, 0, 0, 0, 0] ∧
      t.ctx.life = .empty ∧ t.ciph = s.ciph ∧ t.adapter = s.adapter) ∧
  (∀ (s : State) (sched : Handle), s.hasTable = false →
    ∃ t, exec (.init true 16 sched) s = .next t ∧ t.rsp = s.rsp ++ [0x40, 0, 0, 0, 0] ∧
      t.ctx.life = .empty ∧ t.ciph = s.ciph ∧ t.adapter = s.adapter) ∧
  (∀ (s : State) (tbl : Bool) (sched : Handle) (a : Adapter), (tbl = true → s.hasTable = true) →
    s.adapter.encrypt sched 0 = (.notOk, a) →
    ∃ t, exec (.init tbl 16 sched) s = .next t ∧ t.rsp = s.rsp ++ [0x30, 0, 0, 0, 0] ∧
      t.ctx.life = .empty ∧ t.ciph = s.ciph ++ [.encrypt sched 0 .notOk] ∧ t.adapter = a)

/-- R102, R30: RESET of a LIVE or FINAL context succeeds, zeroes the session, keeps `sched`, `H`, `tbl_sel` and the
table, sends nothing on CIPH and answers `04 00 00 00 00`. -/
def Obligations.ResetReturnsToPostInit : Prop :=
  ∀ s : State, s.ctx.life.holds →
    exec .reset s = .next { s with
      ctx := { s.ctx with X := 0, Y := 0, Y0 := 0, buf := 0, buflen := 0, ivmode := false, totlen := 0,
                          pttotlen := 0, life := .live, mode := .iv },
      rsp := s.rsp ++ [0x04, 0, 0, 0, 0] }

/-- R103, whole: H is the encryption of the zero block under the context's handle in every state a step leads to
from such a state, and no command but INIT and ONE_SHOT changes it. -/
def Obligations.SubkeyLaw : Prop :=
  (∀ s t : State, SubkeyInv s → step s = .next t → SubkeyInv t) ∧
  (∀ (i : Instr) (s t : State), createsContext i = false → exec i s = .next t → t.ctx.life.holds →
    t.ctx.H = s.ctx.H ∧ t.ctx.sched = s.ctx.sched)

/-! ### ADD_IV (`42_add_iv.md`) -/

/-- R150, R28: ADD_IV in LIVE, IV completes for every chunk, answers `04 00 00 00 00`, and writes of the whole
machine `X`, `buf`, `buflen`, `ivmode` and `totlen` alone: no other register, no byte of the table, nothing on CIPH.
An empty chunk writes none of them. -/
def Obligations.AddIvCompletesAndFrame : Prop :=
  ∀ (s : State) (chunk : List Byte), s.ctx.life = .live → s.ctx.mode = .iv → s.ctx.buflen ≤ 16 →
    ∃ X buf buflen ivmode totlen,
      exec (.addIv chunk) s = .next { s with
        ctx := { s.ctx with X := X, buf := buf, buflen := buflen, ivmode := ivmode, totlen := totlen },
        rsp := s.rsp ++ [0x04, 0, 0, 0, 0] } ∧
      (s.ctx.ivmode = true → ivmode = true) ∧
      (chunk = [] → X = s.ctx.X ∧ buf = s.ctx.buf ∧ buflen = s.ctx.buflen ∧ ivmode = s.ctx.ivmode ∧
        totlen = s.ctx.totlen)

/-- R150's loop body: one IV byte is stored at position `buflen`, sets `ivmode` when it is at least the thirteenth of
its block, and, when it is the sixteenth, the block is folded into X and counted. -/
def Obligations.AddIvOneByte : Prop :=
  ∀ (s : State) (b : Byte), s.ctx.life = .live → s.ctx.mode = .iv → s.ctx.buflen ≤ 15 →
    exec (.addIv [b]) s = .next { s with
      ctx :=
        if s.ctx.buflen = 15 then
          { s.ctx with X := multH s.ctx (s.ctx.X ^^^ setBlockByte s.ctx.buf 15 b), buf := setBlockByte s.ctx.buf 15 b,
                       buflen := 0, ivmode := true, totlen := s.ctx.totlen + 128 }
        else
          { s.ctx with buf := setBlockByte s.ctx.buf s.ctx.buflen.toNat b, buflen := s.ctx.buflen + 1,
                       ivmode := s.ctx.ivmode || decide (12 ≤ s.ctx.buflen) },
      rsp := s.rsp ++ [0x04, 0, 0, 0, 0] }

/-- R151, whole: after any ADD_IV commands from the start of a session, with `c` the concatenation of their chunks
and `L` its length: `totlen`, `buflen`, the waiting bytes of `buf`, `X` and `ivmode` are functions of `c` alone.
`totlen` is the 64-bit register, so modulo 2^64 (R18). -/
def Obligations.IvPhaseLaw : Prop :=
  ∀ (s : State) (chunks : List (List Byte)), s.waiting = false → ContextInv s → atSessionStart s.ctx →
    ∃ datas t, performAll (chunks.map .addIv) s = some (datas, t) ∧
      t.ctx.life = .live ∧ t.ctx.mode = .iv ∧
      t.ctx.totlen = BitVec.ofNat 64 (128 * (chunks.flatten.length / 16)) ∧
      t.ctx.buflen.toNat = chunks.flatten.length % 16 ∧
      (∀ j, j < t.ctx.buflen.toNat → blockByte t.ctx.buf j = (lastBytes chunks.flatten).getD j 0) ∧
      t.ctx.X = ghashFrom s.ctx.H 0 (completeBlocks chunks.flatten) ∧
      (t.ctx.ivmode = true ↔ 12 < chunks.flatten.length)

/-- R152, whole: two sequences of ADD_IV commands whose chunks concatenate to the same string leave the same context.
The fill count is at most 15, as R16 says it is at rest in phase IV. -/
def Obligations.IvStreamingEquivalence : Prop :=
  ∀ (s : State) (chunks chunks' : List (List Byte)), s.waiting = false → s.ctx.life = .live → s.ctx.mode = .iv →
    s.ctx.buflen ≤ 15 → chunks.flatten = chunks'.flatten →
    ∃ datas t datas' t', performAll (chunks.map .addIv) s = some (datas, t) ∧
      performAll (chunks'.map .addIv) s = some (datas', t') ∧ t.ctx = t'.ctx

/-! ### ADD_AAD and the close of the IV phase (`43_add_aad.md`) -/

/-- R165, R28: ADD_AAD in LIVE, IV or AAD completes for every chunk, answers `05 00 00 00 00` and leaves phase AAD.
In phase AAD it writes `X`, `buflen` and `totlen` alone of the whole machine, and nothing for an empty chunk; in phase
IV it also writes `Y` and `Y_0`, both with the same block, and clears `buf`.  No byte of the table changes and nothing
is sent on CIPH. -/
def Obligations.AddAadCompletesAndFrame : Prop :=
  (∀ (s : State) (chunk : List Byte), s.ctx.life = .live → s.ctx.mode = .aad → s.ctx.buflen ≤ 16 →
    ∃ X buflen totlen,
      exec (.addAad chunk) s = .next { s with
        ctx := { s.ctx with X := X, buflen := buflen, totlen := totlen },
        rsp := s.rsp ++ [0x05, 0, 0, 0, 0] } ∧
      (chunk = [] → X = s.ctx.X ∧ buflen = s.ctx.buflen ∧ totlen = s.ctx.totlen)) ∧
  (∀ (s : State) (chunk : List Byte), s.ctx.life = .live → s.ctx.mode = .iv → s.ctx.buflen ≤ 16 →
    ∃ X Y buflen totlen,
      exec (.addAad chunk) s = .next { s with
        ctx := { s.ctx with X := X, Y := Y, Y0 := Y, buf := 0, buflen := buflen, totlen := totlen, mode := .aad },
        rsp := s.rsp ++ [0x05, 0, 0, 0, 0] })

/-- R165's loop body in phase AAD: one byte is XORed into X at position `buflen`; when it is the sixteenth of its
block, X is multiplied by H and the block is counted. -/
def Obligations.AddAadOneByte : Prop :=
  ∀ (s : State) (b : Byte), s.ctx.life = .live → s.ctx.mode = .aad → s.ctx.buflen ≤ 15 →
    exec (.addAad [b]) s = .next { s with
      ctx :=
        if s.ctx.buflen = 15 then
          { s.ctx with X := multH s.ctx (xorBlockByte s.ctx.X 15 b), buflen := 0, totlen := s.ctx.totlen + 128 }
        else
          { s.ctx with X := xorBlockByte s.ctx.X s.ctx.buflen.toNat b, buflen := s.ctx.buflen + 1 },
      rsp := s.rsp ++ [0x05, 0, 0, 0, 0] }

/-- R166, R167, R308: an IV of exactly 12 bytes, however it is cut, gives `Y = Y_0 = iv[0..11] || 00 00 00 01` when
the phase is closed, and the value does not depend on H. -/
def Obligations.DirectCounterPath : Prop :=
  ∀ (s : State) (chunks : List (List Byte)), s.waiting = false → ContextInv s → atSessionStart s.ctx →
    chunks.flatten.length = 12 →
    ∃ datas t, performAll (chunks.map .addIv ++ [.addAad []]) s = some (datas, t) ∧
      t.ctx.Y = withCounter (blockOfBytes chunks.flatten) 1 ∧ t.ctx.Y0 = t.ctx.Y ∧
      t.ctx.X = 0 ∧ t.ctx.buf = 0 ∧ t.ctx.buflen = 0 ∧ t.ctx.totlen = 0 ∧ t.ctx.mode = .aad

/-- R168, whole: an IV of any other length gives `Y = Y_0 =` the GHASH of its padded blocks and its bit length, taken
modulo 2^64. -/
def Obligations.GhashCounterPath : Prop :=
  ∀ (s : State) (chunks : List (List Byte)), s.waiting = false → ContextInv s → atSessionStart s.ctx →
    chunks.flatten.length ≠ 12 →
    ∃ datas t, performAll (chunks.map .addIv ++ [.addAad []]) s = some (datas, t) ∧
      t.ctx.Y = ghashFrom s.ctx.H 0
        (paddedBlocks chunks.flatten ++ [lengthBlock 0 (BitVec.ofNat 64 (8 * chunks.flatten.length))]) ∧
      t.ctx.Y0 = t.ctx.Y ∧
      t.ctx.X = 0 ∧ t.ctx.buf = 0 ∧ t.ctx.buflen = 0 ∧ t.ctx.totlen = 0 ∧ t.ctx.mode = .aad

/-- R169: the empty IV raises nothing and gives `Y = Y_0 = 0`. -/
def Obligations.EmptyIvGivesZeroCounter : Prop :=
  ∀ (s : State), ContextInv s → atSessionStart s.ctx →
    ∃ t, exec (.addAad []) s = .next t ∧ t.ctx.Y = 0 ∧ t.ctx.Y0 = 0 ∧ t.ctx.mode = .aad ∧
      t.rsp = s.rsp ++ [0x05, 0, 0, 0, 0]

/-- R170, whole: after ADD_AAD commands, at least one, with `a` the concatenation of their chunks: `totlen`, `buflen`
and X are functions of `a` and H alone. -/
def Obligations.AadPhaseLaw : Prop :=
  ∀ (s : State) (chunks : List (List Byte)), s.waiting = false → ContextInv s → s.ctx.life = .live → s.ctx.mode = .iv →
    chunks ≠ [] →
    ∃ datas t, performAll (chunks.map .addAad) s = some (datas, t) ∧
      t.ctx.life = .live ∧ t.ctx.mode = .aad ∧
      t.ctx.totlen = BitVec.ofNat 64 (128 * (chunks.flatten.length / 16)) ∧
      t.ctx.buflen.toNat = chunks.flatten.length % 16 ∧
      t.ctx.X = ghashFrom s.ctx.H 0 (completeBlocks chunks.flatten) ^^^ blockOfBytes (lastBytes chunks.flatten)

/-- R171, R165, R185: the first command of a later phase closes the IV phase exactly as an ADD_AAD of no bytes sent
before it would: the same CIPH traffic, the same answer and, when there is an answer, the same context; this holds of
its errors too.  When the adapter does not answer, the command waits in both and the context stays as each found it
(R302). -/
def Obligations.ImplicitIvClose : Prop :=
  ∀ (i : Instr) (s u : State), entersLaterPhase i = true → s.ctx.life = .live → s.ctx.mode = .iv →
    s.ctx.buflen ≤ 15 → exec (.addAad []) s = .next u →
    ∃ t t' answer, exec i s = .next t ∧ exec i u = .next t' ∧ t'.ciph = t.ciph ∧
      t'.adapter = t.adapter ∧ t'.waiting = t.waiting ∧ t.rsp = s.rsp ++ answer ∧ t'.rsp = u.rsp ++ answer ∧
      (answer ≠ [] → t'.ctx = t.ctx) ∧ (answer = [] → t.ctx = s.ctx ∧ t'.ctx = u.ctx)

/-! ### PROCESS (`44_process.md`) -/

/-- R186, whole: bytes 0 to 11 are kept and the last four are the counter plus 1 modulo 2^32. -/
def Obligations.Inc32Counts : Prop :=
  ∀ B : Block, (∀ j, j < 12 → blockByte (inc32 B) j = blockByte B j) ∧
    (counterOf (inc32 B)).toNat = ((counterOf B).toNat + 1) % 2 ^ 32

/-- R188, R185 corner case a: PROCESS of no bytes in phase AAD folds and counts the partial AAD block, asks for the
keystream block of the incremented counter, and enters TEXT with it in `buf`; nothing else changes. -/
def Obligations.ProcessEntersText : Prop :=
  ∀ (s : State) (dir : Direction) (keystream : Block) (a : Adapter),
    s.ctx.life = .live → s.ctx.mode = .aad → s.ctx.buflen ≤ 16 →
    s.adapter.encrypt s.ctx.sched (inc32 s.ctx.Y) = (.ok keystream, a) →
    exec (.process dir []) s = .next { s with
      ctx := { s.ctx with
        X := if s.ctx.buflen = 0 then s.ctx.X else multH s.ctx s.ctx.X,
        totlen := s.ctx.totlen + 8 * s.ctx.buflen.setWidth 64,
        Y := inc32 s.ctx.Y, buf := keystream, buflen := 0, mode := .text },
      adapter := a,
      ciph := s.ciph ++ [.encrypt s.ctx.sched (inc32 s.ctx.Y) (.ok keystream)],
      rsp := s.rsp ++ [0x06, 0, 0, 0, 0] }

/-- R185, R187, R28: PROCESS in phase TEXT, the adapter answering the keystream blocks of the boundaries the chunk
crosses, completes: byte `k` of the output is byte `k` of the chunk XOR the keystream byte at its place in the payload,
in both directions; exactly those ENCRYPTs are sent; of the whole machine it writes `X`, `Y`, `buf`, `buflen`,
`pttotlen` and the ports alone.  For a chunk of 2^32 bytes or more, which no encoding holds, the length field is the
model's free value (log entry 3). -/
def Obligations.ProcessTextOutput : Prop :=
  ∀ (s : State) (dir : Direction) (chunk : List Byte) (outs : List Block) (a : Adapter),
    s.ctx.life = .live → s.ctx.mode = .text → s.ctx.buflen ≤ 16 →
    Adapter.encryptAll s.ctx.sched
      ((List.range ((s.ctx.buflen.toNat + chunk.length - 1) / 16)).map (ctrBlock s.ctx.Y)) s.adapter = some (outs, a) →
    ∃ X buflen data,
      exec (.process dir chunk) s = .next { s with
        ctx := { s.ctx with
          X := X, Y := withCounter s.ctx.Y (counterOf s.ctx.Y + BitVec.ofNat 32 outs.length),
          buf := (s.ctx.buf :: outs).getLast (by simp), buflen := buflen,
          pttotlen := s.ctx.pttotlen + 128 * BitVec.ofNat 64 outs.length },
        adapter := a,
        ciph := s.ciph ++ encryptTransactions s.ctx.sched
          ((List.range ((s.ctx.buflen.toNat + chunk.length - 1) / 16)).map (ctrBlock s.ctx.Y)) outs,
        rsp := s.rsp ++ 0x06 :: (be32 (dlenField chunk.length) ++ data) } ∧
      data.length = chunk.length ∧
      (∀ k, k < chunk.length →
        data.getD k 0 = chunk.getD k 0 ^^^ keystreamByte (s.ctx.buf :: outs) (s.ctx.buflen.toNat + k))

/-- R185, R188: PROCESS in phase AAD does what a PROCESS of no bytes that succeeded and then the same PROCESS in phase
TEXT do: the same CIPH traffic, the same answer and, when there is an answer, the same context, errors included; when
the adapter does not answer, the context stays as each found it (R302). -/
def Obligations.ImplicitAadClose : Prop :=
  ∀ (dir dir' : Direction) (chunk : List Byte) (s u : State), s.ctx.life = .live → s.ctx.mode = .aad →
    perform (.process dir' []) s = some ([], u) →
    ∃ t t' answer, exec (.process dir chunk) s = .next t ∧ exec (.process dir chunk) u = .next t' ∧
      t'.ciph = t.ciph ∧ t'.adapter = t.adapter ∧ t'.waiting = t.waiting ∧
      t.rsp = s.rsp ++ answer ∧ t'.rsp = u.rsp ++ answer ∧
      (answer ≠ [] → t'.ctx = t.ctx) ∧ (answer = [] → t.ctx = s.ctx ∧ t'.ctx = u.ctx)

/-- R262 cause 2, R83, R245: PROCESS whose `k`-th keystream request is answered not-ok reports `InvalidCipher` with no
data, whatever had been output, leaves FAULT, and sends nothing after that request; the same for the request of
AadClose. -/
def Obligations.ProcessCipherFailure : Prop :=
  (∀ (s : State) (dir : Direction) (chunk : List Byte) (k : Nat) (outs : List Block) (a a' : Adapter),
    s.ctx.life = .live → s.ctx.mode = .text → s.ctx.buflen ≤ 16 →
    k < (s.ctx.buflen.toNat + chunk.length - 1) / 16 →
    Adapter.encryptAll s.ctx.sched ((List.range k).map (ctrBlock s.ctx.Y)) s.adapter = some (outs, a) →
    a.encrypt s.ctx.sched (ctrBlock s.ctx.Y k) = (.notOk, a') →
    ∃ t, exec (.process dir chunk) s = .next t ∧ t.ctx.life = .fault ∧ t.rsp = s.rsp ++ [0x3C, 0, 0, 0, 0] ∧
      t.ciph = s.ciph ++ encryptTransactions s.ctx.sched ((List.range k).map (ctrBlock s.ctx.Y)) outs ++
        [.encrypt s.ctx.sched (ctrBlock s.ctx.Y k) .notOk] ∧
      t.adapter = a') ∧
  (∀ (s : State) (dir : Direction) (chunk : List Byte) (a : Adapter),
    s.ctx.life = .live → s.ctx.mode = .aad → s.ctx.buflen ≤ 16 →
    s.adapter.encrypt s.ctx.sched (inc32 s.ctx.Y) = (.notOk, a) →
    ∃ t, exec (.process dir chunk) s = .next t ∧ t.ctx.life = .fault ∧ t.rsp = s.rsp ++ [0x3C, 0, 0, 0, 0] ∧
      t.ciph = s.ciph ++ [.encrypt s.ctx.sched (inc32 s.ctx.Y) .notOk] ∧ t.adapter = a)

/-- R189, whole: PROCESS commands in direction Encrypt that map P to C, and PROCESS commands in direction Decrypt on
those outputs, from the same state: the second give P back, both leave the same context, and a FINISH after either
gives the same tag. -/
def Obligations.DirectionLaw : Prop :=
  ∀ (s t : State) (plain cipher : List (List Byte)),
    performAll (plain.map (.process .encrypt)) s = some (cipher, t) →
    ∃ t', performAll (cipher.map (.process .decrypt)) s = some (plain, t') ∧
      t'.ctx = t.ctx ∧ t'.adapter = t.adapter ∧ t'.ciph = t.ciph ∧
      ∀ tagLen, (perform (.finish tagLen) t').map Prod.fst = (perform (.finish tagLen) t).map Prod.fst

/-- R190, whole: after PROCESS commands, at least one, that succeeded from phase AAD, with C the ciphertext of the
payload: `buflen`, `pttotlen` and X are functions of C, H and the value of X when the phase began. -/
def Obligations.TextPhaseLaw : Prop :=
  ∀ (s t : State) (texts : List (Direction × List Byte)) (datas : List (List Byte)),
    ContextInv s → s.ctx.life = .live → s.ctx.mode = .aad → texts ≠ [] →
    performAll (texts.map fun c => .process c.1 c.2) s = some (datas, t) →
    let C := cipherBytes (payloadOf texts) datas.flatten
    let XA := if s.ctx.buflen = 0 then s.ctx.X else gfMult s.ctx.X s.ctx.H
    t.ctx.life = .live ∧ t.ctx.mode = .text ∧ C.length = (payloadOf texts).length ∧
      (C = [] → t.ctx.buflen = 0 ∧ t.ctx.pttotlen = 0 ∧ t.ctx.X = XA) ∧
      (C ≠ [] →
        t.ctx.buflen.toNat = (C.length - 1) % 16 + 1 ∧
        t.ctx.pttotlen = BitVec.ofNat 64 (128 * ((C.length - 1) / 16)) ∧
        t.ctx.X = ghashFrom s.ctx.H XA ((completeBlocks C).take ((C.length - 1) / 16)) ^^^
          blockOfBytes (C.drop (16 * ((C.length - 1) / 16))))

/-! ### FINISH (`45_finish.md`) -/

/-- R210, R211, R212, R214: FINISH in LIVE, TEXT, the adapter answering the ENCRYPT of the ORIGINAL counter, folds the
last 1 to 16 bytes and the length block, answers the first `min(16, requested)` bytes of mask xor X, sends that one
ENCRYPT and then one RELEASE, and writes of the whole machine `X`, `pttotlen` and `life` and the ports alone. -/
def Obligations.FinishAnswersTag : Prop :=
  ∀ (s : State) (tagLen : Byte) (mask : Block) (a : Adapter),
    s.ctx.life = .live → s.ctx.mode = .text → s.ctx.buflen ≤ 16 →
    s.adapter.encrypt s.ctx.sched s.ctx.Y0 = (.ok mask, a) →
    let pttotlen := s.ctx.pttotlen + 8 * s.ctx.buflen.setWidth 64
    let folded := if s.ctx.buflen = 0 then s.ctx.X else multH s.ctx s.ctx.X
    let X := multH s.ctx (folded ^^^ (s.ctx.totlen ++ pttotlen))
    exec (.finish tagLen) s = .next { s with
      ctx := { s.ctx with X := X, pttotlen := pttotlen, life := .final },
      adapter := a.release s.ctx.sched,
      ciph := s.ciph ++ [.encrypt s.ctx.sched s.ctx.Y0 (.ok mask), .release s.ctx.sched],
      rsp := s.rsp ++ [0x0A, 0, 0, 0, BitVec.ofNat 8 (min 16 tagLen.toNat)] ++
        (blockBytes (mask ^^^ X)).take (min 16 tagLen.toNat) }

/-- R210, R214, R262: FINISH whose ENCRYPT is answered not-ok returns no tag, sends no RELEASE and leaves FAULT. -/
def Obligations.FinishCipherFailure : Prop :=
  ∀ (s : State) (tagLen : Byte) (a : Adapter),
    s.ctx.life = .live → s.ctx.mode = .text → s.ctx.buflen ≤ 16 →
    s.adapter.encrypt s.ctx.sched s.ctx.Y0 = (.notOk, a) →
    ∃ t, exec (.finish tagLen) s = .next t ∧ t.ctx.life = .fault ∧ t.rsp = s.rsp ++ [0x3C, 0, 0, 0, 0] ∧
      t.ciph = s.ciph ++ [.encrypt s.ctx.sched s.ctx.Y0 .notOk] ∧ t.adapter = a

/-- R212: of two requests on the same session data the shorter tag is a prefix of the longer; a tag has
`min(16, requested)` bytes, and a request of 0 gives an empty one without an error. -/
def Obligations.ShorterTagIsPrefix : Prop :=
  ∀ (s t : State) (short long : Byte) (tag : List Byte), short ≤ long →
    perform (.finish long) s = some (tag, t) →
    tag.length = min 16 long.toNat ∧
    ∃ t', perform (.finish short) s = some (tag.take (min 16 short.toNat), t')

/-- R300, R51, R6 `RELEASE_INVALIDATES`: after a RELEASE an ENCRYPT with that handle is answered not-ok when RELEASE
invalidates, and as before when it does not; other handles are answered as before.  That a SETUP which makes the handle
again makes it live again is the model's (log entry 6). -/
def Obligations.ReleasedHandle : Prop :=
  ∀ (inval : Bool) (released : List Handle) (h : Handle) (B : Block),
    let before := Adapter.cipher inval released
    let after := before.release h
    (after.encrypt h B).1 = (if inval then .notOk else (before.encrypt h B).1) ∧
    (∀ h', h' ≠ h → (after.encrypt h' B).1 = (before.encrypt h' B).1) ∧
    (∀ blockLen, ((Adapter.cipher inval (releasedAfterSetup (h :: released) (some (h, blockLen)))).encrypt h B).1 =
      replyOf (Config.encrypt h B))

/-! ### ONE_SHOT (`46_one_shot.md`) -/

/-- R225, R213, R187, R192: ONE_SHOT in closed form, in every state.  The adapter answers SETUP with a handle and block
length 16, the zero block with H, the counter blocks with the keystream, and `Y_0` with the mask: the response is
OK, EMPTY with the payload under the keystream and then the tag; the CIPH traffic is the SETUP, those ENCRYPTs and
the RELEASE; the context is gone.  The 4-byte length is the number of data bytes below 2^32; from 2^32 on, where the
spec states none, `dlenField` is a free value and that such a ONE_SHOT answers OK with all its data is the model's
choice (log entry 3). -/
def Obligations.OneShotClosedForm : Prop :=
  ∀ (s : State) (dir : Direction) (tbl : Bool) (tagLen : Byte) (key iv aad payload : List Byte) (h : Handle)
    (H mask : Block) (keystream : List Block) (a1 a2 a3 a4 : Adapter),
    (tbl = true → s.hasTable = true) →
    s.adapter.setup key = (.ok (h, 16), a1) →
    a1.encrypt h 0 = (.ok H, a2) →
    Adapter.encryptAll h (counterBlocks (initialCounter H iv) payload.length) a2 = some (keystream, a3) →
    a3.encrypt h (initialCounter H iv) = (.ok mask, a4) →
    let out := xorKeystream keystream payload
    let cipher := match dir with | .encrypt => out | .decrypt => payload
    let tag := (blockBytes (closedTag H mask aad cipher)).take (min 16 tagLen.toNat)
    ∃ t, exec (.oneShot dir tbl tagLen key iv aad payload) s = .next t ∧
      t.rsp = s.rsp ++ 0x00 :: (be32 (dlenField (payload.length + min 16 tagLen.toNat)) ++ out ++ tag) ∧
      t.ciph = s.ciph ++ [.setup key (.ok (h, 16)), .encrypt h 0 (.ok H)] ++
        encryptTransactions h (counterBlocks (initialCounter H iv) payload.length) keystream ++
        [.encrypt h (initialCounter H iv) (.ok mask), .release h] ∧
      t.adapter = a4.release h ∧ t.ctx.life = .empty ∧ t.cmd = s.cmd ∧ t.hasTable = s.hasTable ∧
      t.waiting = s.waiting

/-- R226, whole: every ONE_SHOT that answers has sent as many RELEASEs as its SETUP made schedules, 0 or 1, the RELEASE
with the handle SETUP returned and last of all. -/
def Obligations.OneShotReleaseLaw : Prop :=
  ∀ (s t : State) (dir : Direction) (tbl : Bool) (tagLen : Byte) (key iv aad payload : List Byte),
    exec (.oneShot dir tbl tagLen key iv aad payload) s = .next t → t.rsp ≠ s.rsp →
    (t.ciph = s.ciph ++ [.setup key .notOk] ∨
      ∃ h blockLen between, t.ciph = s.ciph ++ .setup key (.ok (h, blockLen)) :: (between ++ [.release h]) ∧
        ∀ x, x ∈ between → ∃ B answer, x = .encrypt h B answer)

/-- R227, whole: when the streaming commands with the handle SETUP returned succeed, ONE_SHOT returns the data of their
PROCESS responses and then their tag, with the same ENCRYPT requests in the same order, whatever way the inputs are
cut. -/
def Obligations.OneShotEqualsStreaming : Prop :=
  ∀ (s u : State) (dir : Direction) (tbl : Bool) (tagLen : Byte) (key iv aad payload : List Byte) (h : Handle)
    (a : Adapter) (ivs aads pieces : List (List Byte)) (datas : List (List Byte)),
    s.adapter.setup key = (.ok (h, 16), a) → pieces ≠ [] →
    ivs.flatten = iv → aads.flatten = aad → pieces.flatten = payload →
    performAll (session (.init tbl 16 h) ivs aads (pieces.map fun c => (dir, c)) tagLen) { s with adapter := a } =
      some (datas, u) →
    ∃ t sent, perform (.oneShot dir tbl tagLen key iv aad payload) s = some (datas.flatten, t) ∧
      u.ciph = s.ciph ++ sent ∧ t.ciph = s.ciph ++ .setup key (.ok (h, 16)) :: sent ∧
      t.adapter = u.adapter ∧ t.ctx.life = .empty ∧ u.ctx.life = .final

/-- R225, R244, R262, R264: ONE_SHOT's errors, in the order they can arise: SETUP refused (`0x50`, no RELEASE), the
block length (`0x30`), the table memory (`0x40`), the ENCRYPT of the zero block (`0x30`), and then any one of the
keystream ENCRYPTs or that of `Y_0` (`0x30`, no data, whatever had been output), each with the owed RELEASE last; and
whatever happens, a ONE_SHOT that answers leaves EMPTY. -/
def Obligations.OneShotErrors : Prop :=
  ∀ (s : State) (dir : Direction) (tbl : Bool) (tagLen : Byte) (key iv aad payload : List Byte),
    let i := Instr.oneShot dir tbl tagLen key iv aad payload
    (∀ a, s.adapter.setup key = (.notOk, a) → ∃ t, exec i s = .next t ∧
      t.rsp = s.rsp ++ [0x50, 0, 0, 0, 0] ∧ t.ciph = s.ciph ++ [.setup key .notOk]) ∧
    (∀ h blockLen a, s.adapter.setup key = (.ok (h, blockLen), a) → blockLen ≠ 16 → ∃ t, exec i s = .next t ∧
      t.rsp = s.rsp ++ [0x30, 0, 0, 0, 0] ∧ t.ciph = s.ciph ++ [.setup key (.ok (h, blockLen)), .release h]) ∧
    (∀ h a, s.adapter.setup key = (.ok (h, 16), a) → tbl = true → s.hasTable = false → ∃ t, exec i s = .next t ∧
      t.rsp = s.rsp ++ [0x40, 0, 0, 0, 0] ∧ t.ciph = s.ciph ++ [.setup key (.ok (h, 16)), .release h]) ∧
    (∀ h a a', s.adapter.setup key = (.ok (h, 16), a) → (tbl = true → s.hasTable = true) →
      a.encrypt h 0 = (.notOk, a') → ∃ t, exec i s = .next t ∧ t.rsp = s.rsp ++ [0x30, 0, 0, 0, 0] ∧
      t.ciph = s.ciph ++ [.setup key (.ok (h, 16)), .encrypt h 0 .notOk, .release h]) ∧
    (∀ h H B front back keystream a1 a2 a3 a4, s.adapter.setup key = (.ok (h, 16), a1) →
      (tbl = true → s.hasTable = true) → a1.encrypt h 0 = (.ok H, a2) →
      counterBlocks (initialCounter H iv) payload.length ++ [initialCounter H iv] = front ++ B :: back →
      Adapter.encryptAll h front a2 = some (keystream, a3) → a3.encrypt h B = (.notOk, a4) →
      ∃ t, exec i s = .next t ∧ t.rsp = s.rsp ++ [0x30, 0, 0, 0, 0] ∧ t.adapter = a4.release h ∧
      t.ciph = s.ciph ++ [.setup key (.ok (h, 16)), .encrypt h 0 (.ok H)] ++
        encryptTransactions h front keystream ++ [.encrypt h B .notOk, .release h]) ∧
    (∀ t, exec i s = .next t → t.rsp ≠ s.rsp → t.ctx.life = .empty)

/-! ### The field multiplier (`41_field_multiplier.md`) -/

/-- R121, R123, R124: multiplication by x moves every field bit one place up and reduces x^128 to
`x^7 + x^2 + x + 1`. -/
def Obligations.MulXMovesFieldBits : Prop :=
  ∀ (V : Block) (i : Nat), i < 128 →
    (mulX V).getMsbD i =
      ((decide (0 < i) && V.getMsbD (i - 1)) ^^ (decide (i = 0 ∨ i = 1 ∨ i = 2 ∨ i = 7) && V.getMsbD 127))

/-- R126, but for its last law (no zero divisors): the product commutes, distributes over XOR, associates, and has the
unit and the zero of R121 and R122. -/
def Obligations.FieldProductLaws : Prop :=
  ∀ A B C : Block, gfMult A B = gfMult B A ∧ gfMult (A ^^^ B) C = gfMult A C ^^^ gfMult B C ∧
    gfMult (gfMult A B) C = gfMult A (gfMult B C) ∧ gfMult A fieldOne = A ∧ gfMult A 0 = 0

/-- R127, whole: `MulX8` byte by byte, and that it is `MulX` applied eight times. -/
def Obligations.MulX8IsEightMulX : Prop :=
  ∀ V : Block, mulX8 V = mulXTimes 8 V ∧
    blockByte (mulX8 V) 0 = (red (blockByte V 15)).extractLsb' 8 8 ∧
    blockByte (mulX8 V) 1 = blockByte V 0 ^^^ (red (blockByte V 15)).extractLsb' 0 8 ∧
    ∀ j, 2 ≤ j → j < 16 → blockByte (mulX8 V) j = blockByte V (j - 1)

/-- R128: the other fourteen bytes of `MulX` applied eight times to `00 .. 00 t` are zero, and `RED` is linear. -/
def Obligations.RedIsLinear : Prop :=
  (∀ t : Byte, mulXTimes 8 (t.setWidth 128) = (red t).setWidth 128 <<< 112) ∧
  (∀ a b : Byte, red (a ^^^ b) = red a ^^^ red b)

/-- R130, whole: after `TableGen` the entry `PC[i][v]`, read at its address of R41, is the product of `Unit(v, i)` by
H, for every i and v. -/
def Obligations.TableLaw : Prop :=
  ∀ (H : Block) (i : Nat) (v : Byte), i < 16 →
    memRead16 (tableGen H) (4096 * i + 16 * v.toNat) = gfMult (unit v i) H

/-- R131, R133: the two forms of the multiplier agree on every block, for every H. -/
def Obligations.MultiplierFormsAgree : Prop :=
  ∀ H V : Block, tblMult (tableGen H) V = gfMult V H

/-- R133's consequence, R104: two machines that differ in `tbl_sel` and the table alone answer every command alike, on
RSP and on CIPH, and still differ there alone. -/
def Obligations.MultiplierChoiceInvisible : Prop :=
  ∀ (i : Instr) (s s' t : State), ContextInv s → ContextInv s' → s.ctx.life.holds →
    sameButTable s.ctx s'.ctx → s' = { s with ctx := s'.ctx } → exec i s = .next t →
    ∃ t', exec i s' = .next t' ∧ t' = { t with ctx := t'.ctx } ∧ sameButTable t.ctx t'.ctx

/-! ### Invariants -/

/-- R280, R302: the invariants hold right after power-on reset, where `life` is EMPTY and nothing is on any port. -/
def Obligations.ResetMeetsTheInvariants : Prop :=
  ContextInv State.reset ∧ CounterInv State.reset ∧ SubkeyInv State.reset ∧ State.reset.ctx.life = .empty ∧
    State.reset.cmd = [] ∧ State.reset.rsp = [] ∧ State.reset.ciph = [] ∧ State.reset.waiting = false

/-- R280, R281: power-on reset in any state, in the middle of a command too, leaves `life` EMPTY, writes no response,
sends nothing on CIPH and drops the lost command's bytes; afterwards every data command and RESET answers
`InvalidState`, EMPTY.  That reset is a function of the state and of the number of lost bytes, and that CIPH then shows
none of the requests a command struck in its middle had sent, is the model's choice (log entry 11). -/
def Obligations.PowerOnReset : Prop :=
  ∀ (s : State) (lost : Nat),
    let p := s.powerOnReset lost
    p.ctx.life = .empty ∧ p.rsp = s.rsp ∧ p.ciph = s.ciph ∧ p.waiting = false ∧ p.cmd = s.cmd.drop lost ∧
      ContextInv p ∧ CounterInv p ∧
      ∀ i, isDataCommand i = true ∨ i = .reset → ∃ t, exec i p = .next t ∧ t.ctx.life = .empty ∧
        t.rsp = s.rsp ++ [0x10, 0, 0, 0, 0] ∧ t.ciph = s.ciph

/-- R16, R18, R19, R24, R41, R166 point 3: every step keeps `ContextInv`: the fill count's range, `Y[0..11] = Y_0[0..11]`, the
phase's zero registers, the table's canonical form, and the table being that of H. -/
def Obligations.StepKeepsContextInv : Prop :=
  ∀ s t : State, ContextInv s → step s = .next t → ContextInv t

/-- R24 item 7, R187: every step keeps the count of the counter: in phase TEXT `Y` is `Y_0` with its counter
field advanced by 1 and by the boundaries crossed. -/
def Obligations.StepKeepsCounterInv : Prop :=
  ∀ s t : State, CounterInv s → step s = .next t → CounterInv t

/-- R20, R21, R26: what a command may do to `life` and `mode`: within a session `mode` never goes backwards, and only
INIT, RESET, FINISH, ONE_SHOT and errors write `life`. -/
def Obligations.PhasesOnlyAdvance : Prop :=
  ∀ (i : Instr) (s t : State), isDataCommand i = true → exec i s = .next t → s.ctx.life.holds →
    t.ctx.life = .fault ∨
    (s.ctx.mode.code ≤ t.ctx.mode.code ∧
      (t.ctx.life = s.ctx.life ∨ (isFinish i = true ∧ s.ctx.life = .live ∧ t.ctx.life = .final ∧ t.ctx.mode = .text)))

/-! ### Sessions (`70_reset_and_hazards.md`) -/

/-- R213, R187, R192, R211: a whole session in closed form.  INIT, then ADD_IV, ADD_AAD and at least one PROCESS in any
chunks, each byte of payload in its own command's direction, then FINISH, the adapter answering the zero block with
H, the counter blocks with the keystream and `Y_0` with the mask: every command succeeds, the outputs are the payload
under the keystream, the tag is that of R213, and the CIPH traffic is exactly that of R192. -/
def Obligations.SessionClosedForm : Prop :=
  ∀ (s : State) (tbl : Bool) (sched : Handle) (ivs aads : List (List Byte)) (texts : List (Direction × List Byte))
    (tagLen : Byte) (H mask : Block) (keystream : List Block) (a1 a2 a3 : Adapter),
    (tbl = true → s.hasTable = true) → s.waiting = false → texts ≠ [] →
    s.adapter.encrypt sched 0 = (.ok H, a1) →
    Adapter.encryptAll sched (counterBlocks (initialCounter H ivs.flatten) (payloadOf texts).length) a1 =
      some (keystream, a2) →
    a2.encrypt sched (initialCounter H ivs.flatten) = (.ok mask, a3) →
    let out := xorKeystream keystream ((payloadOf texts).map Prod.snd)
    let tag := closedTag H mask aads.flatten (cipherBytes (payloadOf texts) out)
    ∃ datas t, performAll (session (.init tbl 16 sched) ivs aads texts tagLen) s = some (datas, t) ∧
      datas.flatten = out ++ (blockBytes tag).take (min 16 tagLen.toNat) ∧
      datas.getLast? = some ((blockBytes tag).take (min 16 tagLen.toNat)) ∧
      t.ciph = s.ciph ++ [.encrypt sched 0 (.ok H)] ++
        encryptTransactions sched (counterBlocks (initialCounter H ivs.flatten) (payloadOf texts).length) keystream ++
        [.encrypt sched (initialCounter H ivs.flatten) (.ok mask), .release sched] ∧
      t.adapter = a3.release sched ∧ t.ctx.life = .final

/-- R306, whole: two sessions from one state, by INIT or by RESET, whose IV, AAD and payload concatenate to the same
strings with the same direction for each byte: when the first succeeds so does the second, with equal outputs, tag,
CIPH transactions and final context. -/
def Obligations.StreamingEquivalence : Prop :=
  ∀ (s t : State) (opener : Instr) (ivs ivs' aads aads' : List (List Byte))
    (texts texts' : List (Direction × List Byte)) (tagLen : Byte) (datas : List (List Byte)),
    opensSession opener = true → texts ≠ [] → texts' ≠ [] →
    ivs.flatten = ivs'.flatten → aads.flatten = aads'.flatten → payloadOf texts = payloadOf texts' →
    performAll (session opener ivs aads texts tagLen) s = some (datas, t) →
    ∃ datas' t', performAll (session opener ivs' aads' texts' tagLen) s = some (datas', t') ∧
      datas'.dropLast.flatten = datas.dropLast.flatten ∧ datas'.getLast? = datas.getLast? ∧
      t'.ciph = t.ciph ∧ t'.ctx = t.ctx

/-- R305, whole: two sessions, each just opened by INIT or RESET, on the same handle with the same H, IV and AAD, in
any chunks and with either multiplier: when the first encrypts P to C with tag T, the second, decrypting C, succeeds,
outputs P and has tag T.  "The adapter answers equal requests equally" is `answerAlike` of the adapters the two start
with (and, of the two ENCRYPTs of the zero block, the equal H): so the second session may run after the first has
released the handle, where RELEASE does not invalidate. -/
def Obligations.RoundTrip : Prop :=
  ∀ (s s' t : State) (ivs ivs' aads aads' plain cipher' : List (List Byte)) (tagLen : Byte) (datas : List (List Byte)),
    ContextInv s → atSessionStart s.ctx → ContextInv s' → atSessionStart s'.ctx → s'.waiting = false →
    s'.ctx.sched = s.ctx.sched → s'.ctx.H = s.ctx.H → s.adapter.answerAlike s.ctx.sched s'.adapter →
    plain ≠ [] → cipher' ≠ [] → ivs.flatten = ivs'.flatten → aads.flatten = aads'.flatten →
    performAll (sessionBody ivs aads (plain.map fun c => (.encrypt, c)) tagLen) s = some (datas, t) →
    cipher'.flatten = datas.dropLast.flatten →
    ∃ datas' t', performAll (sessionBody ivs' aads' (cipher'.map fun c => (.decrypt, c)) tagLen) s' = some (datas', t') ∧
      datas'.dropLast.flatten = plain.flatten ∧ datas'.getLast? = datas.getLast?

/-- R307's last sentence, R100 corner case e: with H = 0 the tag of a session is the encryption of `Y_0` whatever the
data. -/
def Obligations.ZeroSubkeyTag : Prop :=
  ∀ (mask : Block) (aad cipher : List Byte), closedTag 0 mask aad cipher = mask

end
end

