-- ==== Sys2Proof/Laws/Adapter.lean ====
section
/-! SUPPORT. When two adapters answer ENCRYPT requests alike (R305): what the ENCRYPT answers do not depend on. -/

namespace Sys2Proof.Machine

/-- The answers to several requests are the first one's and then the others'. -/
theorem map_fst_cons_answer (out : Block) (r : Option (List Block × Adapter)) :
    (r.map fun (outs, a) => (out :: outs, a)).map Prod.fst = (r.map Prod.fst).map (out :: ·) := by cases r <;> rfl

theorem Adapter.answerAlike_refl (h : Handle) (a : Adapter) : a.answerAlike h a := fun _ => rfl

/-- Where RELEASE does not invalidate, the released handles make no difference to an ENCRYPT (R6, R300). -/
theorem Adapter.answerAlike_released (h : Handle) (released released' : List Handle) :
    (Adapter.cipher false released).answerAlike h (.cipher false released') := by
  intro Bs
  induction Bs with
  | nil => rfl
  | cons B Bs ih =>
    simp only [Adapter.encryptAll, Adapter.encrypt, Bool.false_and, Bool.false_eq_true, if_false]
    cases Config.encrypt h B with
    | none => rfl
    | some out =>
      exact (map_fst_cons_answer out _).trans ((congrArg _ ih).trans (map_fst_cons_answer out _).symm)

/-- A scripted adapter's ENCRYPT answers are its first script alone. -/
theorem Adapter.answerAlike_scripted (h : Handle) (es : List (Option Block)) (ss ss' : List (Option (Handle × Byte))) :
    (Adapter.scripted es ss).answerAlike h (.scripted es ss') := by
  intro Bs
  induction Bs generalizing es with
  | nil => rfl
  | cons B Bs ih =>
    cases es with
    | nil => rfl
    | cons e es =>
      cases e with
      | none => rfl
      | some out =>
        exact (map_fst_cons_answer out _).trans ((congrArg _ (ih es)).trans (map_fst_cons_answer out _).symm)

/-- A RELEASE that does not invalidate changes no ENCRYPT answer: the case of a second session after FINISH (R300). -/
theorem Adapter.answerAlike_release (h h' : Handle) (released : List Handle) :
    (Adapter.cipher false released).answerAlike h ((Adapter.cipher false released).release h') :=
  Adapter.answerAlike_released h _ _

end Sys2Proof.Machine
end

