-- ==== Sys2Proof/Laws/Memory.lean ====
section
/-! SUPPORT. The laws of the table memory: reading after a write, and the canonical form that every memory
operation keeps.  Equal memories in canonical form are equal data (`Memory.ext_of_wf`). -/

namespace Sys2Proof.Machine

@[simp] theorem Memory.read_nil (k : Nat) : Memory.read [] k = Memory.unlisted := rfl

@[simp] theorem Memory.read_cons (a k : Nat) (b : Byte) (m : Memory) :
    Memory.read ((a, b) :: m) k = if a = k then b else Memory.read m k := rfl

@[simp] theorem Memory.wf_nil : Memory.wf [] := by simp [Memory.wf]

/-- Every cell of `m` lies at `k` or above. -/
abbrev Memory.startsFrom (k : Nat) (m : Memory) : Prop := ∀ c ∈ m, k ≤ c.1

/-- The canonical form of a nonempty memory, cell by cell. -/
theorem Memory.wf_cons (a : Nat) (b : Byte) (m : Memory) :
    Memory.wf ((a, b) :: m) ↔
      Memory.startsFrom (a + 1) m ∧ b ≠ Memory.unlisted ∧ a < 65536 ∧ Memory.wf m := by
  simp only [Memory.wf, Memory.startsFrom, List.pairwise_cons, List.mem_cons, forall_eq_or_imp, Nat.succ_le_iff]
  tauto

/-- An address below every cell reads as unlisted. -/
theorem Memory.read_of_startsFrom {k j : Nat} {m : Memory} (h : Memory.startsFrom k m) (hj : j < k) :
    m.read j = Memory.unlisted := by
  induction m with
  | nil => rfl
  | cons c m ih =>
    have hc := h c List.mem_cons_self
    have hne : c.1 ≠ j := by omega
    rw [Memory.read_cons, if_neg hne]
    exact ih fun d hd => h d (List.mem_cons_of_mem _ hd)

theorem Memory.read_put_self {k : Nat} {v : Byte} {m : Memory} (h : Memory.startsFrom (k + 1) m) :
    (Memory.put k v m).read k = v := by
  unfold Memory.put
  split
  · rename_i hv
    rw [hv]
    exact Memory.read_of_startsFrom h (Nat.lt_succ_self k)
  · simp

theorem Memory.read_put_other {k j : Nat} (v : Byte) (m : Memory) (h : j ≠ k) :
    (Memory.put k v m).read j = m.read j := by
  unfold Memory.put
  split
  · rfl
  · simp [Ne.symm h]

/-- Putting a cell in front keeps the form when it lies below every other. -/
theorem Memory.wf_put {k : Nat} {v : Byte} {m : Memory} (hk : k < 65536)
    (hs : Memory.startsFrom (k + 1) m) (h : m.wf) : (Memory.put k v m).wf := by
  unfold Memory.put
  split
  · exact h
  · rename_i hv
    exact (Memory.wf_cons k v m).2 ⟨hs, hv, hk, h⟩

theorem Memory.startsFrom_put {k j : Nat} {v : Byte} {m : Memory} (hj : j ≤ k)
    (h : Memory.startsFrom j m) : Memory.startsFrom j (Memory.put k v m) := by
  unfold Memory.put
  split
  · exact h
  · intro c hc
    rcases List.mem_cons.1 hc with rfl | hc
    · exact hj
    · exact h c hc

theorem Memory.startsFrom_mono {j k : Nat} {m : Memory} (hjk : j ≤ k) (h : Memory.startsFrom k m) :
    Memory.startsFrom j m := fun c hc => hjk.trans (h c hc)

/-- A write adds no cell below both its address and the cells there were. -/
theorem Memory.startsFrom_write {k j : Nat} {v : Byte} {m : Memory} (hj : j ≤ k)
    (h : Memory.startsFrom j m) : Memory.startsFrom j (m.write k v) := by
  induction m with
  | nil => exact Memory.startsFrom_put hj h
  | cons c m ih =>
    have htail : Memory.startsFrom j m := fun d hd => h d (List.mem_cons_of_mem _ hd)
    unfold Memory.write
    split
    · exact Memory.startsFrom_put hj h
    · split
      · exact Memory.startsFrom_put hj htail
      · intro d hd
        rcases List.mem_cons.1 hd with rfl | hd
        · exact h _ List.mem_cons_self
        · exact ih htail d hd

/-- A write keeps the canonical form. -/
theorem Memory.wf_write {k : Nat} (v : Byte) {m : Memory} (hk : k < 65536) (h : m.wf) : (m.write k v).wf := by
  induction m with
  | nil => exact Memory.wf_put hk (by simp [Memory.startsFrom]) h
  | cons c m ih =>
    obtain ⟨a, b⟩ := c
    obtain ⟨hs, hb, ha, hm⟩ := (Memory.wf_cons a b m).1 h
    unfold Memory.write
    split
    · rename_i hka
      refine Memory.wf_put hk ?_ h
      intro d hd
      rcases List.mem_cons.1 hd with rfl | hd
      · exact hka
      · have := hs d hd; omega
    · split
      · rename_i _ hka
        subst hka
        exact Memory.wf_put hk hs hm
      · rename_i h1 h2
        exact (Memory.wf_cons a b _).2 ⟨Memory.startsFrom_write (by omega) hs, hb, ha, ih hm⟩

/-- Reading the address just written gives the value written. -/
theorem Memory.read_write_self {k : Nat} (v : Byte) {m : Memory} (h : m.wf) : (m.write k v).read k = v := by
  induction m with
  | nil => exact Memory.read_put_self (by simp [Memory.startsFrom])
  | cons c m ih =>
    obtain ⟨a, b⟩ := c
    obtain ⟨hs, hb, ha, hm⟩ := (Memory.wf_cons a b m).1 h
    unfold Memory.write
    split
    · rename_i hka
      refine Memory.read_put_self fun d hd => ?_
      rcases List.mem_cons.1 hd with rfl | hd
      · exact hka
      · have := hs d hd; omega
    · split
      · rename_i _ hka
        subst hka
        exact Memory.read_put_self hs
      · rename_i h1 h2
        rw [Memory.read_cons, if_neg (Ne.symm h2)]
        exact ih hm

/-- Reading any other address gives what it gave. -/
theorem Memory.read_write_other {k j : Nat} (v : Byte) (m : Memory) (h : j ≠ k) :
    (m.write k v).read j = m.read j := by
  induction m with
  | nil => exact Memory.read_put_other v [] h
  | cons c m ih =>
    obtain ⟨a, b⟩ := c
    unfold Memory.write
    split
    · exact Memory.read_put_other v _ h
    · split
      · rename_i _ hka
        subst hka
        rw [Memory.read_put_other v _ h, Memory.read_cons, if_neg (Ne.symm h)]
      · simp only [Memory.read_cons, ih]

/-- Two memories in canonical form that read alike everywhere are the same data. -/
theorem Memory.ext_of_wf {m n : Memory} (hm : m.wf) (hn : n.wf) (h : ∀ k, m.read k = n.read k) : m = n := by
  induction m generalizing n with
  | nil =>
    cases n with
    | nil => rfl
    | cons c n =>
      obtain ⟨hs, hb, -, -⟩ := (Memory.wf_cons c.1 c.2 n).1 hn
      have := h c.1
      rw [Memory.read_nil, Memory.read_cons, if_pos rfl] at this
      exact absurd this.symm hb
  | cons c m ih =>
    obtain ⟨a, b⟩ := c
    obtain ⟨hs, hb, -, hm'⟩ := (Memory.wf_cons a b m).1 hm
    cases n with
    | nil =>
      have := h a
      simp only [Memory.read_nil, Memory.read_cons, if_true] at this
      exact absurd this hb
    | cons d n =>
      obtain ⟨a', b'⟩ := d
      obtain ⟨hs', hb', -, hn'⟩ := (Memory.wf_cons a' b' n).1 hn
      have haa : a = a' := by
        rcases Nat.lt_trichotomy a a' with hlt | heq | hgt
        · have := h a
          rw [Memory.read_cons, if_pos rfl, Memory.read_cons, if_neg (by omega),
            Memory.read_of_startsFrom hs' (by omega)] at this
          exact absurd this hb
        · exact heq
        · have := h a'
          rw [Memory.read_cons, if_neg (by omega), Memory.read_of_startsFrom hs (by omega),
            Memory.read_cons, if_pos rfl] at this
          exact absurd this.symm hb'
      subst haa
      have hbb : b = b' := by simpa using h a
      subst hbb
      have hmn : m = n := by
        refine ih hm' hn' fun k => ?_
        by_cases hk : a = k
        · subst hk
          rw [Memory.read_of_startsFrom hs (by omega), Memory.read_of_startsFrom hs' (by omega)]
        · simpa [hk] using h k
      rw [hmn]

/-- `MemWrite` keeps the canonical form at every address of the table (R41, R42). -/
theorem wf_memWrite16 {m : Memory} (h : m.wf) {a : Nat} (ha : a + 16 ≤ 65536) (v : Block) :
    (memWrite16 m a v).wf := by
  unfold memWrite16
  have key : ∀ zs : List Nat, (∀ z ∈ zs, z < 16) → ∀ m : Memory, m.wf →
      (zs.foldl (fun m z => m.write (a + z) (blockByte v z)) m).wf := by
    intro zs
    induction zs with
    | nil => exact fun _ m hm => hm
    | cons z zs ih =>
      intro hz m hm
      refine ih (fun y hy => hz y (List.mem_cons_of_mem _ hy)) _ (Memory.wf_write _ ?_ hm)
      have := hz z List.mem_cons_self
      omega
  exact key _ (fun z hz => List.mem_range.1 hz) m h

/-- `MemWrite` at `a` leaves every byte outside `a .. a+15` as it was. -/
theorem read_memWrite16_other (m : Memory) (a : Nat) (v : Block) {j : Nat} (hj : j < a ∨ a + 16 ≤ j) :
    (memWrite16 m a v).read j = m.read j := by
  unfold memWrite16
  have key : ∀ zs : List Nat, (∀ z ∈ zs, z < 16) → ∀ m : Memory,
      (zs.foldl (fun m z => m.write (a + z) (blockByte v z)) m).read j = m.read j := by
    intro zs
    induction zs with
    | nil => exact fun _ m => rfl
    | cons z zs ih =>
      intro hz m
      have := hz z List.mem_cons_self
      rw [List.foldl_cons, ih (fun y hy => hz y (List.mem_cons_of_mem _ hy)),
        Memory.read_write_other _ _ (by omega)]
  exact key _ (fun z hz => List.mem_range.1 hz) m

/-- `MemWrite` at `a` puts byte `z` of the value at `a + z`. -/
theorem read_memWrite16_self {m : Memory} (h : m.wf) {a : Nat} (ha : a + 16 ≤ 65536) (v : Block) {z : Nat}
    (hz : z < 16) : (memWrite16 m a v).read (a + z) = blockByte v z := by
  unfold memWrite16
  have key : ∀ zs : List Nat, zs.Nodup → (∀ y ∈ zs, y < 16) → z ∈ zs → ∀ m : Memory, m.wf →
      (zs.foldl (fun m z => m.write (a + z) (blockByte v z)) m).read (a + z) = blockByte v z := by
    intro zs
    induction zs with
    | nil => intro _ _ hmem; exact absurd hmem List.not_mem_nil
    | cons y ys ih =>
      intro hnd hlt hmem m hm
      have hnd' := List.nodup_cons.1 hnd
      have hy := hlt y List.mem_cons_self
      have hlt' : ∀ x ∈ ys, x < 16 := fun x hx => hlt x (List.mem_cons_of_mem _ hx)
      have hm' : (m.write (a + y) (blockByte v y)).wf := Memory.wf_write _ (by omega) hm
      rw [List.foldl_cons]
      by_cases hzy : z ∈ ys
      · exact ih hnd'.2 hlt' hzy _ hm'
      · have hz' : z = y := by
          rcases List.mem_cons.1 hmem with h | h
          · exact h
          · exact absurd h hzy
        subst hz'
        have rest : ∀ (xs : List Nat), z ∉ xs → ∀ m : Memory,
            (xs.foldl (fun m z => m.write (a + z) (blockByte v z)) m).read (a + z) = m.read (a + z) := by
          intro xs
          induction xs with
          | nil => exact fun _ m => rfl
          | cons x xs ihx =>
            intro hx m
            have hxz : z ≠ x := fun e => hx (e ▸ List.mem_cons_self)
            rw [List.foldl_cons, ihx (fun e => hx (List.mem_cons_of_mem _ e)),
              Memory.read_write_other _ _ (by omega)]
        rw [rest ys hzy, Memory.read_write_self _ hm]
  exact key _ List.nodup_range (fun y hy => List.mem_range.1 hy) (List.mem_range.2 hz) m h

end Sys2Proof.Machine
end

