-- ==== Sys2Proof/Laws/Block.lean ====
section
/-! SUPPORT. The laws of the byte accessors of a block, bit by bit from the most significant end (field bits, R7). -/

namespace Sys2Proof.Machine

/-- Two blocks with the same field bits are equal. -/
theorem block_ext {A B : Block} (h : ∀ i, i < 128 → A.getMsbD i = B.getMsbD i) : A = B :=
  BitVec.eq_of_getMsbD_eq fun i hi => h i hi

/-- Two bytes with the same bits, most significant first, are equal. -/
theorem byte_ext {a b : Byte} (h : ∀ k, k < 8 → a.getMsbD k = b.getMsbD k) : a = b :=
  BitVec.eq_of_getMsbD_eq fun k hk => h k hk

/-- Field bit `i` of `Unit(v, j)` is bit `i - 8 j` of `v` inside byte `j` and 0 elsewhere. -/
theorem getMsbD_unit (v : Byte) (j i : Nat) (hi : i < 128) :
    (unit v j).getMsbD i = (decide (8 * j ≤ i ∧ i < 8 * j + 8) && v.getMsbD (i - 8 * j)) := by
  unfold unit
  rw [BitVec.getMsbD_ushiftRight, BitVec.getMsbD_shiftLeft, BitVec.getMsbD_setWidth]
  by_cases h1 : i < 8 * j
  · simp [h1, Nat.not_le.2 h1]
  · by_cases h2 : i < 8 * j + 8
    · simp [h1, h2, hi, Nat.not_lt.1 h1]
    · simp only [h1, h2, decide_false, Bool.not_false, and_false, Bool.false_and, Bool.and_false,
        BitVec.getMsbD_of_ge v (i - 8 * j + 120 + 8 - 128) (by omega)]

/-- Bit `k` of byte `j` of a block is its field bit `8 j + k`. -/
theorem getMsbD_blockByte (B : Block) (j k : Nat) (hk : k < 8) :
    (blockByte B j).getMsbD k = B.getMsbD (8 * j + k) := by
  unfold blockByte
  rw [BitVec.getMsbD_setWidth, BitVec.getMsbD_ushiftRight, BitVec.getMsbD_shiftLeft]
  have e : k + 128 - 8 = 120 + k := by omega
  simp [e, Nat.add_comm]
  intros
  omega

/-- A block byte by byte: two blocks whose sixteen bytes agree are equal. -/
theorem block_ext_bytes {A B : Block} (h : ∀ j, j < 16 → blockByte A j = blockByte B j) : A = B := by
  refine block_ext fun i hi => ?_
  have hb := congrArg (fun b : Byte => b.getMsbD (i % 8)) (h (i / 8) (by omega))
  simp only [getMsbD_blockByte _ _ _ (Nat.mod_lt i (by decide)), Nat.div_add_mod] at hb
  exact hb

/-- Byte `k` of `Unit(v, j)`. -/
theorem blockByte_unit (v : Byte) (j k : Nat) (hk : k < 16) :
    blockByte (unit v j) k = if k = j then v else 0 := by
  refine byte_ext fun i hi => ?_
  rw [getMsbD_blockByte _ _ _ hi, getMsbD_unit _ _ _ (by omega)]
  split
  · rename_i h
    subst h
    simp [hi]
  · rename_i h
    have : ¬ (8 * j ≤ 8 * k + i ∧ 8 * k + i < 8 * j + 8) := by omega
    simp [this]

@[simp] theorem blockByte_xor (A B : Block) (k : Nat) : blockByte (A ^^^ B) k = blockByte A k ^^^ blockByte B k := by
  refine byte_ext fun i hi => ?_
  simp only [getMsbD_blockByte _ _ _ hi, BitVec.getMsbD_xor]

@[simp] theorem blockByte_or (A B : Block) (k : Nat) : blockByte (A ||| B) k = blockByte A k ||| blockByte B k := by
  refine byte_ext fun i hi => ?_
  simp only [getMsbD_blockByte _ _ _ hi, BitVec.getMsbD_or]

@[simp] theorem blockByte_zero (k : Nat) : blockByte 0 k = 0 := by
  refine byte_ext fun i hi => ?_
  simp [getMsbD_blockByte _ _ _ hi]

/-- `B[j] <- B[j] xor v` changes byte `j` and no other (R8). -/
theorem blockByte_xorBlockByte (B : Block) (j k : Nat) (v : Byte) (hk : k < 16) :
    blockByte (xorBlockByte B j v) k = if k = j then blockByte B k ^^^ v else blockByte B k := by
  unfold xorBlockByte
  rw [blockByte_xor, blockByte_unit _ _ _ hk]
  split <;> simp

/-- `B[j] <- v` writes byte `j` and keeps every other (R8). -/
theorem blockByte_setBlockByte (B : Block) (j k : Nat) (v : Byte) (hk : k < 16) :
    blockByte (setBlockByte B j v) k = if k = j then v else blockByte B k := by
  refine byte_ext fun i hi => ?_
  unfold setBlockByte
  rw [getMsbD_blockByte _ _ _ hi, BitVec.getMsbD_or, BitVec.getMsbD_and, BitVec.getMsbD_not,
    getMsbD_unit _ _ _ (by omega), getMsbD_unit _ _ _ (by omega)]
  by_cases h : k = j
  · subst h
    have ones : (255#8).getMsbD i = true := by interval_cases i <;> rfl
    simp [hi, ones]
  · have : ¬ (8 * j ≤ 8 * k + i ∧ 8 * k + i < 8 * j + 8) := by omega
    simp only [this, h, if_false, decide_false, Bool.false_and, Bool.or_false, Bool.not_false, Bool.and_true,
      getMsbD_blockByte _ _ _ hi]
    have hlt : 8 * k + i < 128 := by omega
    simp [hlt]

/-- The first `n` bytes are kept and the others are 0 (R166). -/
theorem blockByte_firstBytes (B : Block) (n k : Nat) (hk : k < 16) :
    blockByte (firstBytes B n) k = if k < n then blockByte B k else 0 := by
  refine byte_ext fun i hi => ?_
  unfold firstBytes
  rw [getMsbD_blockByte _ _ _ hi, BitVec.getMsbD_and, BitVec.getMsbD_not, BitVec.getMsbD_ushiftRight,
    BitVec.getMsbD_allOnes]
  have hlt : 8 * k + i < 128 := by omega
  by_cases h : k < n
  · have h' : 8 * k + i < 8 * n := by omega
    simp [h, h', hlt, getMsbD_blockByte _ _ _ hi]
  · have h' : ¬ 8 * k + i < 8 * n := by omega
    have h'' : 8 * k + i - 8 * n < 128 := by omega
    simp [h, h', hlt, h'']

/-- The bytes OR-ed in by `MemRead`, one by one. -/
theorem blockByte_foldl_unit (f : Nat → Byte) (zs : List Nat) (hnd : zs.Nodup) (B : Block) {k : Nat} (hk : k < 16)
    (hB : k ∈ zs → blockByte B k = 0) :
    blockByte (zs.foldl (fun B z => B ||| unit (f z) z) B) k = if k ∈ zs then f k else blockByte B k := by
  induction zs generalizing B with
  | nil => simp
  | cons z zs ih =>
    obtain ⟨hz, hnd'⟩ := List.nodup_cons.1 hnd
    rw [List.foldl_cons, ih hnd']
    · by_cases hkz : k = z
      · subst hkz
        simp [hz, blockByte_unit _ _ _ hk, hB List.mem_cons_self]
      · simp [hkz, blockByte_unit _ _ _ hk]
    · intro hkz
      have hne : k ≠ z := fun e => hz (e ▸ hkz)
      simp [blockByte_unit _ _ _ hk, hne, hB (List.mem_cons_of_mem _ hkz)]

/-- `MemRead` reads the sixteen bytes at its address, in order (R42). -/
theorem blockByte_memRead16 (m : Memory) (a : Nat) {k : Nat} (hk : k < 16) :
    blockByte (memRead16 m a) k = m.read (a + k) := by
  unfold memRead16
  rw [blockByte_foldl_unit (fun z => m.read (a + z)) _ List.nodup_range 0 hk (fun _ => blockByte_zero k)]
  simp [hk]

/-- A table entry read back is the entry written (R42: "a read returns the last value written to that entry"). -/
theorem memRead16_memWrite16_self {m : Memory} (hm : m.wf) {a : Nat} (ha : a + 16 ≤ 65536) (v : Block) :
    memRead16 (memWrite16 m a v) a = v :=
  block_ext_bytes fun j hj => by rw [blockByte_memRead16 _ _ hj, read_memWrite16_self hm ha v hj]

/-- A write to one entry leaves every entry that does not overlap it as it was (R42). -/
theorem memRead16_memWrite16_other (m : Memory) {a b : Nat} (v : Block) (h : b + 16 ≤ a ∨ a + 16 ≤ b) :
    memRead16 (memWrite16 m a v) b = memRead16 m b :=
  block_ext_bytes fun j hj => by
    rw [blockByte_memRead16 _ _ hj, blockByte_memRead16 _ _ hj, read_memWrite16_other _ _ _ (by omega)]

/-- `MemRead` depends on the sixteen bytes it reads alone. -/
theorem memRead16_congr {m n : Memory} {a : Nat} (h : ∀ z, z < 16 → m.read (a + z) = n.read (a + z)) :
    memRead16 m a = memRead16 n a :=
  block_ext_bytes fun j hj => by rw [blockByte_memRead16 _ _ hj, blockByte_memRead16 _ _ hj, h j hj]

end Sys2Proof.Machine
end

