-- ==== Sys2Proof/Laws/State.lean ====
section
/-! SUPPORT. One lemma per field per update of `State` and `Context`, each true by definition (after the case split
of an update that tests something), so that no later proof unfolds a record update. -/

namespace Sys2Proof.Machine

/-! ### One CIPH transaction recorded (R302). -/

@[simp] theorem State.transact_ctx (s : State) (t : Transaction) (a : Adapter) : (s.transact t a).ctx = s.ctx := rfl
@[simp] theorem State.transact_hasTable (s : State) (t : Transaction) (a : Adapter) :
    (s.transact t a).hasTable = s.hasTable := rfl
@[simp] theorem State.transact_adapter (s : State) (t : Transaction) (a : Adapter) :
    (s.transact t a).adapter = a := rfl
@[simp] theorem State.transact_ciph (s : State) (t : Transaction) (a : Adapter) :
    (s.transact t a).ciph = s.ciph ++ [t] := rfl
@[simp] theorem State.transact_cmd (s : State) (t : Transaction) (a : Adapter) : (s.transact t a).cmd = s.cmd := rfl
@[simp] theorem State.transact_rsp (s : State) (t : Transaction) (a : Adapter) : (s.transact t a).rsp = s.rsp := rfl
@[simp] theorem State.transact_waiting (s : State) (t : Transaction) (a : Adapter) :
    (s.transact t a).waiting = s.waiting := rfl
@[simp] theorem State.transact_freeIndex (s : State) (t : Transaction) (a : Adapter) :
    (s.transact t a).freeIndex = s.freeIndex := rfl

/-! ### The context replaced. -/

@[simp] theorem State.setCtx_ctx (s : State) (c : Context) : (s.setCtx c).ctx = c := rfl
@[simp] theorem State.setCtx_hasTable (s : State) (c : Context) : (s.setCtx c).hasTable = s.hasTable := rfl
@[simp] theorem State.setCtx_adapter (s : State) (c : Context) : (s.setCtx c).adapter = s.adapter := rfl
@[simp] theorem State.setCtx_ciph (s : State) (c : Context) : (s.setCtx c).ciph = s.ciph := rfl
@[simp] theorem State.setCtx_cmd (s : State) (c : Context) : (s.setCtx c).cmd = s.cmd := rfl
@[simp] theorem State.setCtx_rsp (s : State) (c : Context) : (s.setCtx c).rsp = s.rsp := rfl
@[simp] theorem State.setCtx_waiting (s : State) (c : Context) : (s.setCtx c).waiting = s.waiting := rfl
@[simp] theorem State.setCtx_freeIndex (s : State) (c : Context) : (s.setCtx c).freeIndex = s.freeIndex := rfl

/-! ### `life` written. -/

@[simp] theorem State.setLife_ctx (s : State) (l : Life) : (s.setLife l).ctx = { s.ctx with life := l } := rfl
@[simp] theorem State.setLife_hasTable (s : State) (l : Life) : (s.setLife l).hasTable = s.hasTable := rfl
@[simp] theorem State.setLife_adapter (s : State) (l : Life) : (s.setLife l).adapter = s.adapter := rfl
@[simp] theorem State.setLife_ciph (s : State) (l : Life) : (s.setLife l).ciph = s.ciph := rfl
@[simp] theorem State.setLife_cmd (s : State) (l : Life) : (s.setLife l).cmd = s.cmd := rfl
@[simp] theorem State.setLife_rsp (s : State) (l : Life) : (s.setLife l).rsp = s.rsp := rfl
@[simp] theorem State.setLife_waiting (s : State) (l : Life) : (s.setLife l).waiting = s.waiting := rfl
@[simp] theorem State.setLife_freeIndex (s : State) (l : Life) : (s.setLife l).freeIndex = s.freeIndex := rfl

/-! ### A response written (R83). -/

@[simp] theorem State.respond_ctx (s : State) (code : BitVec 4) (data : List Byte) :
    (s.respond code data).ctx = s.ctx := rfl
@[simp] theorem State.respond_hasTable (s : State) (code : BitVec 4) (data : List Byte) :
    (s.respond code data).hasTable = s.hasTable := rfl
@[simp] theorem State.respond_adapter (s : State) (code : BitVec 4) (data : List Byte) :
    (s.respond code data).adapter = s.adapter := rfl
@[simp] theorem State.respond_ciph (s : State) (code : BitVec 4) (data : List Byte) :
    (s.respond code data).ciph = s.ciph := rfl
@[simp] theorem State.respond_cmd (s : State) (code : BitVec 4) (data : List Byte) :
    (s.respond code data).cmd = s.cmd := rfl
@[simp] theorem State.respond_rsp (s : State) (code : BitVec 4) (data : List Byte) :
    (s.respond code data).rsp = s.rsp ++ response code s.ctx data := rfl
@[simp] theorem State.respond_waiting (s : State) (code : BitVec 4) (data : List Byte) :
    (s.respond code data).waiting = s.waiting := rfl
@[simp] theorem State.respond_freeIndex (s : State) (code : BitVec 4) (data : List Byte) :
    (s.respond code data).freeIndex = s.freeIndex := rfl

/-! ### The context lost (R31). -/

@[simp] theorem State.loseContext_ctx (s : State) (l : Life) :
    (s.loseContext l).ctx = { Config.noValue s.freeIndex with life := l, table := [] } := rfl
@[simp] theorem State.loseContext_hasTable (s : State) (l : Life) : (s.loseContext l).hasTable = s.hasTable := rfl
@[simp] theorem State.loseContext_adapter (s : State) (l : Life) : (s.loseContext l).adapter = s.adapter := rfl
@[simp] theorem State.loseContext_ciph (s : State) (l : Life) : (s.loseContext l).ciph = s.ciph := rfl
@[simp] theorem State.loseContext_cmd (s : State) (l : Life) : (s.loseContext l).cmd = s.cmd := rfl
@[simp] theorem State.loseContext_rsp (s : State) (l : Life) : (s.loseContext l).rsp = s.rsp := rfl
@[simp] theorem State.loseContext_waiting (s : State) (l : Life) : (s.loseContext l).waiting = s.waiting := rfl
@[simp] theorem State.loseContext_freeIndex (s : State) (l : Life) :
    (s.loseContext l).freeIndex = s.freeIndex + 1 := rfl

/-! ### The error entry (R245). -/

@[simp] theorem State.takeError_ctx (s : State) (creates : Bool) (k : ErrorKind) :
    (s.takeError creates k).ctx = { Config.noValue s.freeIndex with life := lifeAfterError creates s.ctx.life, table := [] } := rfl
@[simp] theorem State.takeError_hasTable (s : State) (creates : Bool) (k : ErrorKind) :
    (s.takeError creates k).hasTable = s.hasTable := rfl
@[simp] theorem State.takeError_adapter (s : State) (creates : Bool) (k : ErrorKind) :
    (s.takeError creates k).adapter = s.adapter := rfl
@[simp] theorem State.takeError_ciph (s : State) (creates : Bool) (k : ErrorKind) :
    (s.takeError creates k).ciph = s.ciph := rfl
@[simp] theorem State.takeError_cmd (s : State) (creates : Bool) (k : ErrorKind) :
    (s.takeError creates k).cmd = s.cmd := rfl
@[simp] theorem State.takeError_rsp (s : State) (creates : Bool) (k : ErrorKind) :
    (s.takeError creates k).rsp = s.rsp ++ response k.code (s.takeError creates k).ctx [] := rfl
@[simp] theorem State.takeError_waiting (s : State) (creates : Bool) (k : ErrorKind) :
    (s.takeError creates k).waiting = s.waiting := rfl
@[simp] theorem State.takeError_freeIndex (s : State) (creates : Bool) (k : ErrorKind) :
    (s.takeError creates k).freeIndex = s.freeIndex + 1 := rfl

/-! ### The core waiting for the adapter (R302). -/

@[simp] theorem State.wait_ctx (s : State) (before : Context) : (s.wait before).ctx = before := rfl
@[simp] theorem State.wait_hasTable (s : State) (before : Context) : (s.wait before).hasTable = s.hasTable := rfl
@[simp] theorem State.wait_adapter (s : State) (before : Context) : (s.wait before).adapter = s.adapter := rfl
@[simp] theorem State.wait_ciph (s : State) (before : Context) : (s.wait before).ciph = s.ciph := rfl
@[simp] theorem State.wait_cmd (s : State) (before : Context) : (s.wait before).cmd = s.cmd := rfl
@[simp] theorem State.wait_rsp (s : State) (before : Context) : (s.wait before).rsp = s.rsp := rfl
@[simp] theorem State.wait_waiting (s : State) (before : Context) : (s.wait before).waiting = true := rfl
@[simp] theorem State.wait_freeIndex (s : State) (before : Context) : (s.wait before).freeIndex = s.freeIndex := rfl

/-! ### One RELEASE (R51). -/

@[simp] theorem adapterRelease_ctx (h : Handle) (s : State) : (adapterRelease h s).ctx = s.ctx := rfl
@[simp] theorem adapterRelease_hasTable (h : Handle) (s : State) : (adapterRelease h s).hasTable = s.hasTable := rfl
@[simp] theorem adapterRelease_adapter (h : Handle) (s : State) :
    (adapterRelease h s).adapter = s.adapter.release h := rfl
@[simp] theorem adapterRelease_ciph (h : Handle) (s : State) :
    (adapterRelease h s).ciph = s.ciph ++ [.release h] := rfl
@[simp] theorem adapterRelease_cmd (h : Handle) (s : State) : (adapterRelease h s).cmd = s.cmd := rfl
@[simp] theorem adapterRelease_rsp (h : Handle) (s : State) : (adapterRelease h s).rsp = s.rsp := rfl
@[simp] theorem adapterRelease_waiting (h : Handle) (s : State) : (adapterRelease h s).waiting = s.waiting := rfl
@[simp] theorem adapterRelease_freeIndex (h : Handle) (s : State) :
    (adapterRelease h s).freeIndex = s.freeIndex := rfl

/-! ### An illegal header (R80). -/

@[simp] theorem State.illegalHeader_ctx (s : State) :
    s.illegalHeader.ctx = { Config.noValue s.freeIndex with life := lifeAfterError false s.ctx.life, table := [] } := rfl
@[simp] theorem State.illegalHeader_hasTable (s : State) : s.illegalHeader.hasTable = s.hasTable := rfl
@[simp] theorem State.illegalHeader_adapter (s : State) : s.illegalHeader.adapter = s.adapter := rfl
@[simp] theorem State.illegalHeader_ciph (s : State) : s.illegalHeader.ciph = s.ciph := rfl
@[simp] theorem State.illegalHeader_cmd (s : State) : s.illegalHeader.cmd = s.cmd := rfl
@[simp] theorem State.illegalHeader_rsp (s : State) :
    s.illegalHeader.rsp = s.rsp ++ response ErrorKind.invalidArgument.code s.illegalHeader.ctx [] := rfl
@[simp] theorem State.illegalHeader_waiting (s : State) : s.illegalHeader.waiting = s.waiting := rfl
@[simp] theorem State.illegalHeader_freeIndex (s : State) : s.illegalHeader.freeIndex = s.freeIndex + 1 := rfl

/-! ### Power-on reset (R281). -/

@[simp] theorem State.powerOnReset_ctx (s : State) (lost : Nat) : (s.powerOnReset lost).ctx = Context.powerOn := rfl
@[simp] theorem State.powerOnReset_hasTable (s : State) (lost : Nat) :
    (s.powerOnReset lost).hasTable = s.hasTable := rfl
@[simp] theorem State.powerOnReset_adapter (s : State) (lost : Nat) : (s.powerOnReset lost).adapter = s.adapter := rfl
@[simp] theorem State.powerOnReset_ciph (s : State) (lost : Nat) : (s.powerOnReset lost).ciph = s.ciph := rfl
@[simp] theorem State.powerOnReset_cmd (s : State) (lost : Nat) : (s.powerOnReset lost).cmd = s.cmd.drop lost := rfl
@[simp] theorem State.powerOnReset_rsp (s : State) (lost : Nat) : (s.powerOnReset lost).rsp = s.rsp := rfl
@[simp] theorem State.powerOnReset_waiting (s : State) (lost : Nat) : (s.powerOnReset lost).waiting = false := rfl
@[simp] theorem State.powerOnReset_freeIndex (s : State) (lost : Nat) :
    (s.powerOnReset lost).freeIndex = s.freeIndex := rfl

/-! ### The CMD port replaced (R44). -/

@[simp] theorem State.withCmd_ctx (s : State) (bytes : List Byte) : (s.withCmd bytes).ctx = s.ctx := rfl
@[simp] theorem State.withCmd_hasTable (s : State) (bytes : List Byte) :
    (s.withCmd bytes).hasTable = s.hasTable := rfl
@[simp] theorem State.withCmd_adapter (s : State) (bytes : List Byte) : (s.withCmd bytes).adapter = s.adapter := rfl
@[simp] theorem State.withCmd_ciph (s : State) (bytes : List Byte) : (s.withCmd bytes).ciph = s.ciph := rfl
@[simp] theorem State.withCmd_cmd (s : State) (bytes : List Byte) : (s.withCmd bytes).cmd = bytes := rfl
@[simp] theorem State.withCmd_rsp (s : State) (bytes : List Byte) : (s.withCmd bytes).rsp = s.rsp := rfl
@[simp] theorem State.withCmd_waiting (s : State) (bytes : List Byte) : (s.withCmd bytes).waiting = s.waiting := rfl
@[simp] theorem State.withCmd_freeIndex (s : State) (bytes : List Byte) :
    (s.withCmd bytes).freeIndex = s.freeIndex := rfl

/-! ### An opcode-table word put at the front of CMD. -/

@[simp] theorem State.withFetchWord_ctx (s : State) (nbits w : Nat) : (s.withFetchWord nbits w).ctx = s.ctx := rfl
@[simp] theorem State.withFetchWord_hasTable (s : State) (nbits w : Nat) :
    (s.withFetchWord nbits w).hasTable = s.hasTable := rfl
@[simp] theorem State.withFetchWord_adapter (s : State) (nbits w : Nat) :
    (s.withFetchWord nbits w).adapter = s.adapter := rfl
@[simp] theorem State.withFetchWord_ciph (s : State) (nbits w : Nat) : (s.withFetchWord nbits w).ciph = s.ciph := rfl
@[simp] theorem State.withFetchWord_cmd (s : State) (nbits w : Nat) :
    (s.withFetchWord nbits w).cmd = tableWordBytes nbits w ++ s.cmd := rfl
@[simp] theorem State.withFetchWord_rsp (s : State) (nbits w : Nat) : (s.withFetchWord nbits w).rsp = s.rsp := rfl
@[simp] theorem State.withFetchWord_waiting (s : State) (nbits w : Nat) :
    (s.withFetchWord nbits w).waiting = s.waiting := rfl
@[simp] theorem State.withFetchWord_freeIndex (s : State) (nbits w : Nat) :
    (s.withFetchWord nbits w).freeIndex = s.freeIndex := rfl

/-! ### `zeroSession` (R101) -/

@[simp] theorem zeroSession_sched (c : Context) : (zeroSession c).sched = c.sched := rfl
@[simp] theorem zeroSession_H (c : Context) : (zeroSession c).H = c.H := rfl
@[simp] theorem zeroSession_X (c : Context) : (zeroSession c).X = 0 := rfl
@[simp] theorem zeroSession_Y (c : Context) : (zeroSession c).Y = 0 := rfl
@[simp] theorem zeroSession_Y0 (c : Context) : (zeroSession c).Y0 = 0 := rfl
@[simp] theorem zeroSession_buf (c : Context) : (zeroSession c).buf = 0 := rfl
@[simp] theorem zeroSession_buflen (c : Context) : (zeroSession c).buflen = 0 := rfl
@[simp] theorem zeroSession_ivmode (c : Context) : (zeroSession c).ivmode = false := rfl
@[simp] theorem zeroSession_totlen (c : Context) : (zeroSession c).totlen = 0 := rfl
@[simp] theorem zeroSession_pttotlen (c : Context) : (zeroSession c).pttotlen = 0 := rfl
@[simp] theorem zeroSession_life (c : Context) : (zeroSession c).life = c.life := rfl
@[simp] theorem zeroSession_mode (c : Context) : (zeroSession c).mode = .iv := rfl
@[simp] theorem zeroSession_tblSel (c : Context) : (zeroSession c).tblSel = c.tblSel := rfl
@[simp] theorem zeroSession_table (c : Context) : (zeroSession c).table = c.table := rfl

/-! ### `openContext` (R100) -/

@[simp] theorem openContext_sched (tbl : Bool) (H : Block) (c : Context) : (openContext tbl H c).sched = c.sched := rfl
@[simp] theorem openContext_H (tbl : Bool) (H : Block) (c : Context) : (openContext tbl H c).H = H := rfl
@[simp] theorem openContext_X (tbl : Bool) (H : Block) (c : Context) : (openContext tbl H c).X = 0 := rfl
@[simp] theorem openContext_Y (tbl : Bool) (H : Block) (c : Context) : (openContext tbl H c).Y = 0 := rfl
@[simp] theorem openContext_Y0 (tbl : Bool) (H : Block) (c : Context) : (openContext tbl H c).Y0 = 0 := rfl
@[simp] theorem openContext_buf (tbl : Bool) (H : Block) (c : Context) : (openContext tbl H c).buf = 0 := rfl
@[simp] theorem openContext_buflen (tbl : Bool) (H : Block) (c : Context) : (openContext tbl H c).buflen = 0 := rfl
@[simp] theorem openContext_ivmode (tbl : Bool) (H : Block) (c : Context) : (openContext tbl H c).ivmode = false := rfl
@[simp] theorem openContext_totlen (tbl : Bool) (H : Block) (c : Context) : (openContext tbl H c).totlen = 0 := rfl
@[simp] theorem openContext_pttotlen (tbl : Bool) (H : Block) (c : Context) : (openContext tbl H c).pttotlen = 0 := rfl
@[simp] theorem openContext_life (tbl : Bool) (H : Block) (c : Context) : (openContext tbl H c).life = .live := rfl
@[simp] theorem openContext_mode (tbl : Bool) (H : Block) (c : Context) : (openContext tbl H c).mode = .iv := rfl
@[simp] theorem openContext_tblSel (tbl : Bool) (H : Block) (c : Context) : (openContext tbl H c).tblSel = tbl := rfl
@[simp] theorem openContext_table (tbl : Bool) (H : Block) (c : Context) : (openContext tbl H c).table = if tbl then tableGen H else [] := rfl

/-! ### `ivClose` (R166) -/

@[simp] theorem ivClose_sched (c : Context) : (ivClose c).sched = c.sched := rfl
@[simp] theorem ivClose_H (c : Context) : (ivClose c).H = c.H := rfl
@[simp] theorem ivClose_X (c : Context) : (ivClose c).X = if takesGhashPath c then 0 else c.X := rfl
@[simp] theorem ivClose_Y (c : Context) : (ivClose c).Y = if takesGhashPath c then ghashCounter c else directCounter c := rfl
@[simp] theorem ivClose_Y0 (c : Context) : (ivClose c).Y0 = (ivClose c).Y := rfl
@[simp] theorem ivClose_buf (c : Context) : (ivClose c).buf = 0 := rfl
@[simp] theorem ivClose_buflen (c : Context) : (ivClose c).buflen = 0 := rfl
@[simp] theorem ivClose_ivmode (c : Context) : (ivClose c).ivmode = c.ivmode := rfl
@[simp] theorem ivClose_totlen (c : Context) : (ivClose c).totlen = 0 := rfl
@[simp] theorem ivClose_pttotlen (c : Context) : (ivClose c).pttotlen = c.pttotlen := rfl
@[simp] theorem ivClose_life (c : Context) : (ivClose c).life = c.life := rfl
@[simp] theorem ivClose_mode (c : Context) : (ivClose c).mode = .aad := rfl
@[simp] theorem ivClose_tblSel (c : Context) : (ivClose c).tblSel = c.tblSel := rfl
@[simp] theorem ivClose_table (c : Context) : (ivClose c).table = c.table := rfl

/-! ### `advanceCounter` (R186) -/

@[simp] theorem advanceCounter_sched (c : Context) : (advanceCounter c).sched = c.sched := rfl
@[simp] theorem advanceCounter_H (c : Context) : (advanceCounter c).H = c.H := rfl
@[simp] theorem advanceCounter_X (c : Context) : (advanceCounter c).X = c.X := rfl
@[simp] theorem advanceCounter_Y (c : Context) : (advanceCounter c).Y = inc32 c.Y := rfl
@[simp] theorem advanceCounter_Y0 (c : Context) : (advanceCounter c).Y0 = c.Y0 := rfl
@[simp] theorem advanceCounter_buf (c : Context) : (advanceCounter c).buf = c.buf := rfl
@[simp] theorem advanceCounter_buflen (c : Context) : (advanceCounter c).buflen = c.buflen := rfl
@[simp] theorem advanceCounter_ivmode (c : Context) : (advanceCounter c).ivmode = c.ivmode := rfl
@[simp] theorem advanceCounter_totlen (c : Context) : (advanceCounter c).totlen = c.totlen := rfl
@[simp] theorem advanceCounter_pttotlen (c : Context) : (advanceCounter c).pttotlen = c.pttotlen := rfl
@[simp] theorem advanceCounter_life (c : Context) : (advanceCounter c).life = c.life := rfl
@[simp] theorem advanceCounter_mode (c : Context) : (advanceCounter c).mode = c.mode := rfl
@[simp] theorem advanceCounter_tblSel (c : Context) : (advanceCounter c).tblSel = c.tblSel := rfl
@[simp] theorem advanceCounter_table (c : Context) : (advanceCounter c).table = c.table := rfl

/-! ### `foldTextBlock` (R185) -/

@[simp] theorem foldTextBlock_sched (c : Context) : (foldTextBlock c).sched = c.sched := rfl
@[simp] theorem foldTextBlock_H (c : Context) : (foldTextBlock c).H = c.H := rfl
@[simp] theorem foldTextBlock_X (c : Context) : (foldTextBlock c).X = multH c c.X := rfl
@[simp] theorem foldTextBlock_Y (c : Context) : (foldTextBlock c).Y = inc32 c.Y := rfl
@[simp] theorem foldTextBlock_Y0 (c : Context) : (foldTextBlock c).Y0 = c.Y0 := rfl
@[simp] theorem foldTextBlock_buf (c : Context) : (foldTextBlock c).buf = c.buf := rfl
@[simp] theorem foldTextBlock_buflen (c : Context) : (foldTextBlock c).buflen = c.buflen := rfl
@[simp] theorem foldTextBlock_ivmode (c : Context) : (foldTextBlock c).ivmode = c.ivmode := rfl
@[simp] theorem foldTextBlock_totlen (c : Context) : (foldTextBlock c).totlen = c.totlen := rfl
@[simp] theorem foldTextBlock_pttotlen (c : Context) : (foldTextBlock c).pttotlen = c.pttotlen + 128 := rfl
@[simp] theorem foldTextBlock_life (c : Context) : (foldTextBlock c).life = c.life := rfl
@[simp] theorem foldTextBlock_mode (c : Context) : (foldTextBlock c).mode = c.mode := rfl
@[simp] theorem foldTextBlock_tblSel (c : Context) : (foldTextBlock c).tblSel = c.tblSel := rfl
@[simp] theorem foldTextBlock_table (c : Context) : (foldTextBlock c).table = c.table := rfl

/-! ### `absorbTextByte` (R185) -/

@[simp] theorem absorbTextByte_sched (dir : Direction) (c : Context) (b : Byte) : (absorbTextByte dir c b).sched = c.sched := rfl
@[simp] theorem absorbTextByte_H (dir : Direction) (c : Context) (b : Byte) : (absorbTextByte dir c b).H = c.H := rfl
@[simp] theorem absorbTextByte_X (dir : Direction) (c : Context) (b : Byte) : (absorbTextByte dir c b).X = xorBlockByte c.X c.buflen.toNat (cipherByte dir c b) := rfl
@[simp] theorem absorbTextByte_Y (dir : Direction) (c : Context) (b : Byte) : (absorbTextByte dir c b).Y = c.Y := rfl
@[simp] theorem absorbTextByte_Y0 (dir : Direction) (c : Context) (b : Byte) : (absorbTextByte dir c b).Y0 = c.Y0 := rfl
@[simp] theorem absorbTextByte_buf (dir : Direction) (c : Context) (b : Byte) : (absorbTextByte dir c b).buf = c.buf := rfl
@[simp] theorem absorbTextByte_buflen (dir : Direction) (c : Context) (b : Byte) : (absorbTextByte dir c b).buflen = c.buflen + 1 := rfl
@[simp] theorem absorbTextByte_ivmode (dir : Direction) (c : Context) (b : Byte) : (absorbTextByte dir c b).ivmode = c.ivmode := rfl
@[simp] theorem absorbTextByte_totlen (dir : Direction) (c : Context) (b : Byte) : (absorbTextByte dir c b).totlen = c.totlen := rfl
@[simp] theorem absorbTextByte_pttotlen (dir : Direction) (c : Context) (b : Byte) : (absorbTextByte dir c b).pttotlen = c.pttotlen := rfl
@[simp] theorem absorbTextByte_life (dir : Direction) (c : Context) (b : Byte) : (absorbTextByte dir c b).life = c.life := rfl
@[simp] theorem absorbTextByte_mode (dir : Direction) (c : Context) (b : Byte) : (absorbTextByte dir c b).mode = c.mode := rfl
@[simp] theorem absorbTextByte_tblSel (dir : Direction) (c : Context) (b : Byte) : (absorbTextByte dir c b).tblSel = c.tblSel := rfl
@[simp] theorem absorbTextByte_table (dir : Direction) (c : Context) (b : Byte) : (absorbTextByte dir c b).table = c.table := rfl

/-! ### `foldLengths` (R211) -/

@[simp] theorem foldLengths_sched (c : Context) : (foldLengths c).sched = c.sched := rfl
@[simp] theorem foldLengths_H (c : Context) : (foldLengths c).H = c.H := rfl
@[simp] theorem foldLengths_X (c : Context) : (foldLengths c).X = multH c (c.X ^^^ lengthBlock c.totlen c.pttotlen) := rfl
@[simp] theorem foldLengths_Y (c : Context) : (foldLengths c).Y = c.Y := rfl
@[simp] theorem foldLengths_Y0 (c : Context) : (foldLengths c).Y0 = c.Y0 := rfl
@[simp] theorem foldLengths_buf (c : Context) : (foldLengths c).buf = c.buf := rfl
@[simp] theorem foldLengths_buflen (c : Context) : (foldLengths c).buflen = c.buflen := rfl
@[simp] theorem foldLengths_ivmode (c : Context) : (foldLengths c).ivmode = c.ivmode := rfl
@[simp] theorem foldLengths_totlen (c : Context) : (foldLengths c).totlen = c.totlen := rfl
@[simp] theorem foldLengths_pttotlen (c : Context) : (foldLengths c).pttotlen = c.pttotlen := rfl
@[simp] theorem foldLengths_life (c : Context) : (foldLengths c).life = c.life := rfl
@[simp] theorem foldLengths_mode (c : Context) : (foldLengths c).mode = c.mode := rfl
@[simp] theorem foldLengths_tblSel (c : Context) : (foldLengths c).tblSel = c.tblSel := rfl
@[simp] theorem foldLengths_table (c : Context) : (foldLengths c).table = c.table := rfl

/-! ### Updates that test something: the fields they never write -/

@[simp] theorem foldIvBlock_sched (c : Context) : (foldIvBlock c).sched = c.sched := by
  unfold foldIvBlock; split <;> rfl
@[simp] theorem foldIvBlock_H (c : Context) : (foldIvBlock c).H = c.H := by
  unfold foldIvBlock; split <;> rfl
@[simp] theorem foldIvBlock_Y (c : Context) : (foldIvBlock c).Y = c.Y := by
  unfold foldIvBlock; split <;> rfl
@[simp] theorem foldIvBlock_Y0 (c : Context) : (foldIvBlock c).Y0 = c.Y0 := by
  unfold foldIvBlock; split <;> rfl
@[simp] theorem foldIvBlock_buf (c : Context) : (foldIvBlock c).buf = c.buf := by
  unfold foldIvBlock; split <;> rfl
@[simp] theorem foldIvBlock_ivmode (c : Context) : (foldIvBlock c).ivmode = c.ivmode := by
  unfold foldIvBlock; split <;> rfl
@[simp] theorem foldIvBlock_pttotlen (c : Context) : (foldIvBlock c).pttotlen = c.pttotlen := by
  unfold foldIvBlock; split <;> rfl
@[simp] theorem foldIvBlock_life (c : Context) : (foldIvBlock c).life = c.life := by
  unfold foldIvBlock; split <;> rfl
@[simp] theorem foldIvBlock_mode (c : Context) : (foldIvBlock c).mode = c.mode := by
  unfold foldIvBlock; split <;> rfl
@[simp] theorem foldIvBlock_tblSel (c : Context) : (foldIvBlock c).tblSel = c.tblSel := by
  unfold foldIvBlock; split <;> rfl
@[simp] theorem foldIvBlock_table (c : Context) : (foldIvBlock c).table = c.table := by
  unfold foldIvBlock; split <;> rfl

@[simp] theorem foldPartialIv_sched (c : Context) : (foldPartialIv c).sched = c.sched := by
  unfold foldPartialIv; split <;> rfl
@[simp] theorem foldPartialIv_H (c : Context) : (foldPartialIv c).H = c.H := by
  unfold foldPartialIv; split <;> rfl
@[simp] theorem foldPartialIv_Y (c : Context) : (foldPartialIv c).Y = c.Y := by
  unfold foldPartialIv; split <;> rfl
@[simp] theorem foldPartialIv_Y0 (c : Context) : (foldPartialIv c).Y0 = c.Y0 := by
  unfold foldPartialIv; split <;> rfl
@[simp] theorem foldPartialIv_buf (c : Context) : (foldPartialIv c).buf = c.buf := by
  unfold foldPartialIv; split <;> rfl
@[simp] theorem foldPartialIv_buflen (c : Context) : (foldPartialIv c).buflen = c.buflen := by
  unfold foldPartialIv; split <;> rfl
@[simp] theorem foldPartialIv_ivmode (c : Context) : (foldPartialIv c).ivmode = c.ivmode := by
  unfold foldPartialIv; split <;> rfl
@[simp] theorem foldPartialIv_pttotlen (c : Context) : (foldPartialIv c).pttotlen = c.pttotlen := by
  unfold foldPartialIv; split <;> rfl
@[simp] theorem foldPartialIv_life (c : Context) : (foldPartialIv c).life = c.life := by
  unfold foldPartialIv; split <;> rfl
@[simp] theorem foldPartialIv_mode (c : Context) : (foldPartialIv c).mode = c.mode := by
  unfold foldPartialIv; split <;> rfl
@[simp] theorem foldPartialIv_tblSel (c : Context) : (foldPartialIv c).tblSel = c.tblSel := by
  unfold foldPartialIv; split <;> rfl
@[simp] theorem foldPartialIv_table (c : Context) : (foldPartialIv c).table = c.table := by
  unfold foldPartialIv; split <;> rfl

@[simp] theorem absorbIvByte_sched (c : Context) (b : Byte) : (absorbIvByte c b).sched = c.sched := by
  simp [absorbIvByte]
@[simp] theorem absorbIvByte_H (c : Context) (b : Byte) : (absorbIvByte c b).H = c.H := by
  simp [absorbIvByte]
@[simp] theorem absorbIvByte_Y (c : Context) (b : Byte) : (absorbIvByte c b).Y = c.Y := by
  simp [absorbIvByte]
@[simp] theorem absorbIvByte_Y0 (c : Context) (b : Byte) : (absorbIvByte c b).Y0 = c.Y0 := by
  simp [absorbIvByte]
@[simp] theorem absorbIvByte_pttotlen (c : Context) (b : Byte) : (absorbIvByte c b).pttotlen = c.pttotlen := by
  simp [absorbIvByte]
@[simp] theorem absorbIvByte_life (c : Context) (b : Byte) : (absorbIvByte c b).life = c.life := by
  simp [absorbIvByte]
@[simp] theorem absorbIvByte_mode (c : Context) (b : Byte) : (absorbIvByte c b).mode = c.mode := by
  simp [absorbIvByte]
@[simp] theorem absorbIvByte_tblSel (c : Context) (b : Byte) : (absorbIvByte c b).tblSel = c.tblSel := by
  simp [absorbIvByte]
@[simp] theorem absorbIvByte_table (c : Context) (b : Byte) : (absorbIvByte c b).table = c.table := by
  simp [absorbIvByte]

@[simp] theorem foldAadBlock_sched (c : Context) : (foldAadBlock c).sched = c.sched := by
  unfold foldAadBlock; split <;> rfl
@[simp] theorem foldAadBlock_H (c : Context) : (foldAadBlock c).H = c.H := by
  unfold foldAadBlock; split <;> rfl
@[simp] theorem foldAadBlock_Y (c : Context) : (foldAadBlock c).Y = c.Y := by
  unfold foldAadBlock; split <;> rfl
@[simp] theorem foldAadBlock_Y0 (c : Context) : (foldAadBlock c).Y0 = c.Y0 := by
  unfold foldAadBlock; split <;> rfl
@[simp] theorem foldAadBlock_buf (c : Context) : (foldAadBlock c).buf = c.buf := by
  unfold foldAadBlock; split <;> rfl
@[simp] theorem foldAadBlock_ivmode (c : Context) : (foldAadBlock c).ivmode = c.ivmode := by
  unfold foldAadBlock; split <;> rfl
@[simp] theorem foldAadBlock_pttotlen (c : Context) : (foldAadBlock c).pttotlen = c.pttotlen := by
  unfold foldAadBlock; split <;> rfl
@[simp] theorem foldAadBlock_life (c : Context) : (foldAadBlock c).life = c.life := by
  unfold foldAadBlock; split <;> rfl
@[simp] theorem foldAadBlock_mode (c : Context) : (foldAadBlock c).mode = c.mode := by
  unfold foldAadBlock; split <;> rfl
@[simp] theorem foldAadBlock_tblSel (c : Context) : (foldAadBlock c).tblSel = c.tblSel := by
  unfold foldAadBlock; split <;> rfl
@[simp] theorem foldAadBlock_table (c : Context) : (foldAadBlock c).table = c.table := by
  unfold foldAadBlock; split <;> rfl

@[simp] theorem absorbAadByte_sched (c : Context) (b : Byte) : (absorbAadByte c b).sched = c.sched := by
  simp [absorbAadByte]
@[simp] theorem absorbAadByte_H (c : Context) (b : Byte) : (absorbAadByte c b).H = c.H := by
  simp [absorbAadByte]
@[simp] theorem absorbAadByte_Y (c : Context) (b : Byte) : (absorbAadByte c b).Y = c.Y := by
  simp [absorbAadByte]
@[simp] theorem absorbAadByte_Y0 (c : Context) (b : Byte) : (absorbAadByte c b).Y0 = c.Y0 := by
  simp [absorbAadByte]
@[simp] theorem absorbAadByte_buf (c : Context) (b : Byte) : (absorbAadByte c b).buf = c.buf := by
  simp [absorbAadByte]
@[simp] theorem absorbAadByte_ivmode (c : Context) (b : Byte) : (absorbAadByte c b).ivmode = c.ivmode := by
  simp [absorbAadByte]
@[simp] theorem absorbAadByte_pttotlen (c : Context) (b : Byte) : (absorbAadByte c b).pttotlen = c.pttotlen := by
  simp [absorbAadByte]
@[simp] theorem absorbAadByte_life (c : Context) (b : Byte) : (absorbAadByte c b).life = c.life := by
  simp [absorbAadByte]
@[simp] theorem absorbAadByte_mode (c : Context) (b : Byte) : (absorbAadByte c b).mode = c.mode := by
  simp [absorbAadByte]
@[simp] theorem absorbAadByte_tblSel (c : Context) (b : Byte) : (absorbAadByte c b).tblSel = c.tblSel := by
  simp [absorbAadByte]
@[simp] theorem absorbAadByte_table (c : Context) (b : Byte) : (absorbAadByte c b).table = c.table := by
  simp [absorbAadByte]

@[simp] theorem foldPartialAad_sched (c : Context) : (foldPartialAad c).sched = c.sched := by
  unfold foldPartialAad; split <;> rfl
@[simp] theorem foldPartialAad_H (c : Context) : (foldPartialAad c).H = c.H := by
  unfold foldPartialAad; split <;> rfl
@[simp] theorem foldPartialAad_Y (c : Context) : (foldPartialAad c).Y = c.Y := by
  unfold foldPartialAad; split <;> rfl
@[simp] theorem foldPartialAad_Y0 (c : Context) : (foldPartialAad c).Y0 = c.Y0 := by
  unfold foldPartialAad; split <;> rfl
@[simp] theorem foldPartialAad_buf (c : Context) : (foldPartialAad c).buf = c.buf := by
  unfold foldPartialAad; split <;> rfl
@[simp] theorem foldPartialAad_buflen (c : Context) : (foldPartialAad c).buflen = c.buflen := by
  unfold foldPartialAad; split <;> rfl
@[simp] theorem foldPartialAad_ivmode (c : Context) : (foldPartialAad c).ivmode = c.ivmode := by
  unfold foldPartialAad; split <;> rfl
@[simp] theorem foldPartialAad_pttotlen (c : Context) : (foldPartialAad c).pttotlen = c.pttotlen := by
  unfold foldPartialAad; split <;> rfl
@[simp] theorem foldPartialAad_life (c : Context) : (foldPartialAad c).life = c.life := by
  unfold foldPartialAad; split <;> rfl
@[simp] theorem foldPartialAad_mode (c : Context) : (foldPartialAad c).mode = c.mode := by
  unfold foldPartialAad; split <;> rfl
@[simp] theorem foldPartialAad_tblSel (c : Context) : (foldPartialAad c).tblSel = c.tblSel := by
  unfold foldPartialAad; split <;> rfl
@[simp] theorem foldPartialAad_table (c : Context) : (foldPartialAad c).table = c.table := by
  unfold foldPartialAad; split <;> rfl

@[simp] theorem foldPartialText_sched (c : Context) : (foldPartialText c).sched = c.sched := by
  unfold foldPartialText; split <;> rfl
@[simp] theorem foldPartialText_H (c : Context) : (foldPartialText c).H = c.H := by
  unfold foldPartialText; split <;> rfl
@[simp] theorem foldPartialText_Y (c : Context) : (foldPartialText c).Y = c.Y := by
  unfold foldPartialText; split <;> rfl
@[simp] theorem foldPartialText_Y0 (c : Context) : (foldPartialText c).Y0 = c.Y0 := by
  unfold foldPartialText; split <;> rfl
@[simp] theorem foldPartialText_buf (c : Context) : (foldPartialText c).buf = c.buf := by
  unfold foldPartialText; split <;> rfl
@[simp] theorem foldPartialText_buflen (c : Context) : (foldPartialText c).buflen = c.buflen := by
  unfold foldPartialText; split <;> rfl
@[simp] theorem foldPartialText_ivmode (c : Context) : (foldPartialText c).ivmode = c.ivmode := by
  unfold foldPartialText; split <;> rfl
@[simp] theorem foldPartialText_totlen (c : Context) : (foldPartialText c).totlen = c.totlen := by
  unfold foldPartialText; split <;> rfl
@[simp] theorem foldPartialText_life (c : Context) : (foldPartialText c).life = c.life := by
  unfold foldPartialText; split <;> rfl
@[simp] theorem foldPartialText_mode (c : Context) : (foldPartialText c).mode = c.mode := by
  unfold foldPartialText; split <;> rfl
@[simp] theorem foldPartialText_tblSel (c : Context) : (foldPartialText c).tblSel = c.tblSel := by
  unfold foldPartialText; split <;> rfl
@[simp] theorem foldPartialText_table (c : Context) : (foldPartialText c).table = c.table := by
  unfold foldPartialText; split <;> rfl

@[simp] theorem absorbIv_sched (c : Context) (chunk : List Byte) : (absorbIv c chunk).sched = c.sched := by
  induction chunk generalizing c with
  | nil => rfl
  | cons b chunk ih => exact (ih (absorbIvByte c b)).trans (absorbIvByte_sched c b)
@[simp] theorem absorbIv_H (c : Context) (chunk : List Byte) : (absorbIv c chunk).H = c.H := by
  induction chunk generalizing c with
  | nil => rfl
  | cons b chunk ih => exact (ih (absorbIvByte c b)).trans (absorbIvByte_H c b)
@[simp] theorem absorbIv_Y (c : Context) (chunk : List Byte) : (absorbIv c chunk).Y = c.Y := by
  induction chunk generalizing c with
  | nil => rfl
  | cons b chunk ih => exact (ih (absorbIvByte c b)).trans (absorbIvByte_Y c b)
@[simp] theorem absorbIv_Y0 (c : Context) (chunk : List Byte) : (absorbIv c chunk).Y0 = c.Y0 := by
  induction chunk generalizing c with
  | nil => rfl
  | cons b chunk ih => exact (ih (absorbIvByte c b)).trans (absorbIvByte_Y0 c b)
@[simp] theorem absorbIv_pttotlen (c : Context) (chunk : List Byte) : (absorbIv c chunk).pttotlen = c.pttotlen := by
  induction chunk generalizing c with
  | nil => rfl
  | cons b chunk ih => exact (ih (absorbIvByte c b)).trans (absorbIvByte_pttotlen c b)
@[simp] theorem absorbIv_life (c : Context) (chunk : List Byte) : (absorbIv c chunk).life = c.life := by
  induction chunk generalizing c with
  | nil => rfl
  | cons b chunk ih => exact (ih (absorbIvByte c b)).trans (absorbIvByte_life c b)
@[simp] theorem absorbIv_mode (c : Context) (chunk : List Byte) : (absorbIv c chunk).mode = c.mode := by
  induction chunk generalizing c with
  | nil => rfl
  | cons b chunk ih => exact (ih (absorbIvByte c b)).trans (absorbIvByte_mode c b)
@[simp] theorem absorbIv_tblSel (c : Context) (chunk : List Byte) : (absorbIv c chunk).tblSel = c.tblSel := by
  induction chunk generalizing c with
  | nil => rfl
  | cons b chunk ih => exact (ih (absorbIvByte c b)).trans (absorbIvByte_tblSel c b)
@[simp] theorem absorbIv_table (c : Context) (chunk : List Byte) : (absorbIv c chunk).table = c.table := by
  induction chunk generalizing c with
  | nil => rfl
  | cons b chunk ih => exact (ih (absorbIvByte c b)).trans (absorbIvByte_table c b)

@[simp] theorem absorbAad_sched (c : Context) (chunk : List Byte) : (absorbAad c chunk).sched = c.sched := by
  induction chunk generalizing c with
  | nil => rfl
  | cons b chunk ih => exact (ih (absorbAadByte c b)).trans (absorbAadByte_sched c b)
@[simp] theorem absorbAad_H (c : Context) (chunk : List Byte) : (absorbAad c chunk).H = c.H := by
  induction chunk generalizing c with
  | nil => rfl
  | cons b chunk ih => exact (ih (absorbAadByte c b)).trans (absorbAadByte_H c b)
@[simp] theorem absorbAad_Y (c : Context) (chunk : List Byte) : (absorbAad c chunk).Y = c.Y := by
  induction chunk generalizing c with
  | nil => rfl
  | cons b chunk ih => exact (ih (absorbAadByte c b)).trans (absorbAadByte_Y c b)
@[simp] theorem absorbAad_Y0 (c : Context) (chunk : List Byte) : (absorbAad c chunk).Y0 = c.Y0 := by
  induction chunk generalizing c with
  | nil => rfl
  | cons b chunk ih => exact (ih (absorbAadByte c b)).trans (absorbAadByte_Y0 c b)
@[simp] theorem absorbAad_buf (c : Context) (chunk : List Byte) : (absorbAad c chunk).buf = c.buf := by
  induction chunk generalizing c with
  | nil => rfl
  | cons b chunk ih => exact (ih (absorbAadByte c b)).trans (absorbAadByte_buf c b)
@[simp] theorem absorbAad_ivmode (c : Context) (chunk : List Byte) : (absorbAad c chunk).ivmode = c.ivmode := by
  induction chunk generalizing c with
  | nil => rfl
  | cons b chunk ih => exact (ih (absorbAadByte c b)).trans (absorbAadByte_ivmode c b)
@[simp] theorem absorbAad_pttotlen (c : Context) (chunk : List Byte) : (absorbAad c chunk).pttotlen = c.pttotlen := by
  induction chunk generalizing c with
  | nil => rfl
  | cons b chunk ih => exact (ih (absorbAadByte c b)).trans (absorbAadByte_pttotlen c b)
@[simp] theorem absorbAad_life (c : Context) (chunk : List Byte) : (absorbAad c chunk).life = c.life := by
  induction chunk generalizing c with
  | nil => rfl
  | cons b chunk ih => exact (ih (absorbAadByte c b)).trans (absorbAadByte_life c b)
@[simp] theorem absorbAad_mode (c : Context) (chunk : List Byte) : (absorbAad c chunk).mode = c.mode := by
  induction chunk generalizing c with
  | nil => rfl
  | cons b chunk ih => exact (ih (absorbAadByte c b)).trans (absorbAadByte_mode c b)
@[simp] theorem absorbAad_tblSel (c : Context) (chunk : List Byte) : (absorbAad c chunk).tblSel = c.tblSel := by
  induction chunk generalizing c with
  | nil => rfl
  | cons b chunk ih => exact (ih (absorbAadByte c b)).trans (absorbAadByte_tblSel c b)
@[simp] theorem absorbAad_table (c : Context) (chunk : List Byte) : (absorbAad c chunk).table = c.table := by
  induction chunk generalizing c with
  | nil => rfl
  | cons b chunk ih => exact (ih (absorbAadByte c b)).trans (absorbAadByte_table c b)

@[simp] theorem closeIvPhase_sched (c : Context) : (closeIvPhase c).sched = c.sched := by
  unfold closeIvPhase; split <;> rfl
@[simp] theorem closeIvPhase_H (c : Context) : (closeIvPhase c).H = c.H := by
  unfold closeIvPhase; split <;> rfl
@[simp] theorem closeIvPhase_ivmode (c : Context) : (closeIvPhase c).ivmode = c.ivmode := by
  unfold closeIvPhase; split <;> rfl
@[simp] theorem closeIvPhase_pttotlen (c : Context) : (closeIvPhase c).pttotlen = c.pttotlen := by
  unfold closeIvPhase; split <;> rfl
@[simp] theorem closeIvPhase_life (c : Context) : (closeIvPhase c).life = c.life := by
  unfold closeIvPhase; split <;> rfl
@[simp] theorem closeIvPhase_tblSel (c : Context) : (closeIvPhase c).tblSel = c.tblSel := by
  unfold closeIvPhase; split <;> rfl
@[simp] theorem closeIvPhase_table (c : Context) : (closeIvPhase c).table = c.table := by
  unfold closeIvPhase; split <;> rfl

end Sys2Proof.Machine
end

