-- ==== Sys2Proof/Laws/Ops.lean ====
section
/-! SUPPORT. For each shared operation one lemma that says once everything it can do; later proofs cite these and
do not unfold the operations. -/

namespace Sys2Proof.Machine

/-! ### Sequencing -/

@[simp] theorem Result.done_andThen {α β : Type} (a : α) (s : State) (k : α → State → Result β) :
    (Result.done a s).andThen k = k a s := rfl

@[simp] theorem Result.raised_andThen {α β : Type} (e : ErrorKind) (s : State) (k : α → State → Result β) :
    (Result.raised e s).andThen k = .raised e s := rfl

@[simp] theorem Result.waiting_andThen {α β : Type} (s : State) (k : α → State → Result β) :
    (Result.waiting s).andThen k = .waiting s := rfl

@[simp] theorem Result.state_done {α : Type} (a : α) (s : State) : (Result.done a s).state = s := rfl
@[simp] theorem Result.state_raised {α : Type} (e : ErrorKind) (s : State) :
    (Result.raised e s : Result α).state = s := rfl
@[simp] theorem Result.state_waiting {α : Type} (s : State) : (Result.waiting s : Result α).state = s := rfl

/-- A sequence ends where its second part ends, or where its first part stopped. -/
theorem Result.andThen_eq_done {α β : Type} {r : Result α} {k : α → State → Result β} {b : β} {t : State} :
    r.andThen k = .done b t ↔ ∃ a s, r = .done a s ∧ k a s = .done b t := by
  cases r <;> simp

theorem Result.andThen_eq_raised {α β : Type} {r : Result α} {k : α → State → Result β} {e : ErrorKind}
    {t : State} :
    r.andThen k = .raised e t ↔ r = .raised e t ∨ ∃ a s, r = .done a s ∧ k a s = .raised e t := by
  cases r <;> simp

theorem Result.andThen_eq_waiting {α β : Type} {r : Result α} {k : α → State → Result β} {t : State} :
    r.andThen k = .waiting t ↔ r = .waiting t ∨ ∃ a s, r = .done a s ∧ k a s = .waiting t := by
  cases r <;> simp

/-- A property of states that both parts keep holds where the sequence ends. -/
theorem Result.andThen_state {α β : Type} {P : State → Prop} {r : Result α} {k : α → State → Result β}
    (h1 : P r.state) (h2 : ∀ a s, r = .done a s → P (k a s).state) : P (r.andThen k).state := by
  cases r with
  | done a s => exact h2 a s rfl
  | raised e s => exact h1
  | waiting s => exact h1

theorem Result.andThen_assoc {α β γ : Type} (r : Result α) (k : α → State → Result β) (l : β → State → Result γ) :
    (r.andThen k).andThen l = r.andThen fun a s => (k a s).andThen l := by
  cases r <;> rfl

/-! ### The tests -/

@[simp] theorem Result.refuseIf_false (e : ErrorKind) (s : State) : Result.refuseIf false e s = .done () s := rfl
@[simp] theorem Result.refuseIf_true (e : ErrorKind) (s : State) : Result.refuseIf true e s = .raised e s := rfl

@[simp] theorem Result.refuseIf_state (bad : Bool) (e : ErrorKind) (s : State) :
    (Result.refuseIf bad e s).state = s := by
  cases bad <;> rfl

/-- The two tests of R243 items 3 and 4: the state test first, then `buflen`. -/
theorem checkState_eq (legal : Bool) (s : State) :
    checkState legal s =
      if legal = false then .raised .invalidState s
      else if 16 < s.ctx.buflen then .raised .invalidArgument s
      else .done () s := by
  cases legal
  · rfl
  · show Result.refuseIf (decide (16 < s.ctx.buflen)) .invalidArgument s = if 16 < s.ctx.buflen then _ else _
    by_cases h : 16 < s.ctx.buflen
    · rw [decide_eq_true h, if_pos h]; rfl
    · rw [decide_eq_false h, if_neg h]; rfl

@[simp] theorem checkState_illegal (s : State) : checkState false s = .raised .invalidState s := rfl

theorem checkState_ok {s : State} (h : s.ctx.buflen ≤ 16) : checkState true s = .done () s := by
  rw [checkState_eq, if_neg (by decide), if_neg (BitVec.not_lt.mpr h)]

@[simp] theorem checkState_state (legal : Bool) (s : State) : (checkState legal s).state = s := by
  rw [checkState_eq]; split
  · rfl
  · split <;> rfl

theorem checkState_done {legal : Bool} {s t : State} {u : Unit} (h : checkState legal s = .done u t) :
    legal = true ∧ s.ctx.buflen ≤ 16 ∧ t = s := by
  rw [checkState_eq] at h
  split at h
  · cases h
  · rename_i hl
    split at h
    · cases h
    · rename_i hb
      exact ⟨by simpa using hl, BitVec.not_lt.mp hb, by injection h with _ h; exact h.symm⟩

/-! ### The adapter -/

/-- The state in which a transaction's answer arrives. -/
def State.encrypted (s : State) (B : Block) : State :=
  s.transact (.encrypt s.ctx.sched B (s.adapter.encrypt s.ctx.sched B).1) (s.adapter.encrypt s.ctx.sched B).2

theorem enc_ok {s : State} {B out : Block} (h : (s.adapter.encrypt s.ctx.sched B).1 = .ok out) :
    enc B s = .done out (s.encrypted B) := by
  simp only [enc, h, State.encrypted]

theorem enc_notOk {s : State} {B : Block} (h : (s.adapter.encrypt s.ctx.sched B).1 = .notOk) :
    enc B s = .raised .invalidCipher (s.encrypted B) := by
  simp only [enc, h, State.encrypted]

theorem enc_silent {s : State} {B : Block} (h : (s.adapter.encrypt s.ctx.sched B).1 = .silent) :
    enc B s = .waiting (s.encrypted B) := by
  simp only [enc, h, State.encrypted]

@[simp] theorem enc_state (B : Block) (s : State) : (enc B s).state = s.encrypted B := by
  cases h : (s.adapter.encrypt s.ctx.sched B).1
  · rw [enc_ok h]; rfl
  · rw [enc_notOk h]; rfl
  · rw [enc_silent h]; rfl

/-- An `Enc` that ended with a value: the adapter answered it (R48). -/
theorem enc_done {s t : State} {B out : Block} (h : enc B s = .done out t) :
    s.adapter.encrypt s.ctx.sched B = (.ok out, t.adapter) ∧
      t = s.transact (.encrypt s.ctx.sched B (.ok out)) t.adapter := by
  cases h1 : (s.adapter.encrypt s.ctx.sched B).1
  · rw [enc_ok h1] at h
    injection h with ho ht
    subst ho ht
    exact ⟨Prod.ext h1 rfl, by rw [← h1]; rfl⟩
  · rw [enc_notOk h1] at h; cases h
  · rw [enc_silent h1] at h; cases h

/-- An `Enc` that raised: `InvalidCipher`, on a not-ok answer (R262). -/
theorem enc_raised {s t : State} {B : Block} {e : ErrorKind} (h : enc B s = .raised e t) :
    e = .invalidCipher ∧ s.adapter.encrypt s.ctx.sched B = (.notOk, t.adapter) ∧
      t = s.transact (.encrypt s.ctx.sched B .notOk) t.adapter := by
  cases h1 : (s.adapter.encrypt s.ctx.sched B).1
  · rw [enc_ok h1] at h; cases h
  · rw [enc_notOk h1] at h
    injection h with he ht
    subst he ht
    exact ⟨rfl, Prod.ext h1 rfl, by rw [← h1]; rfl⟩
  · rw [enc_silent h1] at h; cases h

/-- The state in which SETUP's answer arrives. -/
def State.afterSetup (s : State) (key : List Byte) : State :=
  s.transact (.setup key (s.adapter.setup key).1) (s.adapter.setup key).2

theorem adapterSetup_ok {s : State} {key : List Byte} {made : Handle × Byte}
    (h : (s.adapter.setup key).1 = .ok made) : adapterSetup key s = .done made (s.afterSetup key) := by
  simp only [adapterSetup, h, State.afterSetup]

theorem adapterSetup_notOk {s : State} {key : List Byte} (h : (s.adapter.setup key).1 = .notOk) :
    adapterSetup key s = .raised .invalidKey (s.afterSetup key) := by
  simp only [adapterSetup, h, State.afterSetup]

theorem adapterSetup_silent {s : State} {key : List Byte} (h : (s.adapter.setup key).1 = .silent) :
    adapterSetup key s = .waiting (s.afterSetup key) := by
  simp only [adapterSetup, h, State.afterSetup]

/-! ### A keystream block -/

theorem fetchKeystream_ok {s : State} {out : Block} (h : (s.adapter.encrypt s.ctx.sched s.ctx.Y).1 = .ok out) :
    fetchKeystream s = .done () ((s.encrypted s.ctx.Y).setCtx { s.ctx with buf := out, buflen := 0 }) := by
  rw [fetchKeystream, enc_ok h]; rfl

theorem fetchKeystream_notOk {s : State} (h : (s.adapter.encrypt s.ctx.sched s.ctx.Y).1 = .notOk) :
    fetchKeystream s = .raised .invalidCipher (s.encrypted s.ctx.Y) := by
  rw [fetchKeystream, enc_notOk h]; rfl

theorem fetchKeystream_silent {s : State} (h : (s.adapter.encrypt s.ctx.sched s.ctx.Y).1 = .silent) :
    fetchKeystream s = .waiting (s.encrypted s.ctx.Y) := by
  rw [fetchKeystream, enc_silent h]; rfl

/-- A keystream block that arrived: `buf` holds it and nothing else of the context changed but `buflen`. -/
theorem fetchKeystream_done {s t : State} {u : Unit} (h : fetchKeystream s = .done u t) :
    ∃ out, s.adapter.encrypt s.ctx.sched s.ctx.Y = (.ok out, t.adapter) ∧
      t = (s.transact (.encrypt s.ctx.sched s.ctx.Y (.ok out)) t.adapter).setCtx
        { s.ctx with buf := out, buflen := 0 } := by
  obtain ⟨out, s1, h1, h2⟩ := Result.andThen_eq_done.mp h
  obtain ⟨ha, hs⟩ := enc_done h1
  injection h2 with _ h2
  subst h2
  refine ⟨out, ha, ?_⟩
  rw [hs]
  rfl

/-! ### How a command ends -/

@[simp] theorem concludeCommand_done (creates : Bool) (before : Context) (data : List Byte) (s : State) :
    concludeCommand creates before (.done data s) = s.respond okCode data := rfl
@[simp] theorem concludeCommand_raised (creates : Bool) (before : Context) (k : ErrorKind) (s : State) :
    concludeCommand creates before (.raised k s) = s.takeError creates k := rfl
@[simp] theorem concludeCommand_waiting (creates : Bool) (before : Context) (s : State) :
    concludeCommand creates before (.waiting s) = s.wait before := rfl

@[simp] theorem concludeCommand_hasTable (creates : Bool) (before : Context) (r : Result (List Byte)) :
    (concludeCommand creates before r).hasTable = r.state.hasTable := by cases r <;> rfl
@[simp] theorem concludeCommand_adapter (creates : Bool) (before : Context) (r : Result (List Byte)) :
    (concludeCommand creates before r).adapter = r.state.adapter := by cases r <;> rfl
@[simp] theorem concludeCommand_ciph (creates : Bool) (before : Context) (r : Result (List Byte)) :
    (concludeCommand creates before r).ciph = r.state.ciph := by cases r <;> rfl
@[simp] theorem concludeCommand_cmd (creates : Bool) (before : Context) (r : Result (List Byte)) :
    (concludeCommand creates before r).cmd = r.state.cmd := by cases r <;> rfl

/-- What the end of a command does to RSP and, where no response is written, to the context: one response, or none and
the context the command found while it waits (R83, R302). -/
theorem concludeCommand_rsp (creates : Bool) (before : Context) (r : Result (List Byte)) :
    (∃ code data, (concludeCommand creates before r).rsp =
        r.state.rsp ++ response code (concludeCommand creates before r).ctx data ∧
        (concludeCommand creates before r).waiting = r.state.waiting) ∨
      ((concludeCommand creates before r).rsp = r.state.rsp ∧ (concludeCommand creates before r).waiting = true ∧
        (concludeCommand creates before r).ctx = before) := by
  cases r with
  | done data s => exact .inl ⟨okCode, data, rfl, rfl⟩
  | raised k s => exact .inl ⟨k.code, [], rfl, rfl⟩
  | waiting s => exact .inr ⟨rfl, rfl, rfl⟩

/-! ### Responses (R83, R85) -/

/-- A response without data: the status byte and a length of 0. -/
theorem response_nil (code : BitVec 4) (c : Context) :
    response code c [] = [statusByte code c.life c.mode, 0, 0, 0, 0] := rfl

/-- A response is never empty. -/
theorem response_ne_nil (code : BitVec 4) (c : Context) (data : List Byte) : response code c data ≠ [] := by
  simp [response]

theorem statusByte_ok_live_iv : statusByte okCode .live .iv = 0x04 := by decide
theorem statusByte_ok_live_aad : statusByte okCode .live .aad = 0x05 := by decide
theorem statusByte_ok_live_text : statusByte okCode .live .text = 0x06 := by decide
theorem statusByte_ok_final_text : statusByte okCode .final .text = 0x0A := by decide
theorem statusByte_ok_empty (m : Mode) : statusByte okCode .empty m = 0x00 := by cases m <;> decide

/-- The status byte of an error on a context that existed: `0x1c`, `0x2c`, `0x3c` (R245). -/
theorem statusByte_error_fault (k : ErrorKind) (m : Mode) :
    statusByte k.code .fault m = k.code ++ 0xC#4 := by cases k <;> cases m <;> decide

/-- The status byte of an error with no context: `code << 4` (R245). -/
theorem statusByte_error_empty (k : ErrorKind) (m : Mode) :
    statusByte k.code .empty m = k.code ++ 0x0#4 := by cases k <;> cases m <;> decide

/-- The code of a response can be read back from it. -/
theorem statusByte_code (code : BitVec 4) (l : Life) (m : Mode) :
    (statusByte code l m).extractLsb' 4 4 = code := by
  revert code; cases l <;> cases m <;> decide

theorem response_code_inj {code code' : BitVec 4} {c c' : Context} {data data' : List Byte}
    (h : response code c data = response code' c' data') : code = code' := by
  have h1 := (List.cons.inj h).1
  rw [← statusByte_code code c.life c.mode, h1, statusByte_code]

/-- Two success responses from one state carry the same data. -/
theorem response_data_inj {code code' : BitVec 4} {c c' : Context} {data data' : List Byte}
    (h : response code c data = response code' c' data') : data = data' := by
  have h1 := (List.cons.inj h).2
  have h2 := congrArg (List.drop 4) h1
  exact h2

end Sys2Proof.Machine
end

