-- ==== Sys2Proof/Laws/PerInstr.lean ====
section
/-! SUPPORT. The header fields read back from an encoder's header, and the family `HeaderSelects`: the header of
a well-formed command selects that command's own row of R78, and its encoding has the length of R72. -/

namespace Sys2Proof

/-- Bit by bit, a header built from its fields (R71). -/
theorem getLsbD_headerWord (op : BitVec 4) (dir tbl : Bool) (arg8 : Byte) (len16 : Nat) (i : Nat) :
    (headerWord op dir tbl arg8 len16).getLsbD i =
      if i < 16 then len16.testBit i else if i < 24 then arg8.getLsbD (i - 16)
      else if i < 26 then false else if i = 26 then tbl else if i = 27 then dir else op.getLsbD (i - 28) := by
  unfold headerWord
  simp only [BitVec.getLsbD_append, BitVec.getLsbD_ofNat, BitVec.getLsbD_ofBool]
  by_cases h1 : i < 16
  · simp only [h1, if_true, decide_true, Bool.true_and]
  · rw [if_neg h1, if_neg h1]
    by_cases h2 : i < 24
    · rw [if_pos (show i - 16 < 8 by omega), if_pos h2]
    · rw [if_neg (show ¬ i - 16 < 8 by omega), if_neg h2]
      by_cases h3 : i < 26
      · rw [if_pos (show i - 16 - 8 < 2 by omega), if_pos h3, Nat.zero_testBit, Bool.and_false]
      · rw [if_neg (show ¬ i - 16 - 8 < 2 by omega), if_neg h3]
        by_cases h4 : i = 26
        · rw [if_pos (show i - 16 - 8 - 2 < 1 by omega), if_pos h4, h4]; simp
        · rw [if_neg (show ¬ i - 16 - 8 - 2 < 1 by omega), if_neg h4]
          by_cases h5 : i = 27
          · rw [if_pos (show i - 16 - 8 - 2 - 1 < 1 by omega), if_pos h5, h5]; simp
          · rw [if_neg (show ¬ i - 16 - 8 - 2 - 1 < 1 by omega), if_neg h5]
            rfl

theorem headerWord_op (op : BitVec 4) (dir tbl : Bool) (arg8 : Byte) (len16 : Nat) :
    (headerWord op dir tbl arg8 len16).extractLsb' 28 4 = op := by
  ext i hi
  simp only [BitVec.getElem_extractLsb', getLsbD_headerWord]
  rw [if_neg (by omega), if_neg (by omega), if_neg (by omega), if_neg (by omega), if_neg (by omega)]
  rw [Nat.add_sub_cancel_left, BitVec.getLsbD_eq_getElem]

theorem hdrArg8_headerWord (op : BitVec 4) (dir tbl : Bool) (arg8 : Byte) (len16 : Nat) :
    hdrArg8 (headerWord op dir tbl arg8 len16) = arg8 := by
  ext i hi
  simp only [hdrArg8, BitVec.getElem_extractLsb', getLsbD_headerWord]
  rw [if_neg (by omega), if_pos (by omega), Nat.add_sub_cancel_left, BitVec.getLsbD_eq_getElem]

theorem hdrTbl_headerWord (op : BitVec 4) (dir tbl : Bool) (arg8 : Byte) (len16 : Nat) :
    hdrTbl (headerWord op dir tbl arg8 len16) = tbl := by
  rw [hdrTbl, getLsbD_headerWord]; rfl

theorem hdrDir_headerWord (op : BitVec 4) (dir : Direction) (tbl : Bool) (arg8 : Byte) (len16 : Nat) :
    hdrDir (headerWord op dir.bit tbl arg8 len16) = dir := by
  rw [hdrDir, getLsbD_headerWord]; cases dir <;> rfl

theorem hdrLen16_headerWord (op : BitVec 4) (dir tbl : Bool) (arg8 : Byte) {len16 : Nat} (h : len16 < 2 ^ 16) :
    hdrLen16 (headerWord op dir tbl arg8 len16) = len16 := by
  have : (headerWord op dir tbl arg8 len16).extractLsb' 0 16 = BitVec.ofNat 16 len16 := by
    ext i hi
    rw [BitVec.getElem_extractLsb', getLsbD_headerWord, if_pos (by omega), Nat.zero_add,
      ← BitVec.getLsbD_eq_getElem, BitVec.getLsbD_ofNat, decide_eq_true hi, Bool.true_and]
  rw [hdrLen16, this, BitVec.toNat_ofNat, Nat.mod_eq_of_lt h]

/-- A row whose opcode number differs does not select the header (R78: "their `op` fields differ"). -/
theorem not_selects_headerWord {r : OpcodeRow} {op : BitVec 4} (dir tbl : Bool) (arg8 : Byte) (len16 : Nat)
    (h : op &&& r.mask.extractLsb' 28 4 ≠ r.bits.extractLsb' 28 4) :
    r.selects (headerWord op dir tbl arg8 len16) = false := by
  simp only [OpcodeRow.selects, beq_eq_false_iff_ne]
  intro e
  apply h
  rw [← e, BitVec.extractLsb'_and, headerWord_op]

/-- A row selects the header when it does so bit by bit. -/
theorem selects_of_bits {r : OpcodeRow} {h : Header}
    (hb : ∀ i, i < 32 → (h.getLsbD i && r.mask.getLsbD i) = r.bits.getLsbD i) : r.selects h = true := by
  simp only [OpcodeRow.selects, beq_iff_eq]
  apply BitVec.eq_of_getLsbD_eq
  intro i hi
  rw [BitVec.getLsbD_and, hb i hi]

/-- The row of R78 a command belongs to. -/
def Instr.opcode : Instr → Opcode
  | .init _ _ _ => .init
  | .addIv _ => .addIv
  | .addAad _ => .addAad
  | .process _ _ => .process
  | .finish _ => .finish
  | .reset => .reset
  | .oneShot _ _ _ _ _ _ _ => .oneShot

/-- A header is found in the table when one row selects it and the rows before that one do not. -/
theorem lookupOpcode_of_find {h : Header} {r : OpcodeRow}
    (hf : (opcodeTable.find? fun r => r.selects h) = some r) : lookupOpcode h = some r.opcode := by
  rw [lookupOpcode, hf]; rfl

theorem length_be32 (w : BitVec 32) : (be32 w).length = 4 := rfl

/-- The header of the command selects its own row, and its encoding has the length R72 gives. -/
def Laws.HeaderSelects.Statement (i : Instr) : Prop :=
  i.wellFormed = true → lookupOpcode i.header = some i.opcode ∧ (encode i).length = i.byteLength

theorem Laws.HeaderSelects.init (tbl : Bool) (blockLen : Byte) (sched : Handle) :
    Laws.HeaderSelects.Statement (.init tbl blockLen sched) := by
  refine fun _ => ⟨lookupOpcode_of_find (r := ⟨.init, 0x10000000, 0xFB00FFFF⟩) ?_, ?_⟩
  · rw [opcodeTable,
      List.find?_cons_of_pos]
    refine selects_of_bits fun i hi => ?_
    rw [Instr.header, getLsbD_headerWord]
    interval_cases i <;> simp
  · rfl

theorem Laws.HeaderSelects.addIv (chunk : List Byte) :
    Laws.HeaderSelects.Statement (.addIv chunk) := by
  refine fun _ => ⟨lookupOpcode_of_find (r := ⟨.addIv, 0x20000000, 0xFFFF0000⟩) ?_, ?_⟩
  · rw [opcodeTable,
      List.find?_cons_of_neg (by rw [Instr.header, not_selects_headerWord _ _ _ _ (by decide)]; decide),
      List.find?_cons_of_pos]
    refine selects_of_bits fun i hi => ?_
    rw [Instr.header, getLsbD_headerWord]
    interval_cases i <;> simp
  · simp only [encode, Instr.operandBytes, Instr.byteLength, List.length_append, length_be32]

theorem Laws.HeaderSelects.addAad (chunk : List Byte) :
    Laws.HeaderSelects.Statement (.addAad chunk) := by
  refine fun _ => ⟨lookupOpcode_of_find (r := ⟨.addAad, 0x30000000, 0xFFFF0000⟩) ?_, ?_⟩
  · rw [opcodeTable,
      List.find?_cons_of_neg (by rw [Instr.header, not_selects_headerWord _ _ _ _ (by decide)]; decide),
      List.find?_cons_of_neg (by rw [Instr.header, not_selects_headerWord _ _ _ _ (by decide)]; decide),
      List.find?_cons_of_pos]
    refine selects_of_bits fun i hi => ?_
    rw [Instr.header, getLsbD_headerWord]
    interval_cases i <;> simp
  · simp only [encode, Instr.operandBytes, Instr.byteLength, List.length_append, length_be32]

theorem Laws.HeaderSelects.process (dir : Direction) (chunk : List Byte) :
    Laws.HeaderSelects.Statement (.process dir chunk) := by
  refine fun _ => ⟨lookupOpcode_of_find (r := ⟨.process, 0x40000000, 0xF7FF0000⟩) ?_, ?_⟩
  · rw [opcodeTable,
      List.find?_cons_of_neg (by rw [Instr.header, not_selects_headerWord _ _ _ _ (by decide)]; decide),
      List.find?_cons_of_neg (by rw [Instr.header, not_selects_headerWord _ _ _ _ (by decide)]; decide),
      List.find?_cons_of_neg (by rw [Instr.header, not_selects_headerWord _ _ _ _ (by decide)]; decide),
      List.find?_cons_of_pos]
    refine selects_of_bits fun i hi => ?_
    rw [Instr.header, getLsbD_headerWord]
    interval_cases i <;> simp
  · simp only [encode, Instr.operandBytes, Instr.byteLength, List.length_append, length_be32]

theorem Laws.HeaderSelects.finish (tagLen : Byte) :
    Laws.HeaderSelects.Statement (.finish tagLen) := by
  refine fun _ => ⟨lookupOpcode_of_find (r := ⟨.finish, 0x50000000, 0xFF00FFFF⟩) ?_, ?_⟩
  · rw [opcodeTable,
      List.find?_cons_of_neg (by rw [Instr.header, not_selects_headerWord _ _ _ _ (by decide)]; decide),
      List.find?_cons_of_neg (by rw [Instr.header, not_selects_headerWord _ _ _ _ (by decide)]; decide),
      List.find?_cons_of_neg (by rw [Instr.header, not_selects_headerWord _ _ _ _ (by decide)]; decide),
      List.find?_cons_of_neg (by rw [Instr.header, not_selects_headerWord _ _ _ _ (by decide)]; decide),
      List.find?_cons_of_pos]
    refine selects_of_bits fun i hi => ?_
    rw [Instr.header, getLsbD_headerWord]
    interval_cases i <;> simp
  · rfl

theorem Laws.HeaderSelects.reset :
    Laws.HeaderSelects.Statement .reset := by
  refine fun _ => ⟨lookupOpcode_of_find (r := ⟨.reset, 0x60000000, 0xFFFFFFFF⟩) ?_, ?_⟩
  · rw [opcodeTable,
      List.find?_cons_of_neg (by rw [Instr.header, not_selects_headerWord _ _ _ _ (by decide)]; decide),
      List.find?_cons_of_neg (by rw [Instr.header, not_selects_headerWord _ _ _ _ (by decide)]; decide),
      List.find?_cons_of_neg (by rw [Instr.header, not_selects_headerWord _ _ _ _ (by decide)]; decide),
      List.find?_cons_of_neg (by rw [Instr.header, not_selects_headerWord _ _ _ _ (by decide)]; decide),
      List.find?_cons_of_neg (by rw [Instr.header, not_selects_headerWord _ _ _ _ (by decide)]; decide),
      List.find?_cons_of_pos]
    refine selects_of_bits fun i hi => ?_
    rw [Instr.header, getLsbD_headerWord]
    interval_cases i <;> simp
  · rfl

theorem Laws.HeaderSelects.oneShot (dir : Direction) (tbl : Bool) (tagLen : Byte) (key iv aad payload : List Byte) :
    Laws.HeaderSelects.Statement (.oneShot dir tbl tagLen key iv aad payload) := by
  refine fun _ => ⟨lookupOpcode_of_find (r := ⟨.oneShot, 0x70000000, 0xF3000000⟩) ?_, ?_⟩
  · rw [opcodeTable,
      List.find?_cons_of_neg (by rw [Instr.header, not_selects_headerWord _ _ _ _ (by decide)]; decide),
      List.find?_cons_of_neg (by rw [Instr.header, not_selects_headerWord _ _ _ _ (by decide)]; decide),
      List.find?_cons_of_neg (by rw [Instr.header, not_selects_headerWord _ _ _ _ (by decide)]; decide),
      List.find?_cons_of_neg (by rw [Instr.header, not_selects_headerWord _ _ _ _ (by decide)]; decide),
      List.find?_cons_of_neg (by rw [Instr.header, not_selects_headerWord _ _ _ _ (by decide)]; decide),
      List.find?_cons_of_neg (by rw [Instr.header, not_selects_headerWord _ _ _ _ (by decide)]; decide),
      List.find?_cons_of_pos]
    refine selects_of_bits fun i hi => ?_
    rw [Instr.header, getLsbD_headerWord]
    interval_cases i <;> simp
  · simp only [encode, Instr.operandBytes, Instr.byteLength, List.length_append, length_be32]
    omega

end Sys2Proof
end

