-- ==== Sys2Proof/Laws/Step.lean ====
section
/-! SUPPORT. What a step can do, said once: `exec` is the end of one command's pseudocode, and `step` is one of three
things.  And how a property of states is carried through a sequence of operations. -/

namespace Sys2Proof.Machine

/-- The pseudocode of a command (R78's last column). -/
def commandBody : Instr → State → Result (List Byte)
  | .init tbl blockLen sched => initBody tbl blockLen sched
  | .addIv chunk => addIvBody chunk
  | .addAad chunk => addAadBody chunk
  | .process dir chunk => processBody dir chunk
  | .finish tagLen => finishBody tagLen
  | .reset => resetBody
  | .oneShot dir tbl tagLen key iv aad payload => oneShotBody dir tbl tagLen key iv aad payload

/-- Every command runs its pseudocode and ends as `concludeCommand` says. -/
theorem exec_eq (i : Instr) (s : State) :
    exec i s = .next (concludeCommand (createsContext i) s.ctx (commandBody i s)) := by
  cases i <;> rfl

/-- A command's next state is the end of its pseudocode. -/
theorem exec_next {i : Instr} {s t : State} (h : exec i s = .next t) :
    t = concludeCommand (createsContext i) s.ctx (commandBody i s) := by
  rw [exec_eq] at h
  injection h with h
  exact h.symm

/-- What a step that answers a next state did: nothing at a command boundary, an illegal header, or one command. -/
theorem step_cases {s t : State} (h : step s = .next t) :
    s.waiting = false ∧
      ((decode s.cmd = .idle ∧ t = s) ∨
        (∃ header rest, decode s.cmd = .illegal header rest ∧ t = (s.withCmd rest).illegalHeader) ∨
        (∃ i rest, decode s.cmd = .command i rest ∧
          t = concludeCommand (createsContext i) s.ctx (commandBody i (s.withCmd rest)))) := by
  unfold step at h
  split at h
  · cases h
  · rename_i hw
    refine ⟨by simpa using hw, ?_⟩
    split at h
    · rename_i hd
      injection h with h
      exact .inl ⟨hd, h.symm⟩
    · cases h
    · rename_i header rest hd
      injection h with h
      exact .inr (.inl ⟨header, rest, hd, h.symm⟩)
    · rename_i i rest hd
      exact .inr (.inr ⟨i, rest, hd, exec_next h⟩)

/-- A property of states holds where a result ended or waits; nothing is said where it raised an error. -/
def Result.Keeps {α : Type} (P : State → Prop) : Result α → Prop
  | .done _ s => P s
  | .raised _ _ => True
  | .waiting s => P s

@[simp] theorem Result.keeps_done {α : Type} {P : State → Prop} {a : α} {s : State} :
    (Result.done a s).Keeps P ↔ P s := Iff.rfl
@[simp] theorem Result.keeps_raised {α : Type} {P : State → Prop} {e : ErrorKind} {s : State} :
    (Result.raised e s : Result α).Keeps P := trivial
@[simp] theorem Result.keeps_waiting {α : Type} {P : State → Prop} {s : State} :
    (Result.waiting s : Result α).Keeps P ↔ P s := Iff.rfl

/-- A sequence keeps what its first part keeps and its second part keeps from where the first ended. -/
theorem Result.keeps_andThen {α β : Type} {P : State → Prop} {r : Result α} {k : α → State → Result β}
    (h1 : r.Keeps P) (h2 : ∀ a s, r = .done a s → P s → (k a s).Keeps P) : (r.andThen k).Keeps P := by
  cases r with
  | done a s => exact h2 a s rfl h1
  | raised e s => trivial
  | waiting s => exact h1

theorem Result.keeps_refuseIf {P : State → Prop} {bad : Bool} {e : ErrorKind} {s : State} (h : P s) :
    (Result.refuseIf bad e s).Keeps P := by
  cases bad
  · exact h
  · trivial

/-- After the two tests of a data command: the state is unchanged, legal, and its `buflen` is at most 16. -/
theorem Result.keeps_checkState {α : Type} {P : State → Prop} {legal : Bool} {s : State}
    {k : Unit → State → Result α} (h : legal = true → s.ctx.buflen ≤ 16 → (k () s).Keeps P) :
    ((checkState legal s).andThen k).Keeps P := by
  rw [checkState_eq]
  split
  · trivial
  · rename_i hl
    split
    · trivial
    · rename_i hb
      exact h (by simpa using hl) (BitVec.not_lt.mp hb)

/-- An `Enc` keeps a property that holds however the adapter answers. -/
theorem Result.keeps_enc {P : State → Prop} {B : Block} {s : State} (h : P (s.encrypted B)) : (enc B s).Keeps P := by
  cases h1 : (s.adapter.encrypt s.ctx.sched B).1
  · rw [enc_ok h1]; exact h
  · rw [enc_notOk h1]; trivial
  · rw [enc_silent h1]; exact h

@[simp] theorem State.encrypted_ctx (s : State) (B : Block) : (s.encrypted B).ctx = s.ctx := rfl
@[simp] theorem State.encrypted_hasTable (s : State) (B : Block) : (s.encrypted B).hasTable = s.hasTable := rfl
@[simp] theorem State.encrypted_cmd (s : State) (B : Block) : (s.encrypted B).cmd = s.cmd := rfl
@[simp] theorem State.encrypted_rsp (s : State) (B : Block) : (s.encrypted B).rsp = s.rsp := rfl
@[simp] theorem State.encrypted_waiting (s : State) (B : Block) : (s.encrypted B).waiting = s.waiting := rfl
@[simp] theorem State.encrypted_freeIndex (s : State) (B : Block) : (s.encrypted B).freeIndex = s.freeIndex := rfl
@[simp] theorem State.encrypted_adapter (s : State) (B : Block) :
    (s.encrypted B).adapter = (s.adapter.encrypt s.ctx.sched B).2 := rfl
@[simp] theorem State.encrypted_ciph (s : State) (B : Block) :
    (s.encrypted B).ciph = s.ciph ++ [.encrypt s.ctx.sched B (s.adapter.encrypt s.ctx.sched B).1] := rfl

end Sys2Proof.Machine
end

