-- ==== Sys2Proof/Laws/Table.lean ====
section
/-! SUPPORT. The laws of table generation (R129): `tableGen` is the pseudocode's writes, it is in canonical form,
and its entries read back. -/

namespace Sys2Proof.Machine

/-- Every cell of `m` lies below `k`. -/
abbrev Memory.endsBelow (k : Nat) (m : Memory) : Prop := ∀ c ∈ m, c.1 < k

/-- A write above every cell is appended. -/
theorem Memory.write_append {k : Nat} (v : Byte) {m : Memory} (h : Memory.endsBelow k m) :
    m.write k v = m ++ Memory.put k v [] := by
  induction m with
  | nil => rfl
  | cons c m ih =>
    obtain ⟨a, b⟩ := c
    have ha : a < k := h (a, b) List.mem_cons_self
    unfold Memory.write
    rw [if_neg (by omega), if_neg (by omega), ih fun d hd => h d (List.mem_cons_of_mem _ hd)]
    rfl

theorem Memory.mem_put_nil {k : Nat} {v : Byte} {c : Host.Cell} (h : c ∈ Memory.put k v []) :
    c = (k, v) ∧ v ≠ Memory.unlisted := by
  unfold Memory.put at h
  split at h
  · simp at h
  · rename_i hv
    exact ⟨by simpa using h, hv⟩

theorem Memory.endsBelow_append {k : Nat} {m n : Memory} (hm : Memory.endsBelow k m) (hn : Memory.endsBelow k n) :
    Memory.endsBelow k (m ++ n) := fun c hc =>
  (List.mem_append.1 hc).elim (hm c) (hn c)

theorem Memory.startsFrom_append {k : Nat} {m n : Memory} (hm : Memory.startsFrom k m)
    (hn : Memory.startsFrom k n) : Memory.startsFrom k (m ++ n) := fun c hc =>
  (List.mem_append.1 hc).elim (hm c) (hn c)

/-- Where a cell of an entry lies and what it holds. -/
theorem mem_entryCells {a : Nat} {B : Block} {c : Host.Cell} (h : c ∈ entryCells a B) :
    a ≤ c.1 ∧ c.1 < a + 16 ∧ c.2 ≠ Memory.unlisted := by
  obtain ⟨z, hz, hc⟩ := List.mem_flatMap.1 h
  obtain ⟨rfl, hv⟩ := Memory.mem_put_nil hc
  have := List.mem_range.1 hz
  exact ⟨by simp, by simpa using this, hv⟩

/-- An entry written above every cell is appended. -/
theorem memWrite16_append {a : Nat} (B : Block) {m : Memory} (h : Memory.endsBelow a m) :
    memWrite16 m a B = m ++ entryCells a B := by
  unfold memWrite16 entryCells
  have key : ∀ n ≤ 16, (List.range n).foldl (fun m z => m.write (a + z) (blockByte B z)) m =
      m ++ (List.range n).flatMap fun z => Memory.put (a + z) (blockByte B z) [] := by
    intro n
    induction n with
    | zero => simp
    | succ n ih =>
      intro hn
      rw [List.range_succ, List.foldl_append, ih (by omega), List.flatMap_append, List.foldl_cons, List.foldl_nil,
        Memory.write_append]
      · simp
      · intro c hc
        rcases List.mem_append.1 hc with hc | hc
        · exact Nat.lt_add_right _ (h c hc)
        · obtain ⟨z, hz, hc⟩ := List.mem_flatMap.1 hc
          obtain ⟨rfl, -⟩ := Memory.mem_put_nil hc
          simpa using List.mem_range.1 hz
  exact key 16 le_rfl

theorem mem_cellsFrom {a : Nat} {Bs : List Block} {c : Host.Cell} (h : c ∈ cellsFrom a Bs) :
    a ≤ c.1 ∧ c.1 < a + 16 * Bs.length ∧ c.2 ≠ Memory.unlisted := by
  induction Bs generalizing a with
  | nil => simp [cellsFrom] at h
  | cons B Bs ih =>
    rcases List.mem_append.1 h with h | h
    · obtain ⟨h1, h2, h3⟩ := mem_entryCells h
      exact ⟨h1, by simp; omega, h3⟩
    · obtain ⟨h1, h2, h3⟩ := ih h
      exact ⟨by omega, by simp; omega, h3⟩

theorem cellsFrom_append (a : Nat) (As Bs : List Block) :
    cellsFrom a (As ++ Bs) = cellsFrom a As ++ cellsFrom (a + 16 * As.length) Bs := by
  induction As generalizing a with
  | nil => simp [cellsFrom]
  | cons A As ih =>
    simp only [List.cons_append, cellsFrom, ih, List.append_assoc, List.length_cons]
    congr 3
    omega

/-- Two memories, the second above the first, joined. -/
theorem Memory.wf_append {k : Nat} {m n : Memory} (hm : m.wf) (hn : n.wf) (h1 : Memory.endsBelow k m)
    (h2 : Memory.startsFrom k n) : (m ++ n).wf := by
  refine ⟨List.pairwise_append.2 ⟨hm.1, hn.1, fun c hc d hd => (h1 c hc).trans_le (h2 d hd)⟩, fun c hc => ?_⟩
  exact (List.mem_append.1 hc).elim (hm.2 c) (hn.2 c)

theorem wf_entryCells {a : Nat} (ha : a + 16 ≤ 65536) (B : Block) : (entryCells a B).wf := by
  have := memWrite16_append (a := a) B (m := []) (by simp [Memory.endsBelow])
  rw [List.nil_append] at this
  exact this ▸ wf_memWrite16 Memory.wf_nil ha B

theorem wf_cellsFrom {a : Nat} {Bs : List Block} (h : a + 16 * Bs.length ≤ 65536) : (cellsFrom a Bs).wf := by
  induction Bs generalizing a with
  | nil => exact Memory.wf_nil
  | cons B Bs ih =>
    rw [List.length_cons] at h
    refine Memory.wf_append (k := a + 16) (wf_entryCells (by omega) B) (ih (by omega)) ?_ ?_
    · exact fun c hc => (mem_entryCells hc).2.1
    · exact fun c hc => (mem_cellsFrom hc).1

theorem Memory.read_append_left {k j : Nat} {m n : Memory} (h : Memory.startsFrom k n) (hj : j < k) :
    Memory.read (m ++ n) j = m.read j := by
  induction m with
  | nil => exact Memory.read_of_startsFrom h hj
  | cons c m ih =>
    obtain ⟨a, b⟩ := c
    rw [List.cons_append, Memory.read_cons, Memory.read_cons, ih]

theorem Memory.read_append_right {k j : Nat} {m n : Memory} (h : Memory.endsBelow k m) (hj : k ≤ j) :
    Memory.read (m ++ n) j = Memory.read n j := by
  induction m with
  | nil => rfl
  | cons c m ih =>
    have := h c List.mem_cons_self
    rw [List.cons_append, Memory.read_cons, if_neg (by omega)]
    exact ih fun d hd => h d (List.mem_cons_of_mem _ hd)

theorem memRead16_entryCells {a : Nat} (ha : a + 16 ≤ 65536) (B : Block) : memRead16 (entryCells a B) a = B := by
  have := memWrite16_append (a := a) B (m := []) (by simp [Memory.endsBelow])
  rw [List.nil_append] at this
  rw [← this, memRead16_memWrite16_self Memory.wf_nil ha]

/-- Entry `k` of a run of entries reads back. -/
theorem memRead16_cellsFrom {a : Nat} {Bs : List Block} (h : a + 16 * Bs.length ≤ 65536) {k : Nat}
    (hk : k < Bs.length) : memRead16 (cellsFrom a Bs) (a + 16 * k) = Bs[k] := by
  induction Bs generalizing a k with
  | nil => simp at hk
  | cons B Bs ih =>
    rw [List.length_cons] at h hk
    cases k with
    | zero =>
      rw [Nat.mul_zero, Nat.add_zero, List.getElem_cons_zero]
      refine Eq.trans ?_ (memRead16_entryCells (a := a) (by omega) B)
      exact memRead16_congr fun z hz =>
        Memory.read_append_left (k := a + 16) (fun c hc => (mem_cellsFrom hc).1) (by omega)
    | succ k =>
      rw [List.getElem_cons_succ, ← ih (a := a + 16) (by omega) (by omega)]
      have e : a + 16 * (k + 1) = a + 16 + 16 * k := by omega
      rw [e]
      exact memRead16_congr fun z hz =>
        Memory.read_append_right (k := a + 16) (fun c hc => (mem_entryCells hc).2.1) (by omega)

/-! ### The rows -/

/-- `MulX8` applied `n` times. -/
def mulX8Times : Nat → Block → Block
  | 0, B => B
  | n + 1, B => mulX8Times n (mulX8 B)

@[simp] theorem length_tableRow0 (H : Block) : (tableRow0 H).length = 256 := by simp [tableRow0]

theorem length_flatten_tableRows (n : Nat) (row : List Block) :
    (tableRows n row).flatten.length = n * row.length := by
  induction n generalizing row with
  | zero => simp [tableRows]
  | succ n ih => simp [tableRows, ih, Nat.succ_mul, Nat.add_comm]

@[simp] theorem length_tableEntries (H : Block) : (tableRows 16 (tableRow0 H)).flatten.length = 4096 := by
  rw [length_flatten_tableRows, length_tableRow0]

/-- Entry `v` of row `i`. -/
theorem getElem_flatten_tableRows {n i v : Nat} {row : List Block} (hi : i < n) (hv : v < row.length)
    (h : row.length * i + v < (tableRows n row).flatten.length) :
    (tableRows n row).flatten[row.length * i + v] = mulX8Times i row[v] := by
  induction n generalizing i row with
  | zero => omega
  | succ n ih =>
    cases i with
    | zero => simp [tableRows, mulX8Times, List.getElem_append_left, hv]
    | succ i =>
      simp only [tableRows, List.flatten_cons]
      rw [List.getElem_append_right (by rw [Nat.mul_succ]; omega)]
      have e : row.length * (i + 1) + v - row.length = (row.map mulX8).length * i + v := by
        rw [List.length_map, Nat.mul_succ]; omega
      simp only [e]
      rw [ih (by omega) (by simpa using hv)]
      simp [mulX8Times]

/-- The table after generation is in canonical form. -/
theorem wf_tableGen (H : Block) : (tableGen H).wf := wf_cellsFrom (by rw [length_tableEntries])

/-- Entry `PC[i][v]` of the generated table: `MulX8` applied `i` times to `PC[0][v]` (R129). -/
theorem memRead16_tableGen (H : Block) {i v : Nat} (hi : i < 16) (hv : v < 256) :
    memRead16 (tableGen H) (tableAddress i v) = mulX8Times i (gfMult H (unit (BitVec.ofNat 8 v) 0)) := by
  have ha : tableAddress i v = 0 + 16 * (256 * i + v) := by unfold tableAddress; omega
  have hk : (tableRow0 H).length * i + v < (tableRows 16 (tableRow0 H)).flatten.length := by
    rw [length_tableEntries, length_tableRow0]; omega
  rw [ha]
  unfold tableGen
  rw [memRead16_cellsFrom (by rw [length_tableEntries]) (by rw [length_tableEntries]; omega)]
  have := getElem_flatten_tableRows hi (by rw [length_tableRow0]; exact hv) hk
  simp only [length_tableRow0] at this
  rw [this]
  simp [tableRow0]

/-! ### The pseudocode of R129, access by access -/

/-- A run of entries written above every cell, entry by entry. -/
theorem foldl_memWrite16_append (f : Nat → Block) (a n : Nat) {m : Memory} (h : Memory.endsBelow a m) :
    (List.range n).foldl (fun m v => memWrite16 m (a + 16 * v) (f v)) m =
      m ++ cellsFrom a ((List.range n).map f) := by
  induction n with
  | zero => simp [cellsFrom]
  | succ n ih =>
    rw [List.range_succ, List.foldl_append, ih, List.map_append, cellsFrom_append, List.foldl_cons, List.foldl_nil,
      memWrite16_append]
    · simp [cellsFrom]
    · refine Memory.endsBelow_append (fun c hc => Nat.lt_add_right _ (h c hc)) fun c hc => ?_
      simpa using (mem_cellsFrom hc).2.1

/-- One row of the second loop: reading the row before it is not disturbed by the writes. -/
theorem writeNextRow_append {i : Nat} (hi : 0 < i) {m : Memory} (h : Memory.endsBelow (tableAddress i 0) m) :
    writeNextRow m i = m ++ cellsFrom (tableAddress i 0)
      ((List.range 256).map fun v => mulX8 (memRead16 m (tableAddress (i - 1) v))) := by
  unfold writeNextRow
  have key : ∀ n ≤ 256, (List.range n).foldl
      (fun m v => memWrite16 m (tableAddress i v) (mulX8 (memRead16 m (tableAddress (i - 1) v)))) m =
      (List.range n).foldl
        (fun m' v => memWrite16 m' (tableAddress i 0 + 16 * v) (mulX8 (memRead16 m (tableAddress (i - 1) v)))) m := by
    intro n
    induction n with
    | zero => simp
    | succ n ih =>
      intro hn
      rw [List.range_succ, List.foldl_append, List.foldl_append, ih (by omega)]
      simp only [List.foldl_cons, List.foldl_nil]
      rw [foldl_memWrite16_append _ _ _ h]
      have ha : tableAddress i n = tableAddress i 0 + 16 * n := by simp [tableAddress]
      rw [ha]
      refine congrArg (memWrite16 _ _) (congrArg mulX8 (memRead16_congr fun z hz => ?_))
      refine Memory.read_append_left (k := tableAddress i 0) (fun c hc => (mem_cellsFrom hc).1) ?_
      unfold tableAddress
      omega
  rw [key 256 le_rfl, foldl_memWrite16_append _ _ _ h]

/-- The rows of `tableRows` one after another. -/
theorem flatten_tableRows_succ (n : Nat) (row : List Block) :
    (tableRows (n + 1) row).flatten = (tableRows n row).flatten ++ row.map (mulX8Times n) := by
  induction n generalizing row with
  | zero =>
    have : (mulX8Times 0 : Block → Block) = id := rfl
    simp [tableRows, this]
  | succ n ih =>
    rw [tableRows, List.flatten_cons, ih]
    conv_rhs => rw [tableRows, List.flatten_cons]
    simp [mulX8Times, Function.comp_def]

theorem mulX8Times_succ (n : Nat) (B : Block) : mulX8Times (n + 1) B = mulX8 (mulX8Times n B) := by
  induction n generalizing B with
  | zero => rfl
  | succ n ih => rw [mulX8Times, ih]; rfl

/-- The first loop of R129 writes row 0. -/
theorem writeRow0_eq (H : Block) : writeRow0 H [] = cellsFrom 0 (tableRow0 H) := by
  have h := foldl_memWrite16_append (fun v => gfMult H (unit (BitVec.ofNat 8 v) 0)) 0 256 (m := [])
    (by simp [Memory.endsBelow])
  have e : ∀ v, tableAddress 0 v = 0 + 16 * v := fun v => by unfold tableAddress; omega
  unfold writeRow0 tableRow0
  simp only [e]
  rw [h, List.nil_append]

/-- The entries one turn of the second loop reads and multiplies are those of the row before it. -/
theorem nextRow_entries (H : Block) {n : Nat} {m : Memory}
    (hm : ∀ v, v < 256 → memRead16 m (tableAddress n v) = mulX8Times n ((tableRow0 H).getD v 0)) :
    ((List.range 256).map fun v => mulX8 (memRead16 m (tableAddress n v))) =
      (tableRow0 H).map (mulX8Times (n + 1)) := by
  refine List.ext_getElem (by rw [List.length_map, List.length_map, List.length_range, length_tableRow0])
    fun v hv hv2 => ?_
  rw [List.length_map, List.length_range] at hv
  rw [List.length_map] at hv2
  rw [List.getElem_map, List.getElem_map, List.getElem_range, hm v hv, mulX8Times_succ, List.getD_eq_getElem _ _ hv2]

theorem flatten_tableRows_one (row : List Block) : (tableRows (0 + 1) row).flatten = row := by
  simp [tableRows]

/-- After `n` turns of the second loop, rows 0 to `n` are written. -/
theorem writeNextRows_eq (H : Block) (n : Nat) (hn : n ≤ 15) :
    (List.range' 1 n).foldl writeNextRow (writeRow0 H []) =
      cellsFrom 0 (tableRows (n + 1) (tableRow0 H)).flatten := by
  induction n with
  | zero =>
    rw [List.range'_zero, List.foldl_nil, writeRow0_eq, flatten_tableRows_one]
  | succ n ih =>
    have hlen : (tableRows (n + 1) (tableRow0 H)).flatten.length = 256 * (n + 1) := by
      rw [length_flatten_tableRows, length_tableRow0, Nat.mul_comm]
    have hi : 1 + 1 * n - 1 = n := by omega
    have ha : tableAddress (1 + 1 * n) 0 = 0 + 16 * (256 * (n + 1)) := by unfold tableAddress; omega
    rw [List.range'_concat, List.foldl_append, ih (by omega), List.foldl_cons, List.foldl_nil,
      writeNextRow_append (by omega), flatten_tableRows_succ (n + 1), cellsFrom_append, hlen, hi, ha,
      nextRow_entries H]
    · intro v hv
      have hv' : v < (tableRow0 H).length := by rw [length_tableRow0]; exact hv
      have he : tableAddress n v = 0 + 16 * ((tableRow0 H).length * n + v) := by
        rw [length_tableRow0]; unfold tableAddress; omega
      have hk : (tableRow0 H).length * n + v < (tableRows (n + 1) (tableRow0 H)).flatten.length := by
        rw [hlen, length_tableRow0]; omega
      rw [he, memRead16_cellsFrom (by rw [hlen]; omega) hk, getElem_flatten_tableRows (by omega) hv' hk,
        List.getD_eq_getElem _ _ hv']
    · intro c hc
      have := (mem_cellsFrom hc).2.1
      rw [hlen] at this
      unfold tableAddress
      omega

/-- `tableGen` is the pseudocode of R129. -/
theorem tableGenByWrites_eq (H : Block) : tableGenByWrites H = tableGen H := by
  unfold tableGenByWrites tableGen
  rw [writeNextRows_eq H 15 (Nat.le_refl 15)]

end Sys2Proof.Machine
end

