-- ==== Sys2Proof/Tests/Slice0.lean ====
section
/-! SUPPORT. Tests on fixed values, every expected value from the spec's own vectors (`95_test_vectors.md`,
`96_test_vectors_families.md`) or written out from its rules, and one witness for the hypotheses of each statement.

The toy cipher of `95_test_vectors.md` section 3 is `E(B) = B xor K`; a scripted adapter gives its answers. -/

namespace Sys2Proof.Tests

open Sys2Proof.Machine

/-! ### WellFormed refuses what no encoding can hold -/

/-- A string of more bytes than a 16-bit length field counts does not fit one. -/
theorem replicate_not_fits16 {n : Nat} (h : 2 ^ 16 ≤ n) (b : Byte) : decide (fits16 (List.replicate n b)) = false :=
  decide_eq_false (by rw [fits16, List.length_replicate]; omega)

theorem replicate_not_fits32 {n : Nat} (h : 2 ^ 32 ≤ n) (b : Byte) : decide (fits32 (List.replicate n b)) = false :=
  decide_eq_false (by rw [fits32, List.length_replicate]; omega)

theorem test_wellFormed_refuses_long_iv_chunk : (Instr.addIv (List.replicate (2 ^ 16) 0)).wellFormed = false :=
  replicate_not_fits16 (Nat.le_refl _) 0

theorem test_wellFormed_refuses_long_aad_chunk : (Instr.addAad (List.replicate (2 ^ 16) 0)).wellFormed = false :=
  replicate_not_fits16 (Nat.le_refl _) 0

theorem test_wellFormed_refuses_long_payload_chunk :
    (Instr.process .encrypt (List.replicate (2 ^ 16) 0)).wellFormed = false :=
  replicate_not_fits16 (Nat.le_refl _) 0

theorem test_wellFormed_refuses_long_key :
    (Instr.oneShot .encrypt false 16 (List.replicate (2 ^ 16) 0) [] [] []).wellFormed = false := by
  rw [Instr.wellFormed, replicate_not_fits16 (Nat.le_refl _)]; rfl

theorem test_wellFormed_refuses_long_iv :
    (Instr.oneShot .encrypt false 16 [] (List.replicate (2 ^ 32) 0) [] []).wellFormed = false := by
  rw [Instr.wellFormed, replicate_not_fits32 (Nat.le_refl _)]; rfl

theorem test_wellFormed_refuses_long_aad :
    (Instr.oneShot .encrypt false 16 [] [] (List.replicate (2 ^ 32) 0) []).wellFormed = false := by
  rw [Instr.wellFormed, replicate_not_fits32 (Nat.le_refl _)]; rfl

theorem test_wellFormed_refuses_long_payload :
    (Instr.oneShot .encrypt false 16 [] [] [] (List.replicate (2 ^ 32) 0)).wellFormed = false := by
  rw [Instr.wellFormed, replicate_not_fits32 (Nat.le_refl _)]; rfl

theorem test_wellFormed_longest_chunk : (Instr.addIv (List.replicate (2 ^ 16 - 1) 0)).wellFormed = true := by
  simp only [Instr.wellFormed, fits16, List.length_replicate]; rfl

/-! ### Decoding words written out from the spec (96 section 4.3) -/

theorem test_decode_init :
    decode [0x10, 0x10, 0, 0, 0xDE, 0xAD, 0xBE, 0xEF] = .command (.init false 16 0xDEADBEEF) [] := by decide

theorem test_decode_init_table :
    decode [0x14, 0x10, 0, 0, 0, 0, 0, 1, 0x60] = .command (.init true 16 1) [0x60] := by decide

theorem test_decode_addIv :
    decode [0x20, 0, 0, 0x0C, 0xCA, 0xFE, 0xBA, 0xBE, 0xFA, 0xCE, 0xDB, 0xAD, 0xDE, 0xCA, 0xF8, 0x88] =
      .command (.addIv [0xCA, 0xFE, 0xBA, 0xBE, 0xFA, 0xCE, 0xDB, 0xAD, 0xDE, 0xCA, 0xF8, 0x88]) [] := by decide

theorem test_decode_addAad :
    decode [0x30, 0, 0, 4, 0xFE, 0xED, 0xFA, 0xCE] = .command (.addAad [0xFE, 0xED, 0xFA, 0xCE]) [] := by decide

theorem test_decode_process_decrypt :
    decode [0x48, 0, 0, 3, 0xAA, 0xBB, 0xCC] = .command (.process .decrypt [0xAA, 0xBB, 0xCC]) [] := by decide

theorem test_decode_process_encrypt : decode [0x40, 0, 0, 0] = .command (.process .encrypt []) [] := by decide

theorem test_decode_finish : decode [0x50, 0x0C, 0, 0] = .command (.finish 12) [] := by decide

theorem test_decode_reset : decode [0x60, 0, 0, 0] = .command .reset [] := by decide

/-- 96 section 4.3, last row. -/
theorem test_decode_oneShot :
    decode [0x7C, 0x04, 0, 0x10, 0, 0, 0, 3, 0, 0, 0, 1, 0, 0, 0, 2,
            0, 1, 2, 3, 4, 5, 6, 7, 8, 9, 0xA, 0xB, 0xC, 0xD, 0xE, 0xF, 0xA0, 0xA1, 0xA2, 0xC0, 0x40, 0x41] =
      .command (.oneShot .decrypt true 4 [0, 1, 2, 3, 4, 5, 6, 7, 8, 9, 0xA, 0xB, 0xC, 0xD, 0xE, 0xF]
        [0xA0, 0xA1, 0xA2] [0xC0] [0x40, 0x41]) [] := by decide

theorem test_encode_oneShot :
    encode (.oneShot .decrypt true 4 [1] [0xA0, 0xA1, 0xA2] [0xC0] [0x40, 0x41]) =
      [0x7C, 0x04, 0, 1, 0, 0, 0, 3, 0, 0, 0, 1, 0, 0, 0, 2, 1, 0xA0, 0xA1, 0xA2, 0xC0, 0x40, 0x41] := by decide

/-- 96 section 4.3: `op = 0`, and a bit of `zero` set in an INIT. -/
theorem test_decode_illegal_op : decode [0, 0, 0, 0, 0x60] = .illegal 0 [0x60] := by decide
theorem test_decode_illegal_zero : decode [0x11, 0x10, 0, 0] = .illegal 0x11100000 [] := by decide
theorem test_decode_incomplete : decode [0x20, 0, 0, 2, 1] = .incomplete := by decide

theorem test_decodeTableWord_init : decodeTableWord 64 (0x00000001_14100000) = some (.init true 16 1) := by decide
theorem test_decodeTableWord_addIv : decodeTableWord 32 0x20000003 = some (.addIv [0, 0, 0]) := by decide

/-! ### The field multiplier and the counter (96 sections 4.1 and 4.2) -/

def H0 : Block := 0x66e94bd4ef8a2c3b884cfa59ca342b2e

theorem test_mulX : mulX H0 = 0x3374a5ea77c5161dc4267d2ce51a1597 := by decide
theorem test_mulX_reduces : mulX 1 = 0xe1000000000000000000000000000000 := by decide
theorem test_gfMult :
    gfMult 0x0388dace60b6a392f328c2b971b2fe78 H0 = 0x5e2ec746917062882c85b0685353deb7 := by decide
theorem test_gfMult_square : gfMult 1 1 = 0xe6080000000000000000000000000003 := by decide +kernel
theorem test_mulX8 : mulX8 H0 = 0x32bae94bd4ef8a2c3b884cfa59ca342b := by decide
theorem test_red : red 0x81 = 0xe0c2 ∧ red 0xAA = 0xd4d4 ∧ red 0xFF = 0xbebe := by decide

/-- `PC[0][0x01]` and `PC[15][0xff]` of H0: the entry before any row step and the last one. -/
theorem test_table_first : (tableRow0 H0)[1]? = some 0x6575d297a9df1458771099f4b3946856 := by
  rw [tableRow0, List.getElem?_map, List.getElem?_range (by decide)]
  decide
theorem test_table_last :
    mulX8Times 15 (gfMult H0 (unit 0xFF 0)) = 0xf5d7dc64509a99312071daae91b250eb := by decide

theorem test_inc32_wraps : inc32 0xffffffffffffffffffffffffffffffff = 0xffffffffffffffffffffffff00000000 := by decide
theorem test_inc32_carries : inc32 0xff = 0x100 := by decide

/-! ### Small states -/

/-- The toy key K, which is also H. -/
def toyH : Block := 0x000102030405060708090a0b0c0d0e0f

/-- A machine with nothing on its ports and a scripted adapter. -/
def idle (c : Context) (encrypts : List (Option Block)) : State :=
  { ctx := c, hasTable := true, adapter := .scripted encrypts [], ciph := [], cmd := [], rsp := [],
    waiting := false, freeIndex := 0 }

/-- A context of the toy key in the given phase. -/
def toyContext (life : Life) (mode : Mode) : Context :=
  { Context.powerOn with sched := 1, H := toyH, life := life, mode := mode }

/-- A LIVE machine of the toy key in the given phase. -/
def live (mode : Mode) (encrypts : List (Option Block)) : State := idle (toyContext .live mode) encrypts

/-- The next state, when there is one. -/
def next? (o : Host.Outcome State Fault Refusal) : Option State :=
  match o with
  | .next t => some t
  | _ => none

/-- One field of the next state of a command. -/
def afterward {α : Type} (i : Instr) (s : State) (field : State → α) : Option α := (next? (exec i s)).map field

/-! ### One step of each command -/

/-- 95 section 3.1, command 1. -/
theorem test_init :
    afterward (.init false 16 1) (idle Context.powerOn [some toyH]) (fun t => (t.rsp, t.ciph, t.ctx.H, t.ctx.life)) =
      some ([4, 0, 0, 0, 0], [.encrypt 1 0 (.ok toyH)], toyH, .live) := by decide

/-- R243: `INIT sched=1, blk=8, tbl` without table memory reports `InvalidCipher`. -/
theorem test_init_error_order :
    afterward (.init true 8 1) { idle Context.powerOn [] with hasTable := false } State.rsp =
      some [0x30, 0, 0, 0, 0] := by decide

/-- 95 section 3.2, command 2: 17 IV bytes. -/
theorem test_addIv :
    afterward (.addIv [0xA0, 0xA1, 0xA2, 0xA3, 0xA4, 0xA5, 0xA6, 0xA7, 0xA8, 0xA9, 0xAA, 0xAB, 0xAC, 0xAD, 0xAE, 0xAF,
        0xB0]) (live .iv []) (fun t => (t.ctx.X, t.ctx.buf, t.ctx.buflen, t.ctx.ivmode, t.ctx.totlen)) =
      some (0x6b49f377072de0bb136db4fb40a1a737, 0xb0a1a2a3a4a5a6a7a8a9aaabacadaeaf, 1, true, 128) := by decide +kernel

/-- R85: ADD_IV after ADD_AAD returns `0x1c`. -/
theorem test_addIv_wrong_phase :
    afterward (.addIv []) (live .aad []) (fun t => (t.rsp, t.ctx.life)) = some ([0x1C, 0, 0, 0, 0], .fault) := by decide

/-- 95 section 3.2, command 3: the GHASH path of IvClose, then 19 AAD bytes. -/
theorem test_addAad :
    afterward (.addAad [0xC0, 0xC1, 0xC2, 0xC3, 0xC4, 0xC5, 0xC6, 0xC7, 0xC8, 0xC9, 0xCA, 0xCB, 0xCC, 0xCD, 0xCE, 0xCF,
        0xD0, 0xD1, 0xD2])
      (idle { toyContext .live .iv with
          X := 0x6b49f377072de0bb136db4fb40a1a737, buf := 0xb0a1a2a3a4a5a6a7a8a9aaabacadaeaf, buflen := 1, ivmode := true, totlen := 128 } [])
      (fun t => (t.ctx.X, t.ctx.Y, t.ctx.Y0, t.ctx.buflen, t.ctx.totlen)) =
      some (0x5a987005866bb08f91e1e705c36bf58f, 0x6e03553f950f9d232197dd55d7cc58ef,
        0x6e03553f950f9d232197dd55d7cc58ef, 3, 128) := by decide +kernel

/-- R166's first example: twelve zero IV bytes give the counter `00 .. 00 01`. -/
theorem test_addAad_direct_path :
    afterward (.addAad []) (idle { toyContext .live .iv with buflen := 12 } []) (fun t => (t.ctx.Y, t.ctx.Y0, t.rsp)) =
      some (1, 1, [5, 0, 0, 0, 0]) := by decide

/-- 95 section 3.1, scenario 2, command 3: 32 zero bytes after a direct IV, two keystream requests. -/
theorem test_process :
    afterward (.process .encrypt (List.replicate 32 0))
      (idle { toyContext .live .iv with buflen := 12 }
        [some 0x000102030405060708090a0b0c0d0e0d, some 0x000102030405060708090a0b0c0d0e0c])
      (fun t => (t.ctx.X, t.ctx.Y, t.ctx.buflen, t.ctx.pttotlen, t.ciph)) =
      some (0xd0bf04fa84d92cc49c8f3492b4b11caf, 3, 16, 128,
        [.encrypt 1 2 (.ok 0x000102030405060708090a0b0c0d0e0d),
          .encrypt 1 3 (.ok 0x000102030405060708090a0b0c0d0e0c)]) := by decide +kernel

/-- R185: the input of direction Decrypt is the ciphertext byte XORed into X, the output is input xor keystream. -/
theorem test_process_decrypt :
    afterward (.process .decrypt [0xAA, 0xBB, 0xCC])
      (idle { toyContext .live .text with buf := 0x0388dace60b6a392f328c2b971b2fe78 } [])
      (fun t => (t.ctx.X, t.ctx.buflen, t.rsp)) =
      some (0xaabbcc00000000000000000000000000, 3, [6, 0, 0, 0, 3, 0xA9, 0x33, 0x16]) := by decide

/-- 95 section 3.1, scenario 2, command 4. -/
theorem test_finish :
    afterward (.finish 4)
      (idle { toyContext .live .text with
          X := 0xd0bf04fa84d92cc49c8f3492b4b11caf, Y := 3, Y0 := 1, buflen := 16, pttotlen := 128 } [some 0x000102030405060708090a0b0c0d0e0e])
      (fun t => (t.rsp, t.ctx.X, t.ctx.pttotlen, t.ctx.life, t.ciph)) =
      some ([0x0A, 0, 0, 0, 4, 0xC9, 0x4A, 0xE2, 0x6C], 0xc94be06f79ad78502d4c2dddcd6eea63, 256, .final,
        [.encrypt 1 1 (.ok 0x000102030405060708090a0b0c0d0e0e), .release 1]) := by decide +kernel

/-- R210: an ENCRYPT of `Y_0` answered not-ok sends no RELEASE. -/
theorem test_finish_cipher_failure :
    afterward (.finish 16) (live .text [none]) (fun t => (t.rsp, t.ciph)) =
      some ([0x3C, 0, 0, 0, 0], [.encrypt 1 0 .notOk]) := by decide

/-- R102's example: the three IV bytes are forgotten. -/
theorem test_reset :
    afterward .reset (idle { toyContext .live .iv with buf := 0x00010200000000000000000000000000, buflen := 3 } [])
      (fun t => (t.ctx.buflen, t.ctx.buf, t.ctx.H, t.rsp)) = some (0, 0, toyH, [4, 0, 0, 0, 0]) := by decide

/-- R102: RESET of a FAULT context is refused. -/
theorem test_reset_fault :
    afterward .reset (idle (toyContext .fault .iv) []) State.rsp = some [0x1C, 0, 0, 0, 0] := by decide

/-- R225 corner case e: with an empty IV, AAD and payload the tag is `E(h, 0) = H`. -/
theorem test_oneShot :
    afterward (.oneShot .encrypt false 16 [7] [] [] [])
      { idle Context.powerOn [] with adapter := .scripted [some toyH, some 5, some toyH] [some (9, 16)] }
      (fun t => (t.rsp, t.ciph, t.ctx.life)) =
      some ([0, 0, 0, 0, 16, 0, 1, 2, 3, 4, 5, 6, 7, 8, 9, 0xA, 0xB, 0xC, 0xD, 0xE, 0xF],
        [.setup [7] (.ok (9, 16)), .encrypt 9 0 (.ok toyH), .encrypt 9 1 (.ok 5), .encrypt 9 0 (.ok toyH), .release 9],
        .empty) := by decide

/-- R226: the RELEASE owed after a block length that is not 16. -/
theorem test_oneShot_release_on_error :
    afterward (.oneShot .encrypt false 16 [] [] [] [])
      { idle Context.powerOn [] with adapter := .scripted [] [some (9, 8)] } (fun t => (t.rsp, t.ciph)) =
      some ([0x30, 0, 0, 0, 0], [.setup [] (.ok (9, 8)), .release 9]) := by decide

/-- R302: INIT over a LIVE context whose ENCRYPT is never answered has no effect on the context. -/
theorem test_init_silent_adapter :
    afterward (.init false 16 8) (live .aad []) (fun t => (t.ctx, t.rsp, t.ciph, t.waiting)) =
      some (toyContext .live .aad, [], [.encrypt 8 0 .silent], true) := by decide

/-! ### Steps -/

theorem test_step_illegal_header :
    (next? (step { live .iv [] with cmd := [0xFF, 0, 0, 0, 0x60, 0, 0, 0] })).map (fun t => (t.rsp, t.cmd)) =
      some ([0x2C, 0, 0, 0, 0], [0x60, 0, 0, 0]) := by decide

theorem test_step_fetchWord :
    (next? (step ((live .iv []).withFetchWord 32 0x60000000))).map (fun t => (t.rsp, t.cmd)) =
      some ([4, 0, 0, 0, 0], []) := by decide

/-! ### Witnesses: for each statement a concrete state and operands that meet all its hypotheses together

Where a hypothesis says that commands succeed, the witness says that `performAll` or `perform` answers `some`. -/

theorem contextInv_live_iv : ContextInv (live .iv []) := by constructor <;> decide
theorem contextInv_live_aad : ContextInv (live .aad [some 5]) := by constructor <;> decide

/-- A state whose context multiplies by table. -/
def liveTable : State :=
  { live .iv [] with ctx := { toyContext .live .iv with tblSel := true, table := tableGen toyH } }

theorem contextInv_liveTable : ContextInv liveTable := by
  have hc : liveTable.ctx = { toyContext .live .iv with tblSel := true, table := tableGen toyH } := rfl
  constructor <;> rw [hc]
  · exact wf_tableGen toyH
  all_goals simp [toyContext, Context.powerOn, liveTable, live, idle]

theorem witness_DecodeEncodeRoundTrip : (Instr.process .decrypt [1, 2, 3]).wellFormed = true := by decide

theorem witness_DecodedCommandIsItsEncoding :
    decode [0x20, 0, 0, 1, 0xFF, 0x60] = .command (.addIv [0xFF]) [0x60] := by decide

theorem witness_IllegalHeaderExactlyAndItsEffect :
    let s := { live .iv [] with cmd := be32 0x80000000 ++ [0x60] }
    s.waiting = false ∧ lookupOpcode 0x80000000 = none ∧ s.cmd = be32 0x80000000 ++ [0x60] := by decide

theorem witness_StepRunsDecodedCommand :
    let s := { live .iv [] with cmd := [0x60, 0, 0, 0, 0x10] }
    s.waiting = false ∧ decode s.cmd = .command .reset [0x10] := by decide

theorem witness_StepWithoutAWholeCommand_idle : (live .iv []).waiting = false ∧ (live .iv []).cmd = [] := by
  decide
theorem witness_StepWithoutAWholeCommand_waiting : { live .iv [] with waiting := true }.waiting = true := rfl
theorem witness_StepWithoutAWholeCommand_partial :
    let s := { live .iv [] with cmd := [0x20, 0, 0, 2, 1] }
    s.waiting = false ∧ (Instr.addIv [1, 2]).wellFormed = true ∧
      encode (.addIv [1, 2]) = [0x20, 0, 0, 2, 1] ++ [2] := by decide

theorem witness_CipherAdapterNeverWaits :
    State.reset.usesCipher ∧ ∃ t, exec .reset State.reset = .next t :=
  ⟨⟨_, _, rfl⟩, _, exec_eq _ _⟩

theorem witness_InvalidStateExactly_illegal : stateLegal (.addIv []) .live .aad = false := by decide
theorem witness_InvalidStateExactly_legal :
    stateLegal .reset .live .iv = true ∧
      afterward .reset (live .iv []) (fun t => decide (t.rsp = [] ++ response okCode t.ctx [])) = some true := by
  decide

theorem witness_BuflenAbove16IsInvalidArgument :
    let s := idle { toyContext .live .iv with buflen := 17 } []
    isDataCommand (.addIv []) = true ∧ stateLegal (.addIv []) s.ctx.life s.ctx.mode = true ∧ 16 < s.ctx.buflen := by
  decide

theorem witness_FaultIsTerminal_data :
    (idle (toyContext .fault .iv) []).ctx.life = .fault ∧ isDataCommand (.finish 16) = true := by decide
theorem witness_FaultIsTerminal_init_ok :
    afterward (.init false 16 1) (idle (toyContext .fault .iv) [some toyH])
      (fun t => decide (t.rsp = [] ++ response okCode t.ctx [])) = some true := by decide
theorem witness_FaultIsTerminal_init_error :
    afterward (.init false 15 1) (idle (toyContext .fault .iv) [])
      (fun t => decide (t.rsp = [0x30, 0, 0, 0, 0] ∧ t.ctx.life = .empty)) = some true := by decide
theorem witness_FaultIsTerminal_oneShot :
    afterward (.oneShot .encrypt false 16 [] [] [] [])
      { idle (toyContext .fault .iv) [] with adapter := .scripted [] [none] }
      (fun t => decide (t.rsp = [0x50, 0, 0, 0, 0] ∧ t.ctx.life = .empty)) = some true := by decide

theorem witness_ErrorEntry :
    afterward (.addIv []) (live .text [])
      (fun t => decide (t.rsp = [statusByte 1 t.ctx.life .iv, 0, 0, 0, 0] ∧ (1 : BitVec 4) ≠ okCode)) = some true := by
  decide

theorem witness_InitCreatesContext :
    (true = true → (live .iv []).hasTable = true) ∧
      (live .iv [some toyH]).adapter.encrypt 1 0 = (.ok toyH, .scripted [] []) := by decide

theorem witness_InitErrorsInOrder_blockLen : (17 : Byte) ≠ 16 := by decide
theorem witness_InitErrorsInOrder_table : { live .iv [] with hasTable := false }.hasTable = false := rfl
theorem witness_InitErrorsInOrder_cipher :
    (false = true → (live .iv [none]).hasTable = true) ∧
      (live .iv [none]).adapter.encrypt 1 0 = (.notOk, .scripted [] []) := by decide

theorem witness_ResetReturnsToPostInit_live : (live .text []).ctx.life.holds = true := by decide
theorem witness_ResetReturnsToPostInit_final : (idle (toyContext .final .text) []).ctx.life.holds = true := by
  decide

/-- The first command after power-on reset is an INIT. -/
theorem witness_SubkeyLaw_step :
    SubkeyInv { State.reset with cmd := [0x10, 0x10, 0, 0, 0, 0, 0, 1] } ∧
      ∃ t, step { State.reset with cmd := [0x10, 0x10, 0, 0, 0, 0, 0, 1] } = .next t := by
  refine ⟨⟨⟨_, _, rfl⟩, ?_, ?_⟩, _, rfl⟩
  · intro h; cases h
  · intro _ h; cases h
theorem witness_SubkeyLaw_command :
    createsContext .reset = false ∧
      afterward .reset (live .text []) (fun t => t.ctx.life.holds) = some true := by decide

theorem witness_AddIvCompletesAndFrame :
    (live .iv []).ctx.life = .live ∧ (live .iv []).ctx.mode = .iv ∧ (live .iv []).ctx.buflen ≤ 16 := by decide
theorem witness_AddIvOneByte_last :
    let s := idle { toyContext .live .iv with buflen := 15 } []
    s.ctx.life = .live ∧ s.ctx.mode = .iv ∧ s.ctx.buflen ≤ 15 ∧ s.ctx.buflen = 15 := by decide

theorem witness_IvPhaseLaw :
    (live .iv []).waiting = false ∧ ContextInv (live .iv []) ∧ atSessionStart (live .iv []).ctx :=
  ⟨rfl, contextInv_live_iv, by decide⟩

theorem witness_IvStreamingEquivalence :
    (live .iv []).waiting = false ∧ (live .iv []).ctx.life = .live ∧ (live .iv []).ctx.mode = .iv ∧
      (live .iv []).ctx.buflen ≤ 15 ∧ ([[1, 2], [3]] : List (List Byte)).flatten = [[1], [], [2, 3]].flatten := by
  decide

theorem witness_AddAadCompletesAndFrame_aad :
    (live .aad []).ctx.life = .live ∧ (live .aad []).ctx.mode = .aad ∧ (live .aad []).ctx.buflen ≤ 16 := by
  decide
theorem witness_AddAadOneByte_last :
    let s := idle { toyContext .live .aad with buflen := 15 } []
    s.ctx.life = .live ∧ s.ctx.mode = .aad ∧ s.ctx.buflen ≤ 15 ∧ s.ctx.buflen = 15 := by decide

theorem witness_DirectCounterPath :
    (live .iv []).waiting = false ∧ ContextInv (live .iv []) ∧ atSessionStart (live .iv []).ctx ∧
      ([[1, 2, 3, 4, 5, 6], [7, 8, 9, 10, 11, 12]] : List (List Byte)).flatten.length = 12 :=
  ⟨rfl, contextInv_live_iv, by decide, rfl⟩

theorem witness_GhashCounterPath :
    (live .iv []).waiting = false ∧ ContextInv (live .iv []) ∧ atSessionStart (live .iv []).ctx ∧
      ([[1, 2, 3]] : List (List Byte)).flatten.length ≠ 12 :=
  ⟨rfl, contextInv_live_iv, by decide, by decide⟩

theorem witness_EmptyIvGivesZeroCounter : ContextInv (live .iv []) ∧ atSessionStart (live .iv []).ctx :=
  ⟨contextInv_live_iv, by decide⟩

theorem witness_AadPhaseLaw :
    (live .iv []).waiting = false ∧ ContextInv (live .iv []) ∧ (live .iv []).ctx.life = .live ∧
      (live .iv []).ctx.mode = .iv ∧ ([[1], [2]] : List (List Byte)) ≠ [] :=
  ⟨rfl, contextInv_live_iv, rfl, rfl, by decide⟩

theorem witness_ImplicitIvClose :
    entersLaterPhase (.process .encrypt []) = true ∧ (live .iv [some 5]).ctx.life = .live ∧
      (live .iv [some 5]).ctx.mode = .iv ∧ (live .iv [some 5]).ctx.buflen ≤ 15 ∧
      ∃ u, exec (.addAad []) (live .iv [some 5]) = .next u :=
  ⟨rfl, rfl, rfl, by decide, _, exec_eq _ _⟩

theorem witness_ProcessEntersText :
    let s := live .aad [some 5]
    s.ctx.life = .live ∧ s.ctx.mode = .aad ∧ s.ctx.buflen ≤ 16 ∧
      s.adapter.encrypt s.ctx.sched (inc32 s.ctx.Y) = (.ok 5, .scripted [] []) := by decide

theorem witness_ProcessTextOutput :
    let s := idle { toyContext .live .text with buflen := 16 } [some 5]
    s.ctx.life = .live ∧ s.ctx.mode = .text ∧ s.ctx.buflen ≤ 16 ∧
      Adapter.encryptAll s.ctx.sched
        ((List.range ((s.ctx.buflen.toNat + [(1 : Byte)].length - 1) / 16)).map (ctrBlock s.ctx.Y)) s.adapter =
        some ([5], .scripted [] []) := by decide

theorem witness_ImplicitAadClose :
    (live .aad [some 5]).ctx.life = .live ∧ (live .aad [some 5]).ctx.mode = .aad ∧
      (perform (.process .encrypt []) (live .aad [some 5])).map Prod.fst = some [] := by decide

theorem witness_ProcessCipherFailure_boundary :
    let s := idle { toyContext .live .text with buflen := 16 } [none]
    s.ctx.life = .live ∧ s.ctx.mode = .text ∧ s.ctx.buflen ≤ 16 ∧
      0 < (s.ctx.buflen.toNat + [(1 : Byte)].length - 1) / 16 ∧
      Adapter.encryptAll s.ctx.sched ((List.range 0).map (ctrBlock s.ctx.Y)) s.adapter = some ([], s.adapter) ∧
      s.adapter.encrypt s.ctx.sched (ctrBlock s.ctx.Y 0) = (.notOk, .scripted [] []) := by decide
theorem witness_ProcessCipherFailure_close :
    let s := live .aad [none]
    s.ctx.life = .live ∧ s.ctx.mode = .aad ∧ s.ctx.buflen ≤ 16 ∧
      s.adapter.encrypt s.ctx.sched (inc32 s.ctx.Y) = (.notOk, .scripted [] []) := by decide

theorem witness_DirectionLaw :
    (performAll ([[1], [2]].map (.process .encrypt)) (live .text [])).map Prod.fst = some [[1], [2]] := by
  decide

theorem witness_TextPhaseLaw :
    ContextInv (live .aad [some 5]) ∧ (live .aad [some 5]).ctx.life = .live ∧
      (live .aad [some 5]).ctx.mode = .aad ∧
      (performAll ([(Direction.encrypt, [(1 : Byte)])].map fun c => .process c.1 c.2) (live .aad [some 5])).map Prod.fst =
        some [[1]] :=
  ⟨contextInv_live_aad, rfl, rfl, by decide⟩

theorem witness_FinishAnswersTag :
    let s := live .text [some 7]
    s.ctx.life = .live ∧ s.ctx.mode = .text ∧ s.ctx.buflen ≤ 16 ∧
      s.adapter.encrypt s.ctx.sched s.ctx.Y0 = (.ok 7, .scripted [] []) := by decide

theorem witness_FinishCipherFailure :
    let s := live .text [none]
    s.ctx.life = .live ∧ s.ctx.mode = .text ∧ s.ctx.buflen ≤ 16 ∧
      s.adapter.encrypt s.ctx.sched s.ctx.Y0 = (.notOk, .scripted [] []) := by decide

theorem witness_ShorterTagIsPrefix :
    (0 : Byte) ≤ 17 ∧ ((perform (.finish 17) (live .text [some 7])).map fun r => r.1.length) = some 16 := by
  decide

theorem witness_ReleasedHandle : (8 : Handle) ≠ 9 := by decide

theorem witness_OneShotClosedForm :
    let s := { idle Context.powerOn [] with adapter := .scripted [some toyH, some 5, some 7] [some (9, 16)] }
    (true = true → s.hasTable = true) ∧
      s.adapter.setup [] = (.ok (9, 16), .scripted [some toyH, some 5, some 7] []) ∧
      (Adapter.scripted [some toyH, some 5, some 7] []).encrypt 9 0 = (.ok toyH, .scripted [some 5, some 7] []) ∧
      Adapter.encryptAll 9 (counterBlocks (initialCounter toyH []) [(1 : Byte)].length)
        (.scripted [some 5, some 7] []) = some ([5], .scripted [some 7] []) ∧
      (Adapter.scripted [some 7] []).encrypt 9 (initialCounter toyH []) = (.ok 7, .scripted [] []) := by
  decide

theorem witness_OneShotReleaseLaw :
    afterward (.oneShot .encrypt false 16 [] [] [] [])
      { idle Context.powerOn [] with adapter := .scripted [] [none] } (fun t => decide (t.rsp ≠ [])) = some true := by
  decide

theorem witness_OneShotEqualsStreaming :
    let s := { idle Context.powerOn [] with adapter := .scripted [some toyH, some 5, some 7] [some (9, 16)] }
    s.adapter.setup [] = (.ok (9, 16), .scripted [some toyH, some 5, some 7] []) ∧
      ((performAll (session (.init false 16 9) [] [] ([[1]].map fun c => (Direction.encrypt, c)) 0)
        { s with adapter := .scripted [some toyH, some 5, some 7] [] }).map fun r => r.1.flatten) = some [1] := by
  decide

theorem witness_OneShotErrors :
    (Adapter.scripted [] [none]).setup [] = (.notOk, .scripted [] []) ∧
      (Adapter.scripted [] [some (9, 15)]).setup [] = (.ok (9, 15), .scripted [] []) ∧
      (Adapter.scripted [none] [some (9, 16)]).setup [] = (.ok (9, 16), .scripted [none] []) ∧
      (Adapter.scripted [none] []).encrypt 9 0 = (.notOk, .scripted [] []) ∧
      { live .iv [] with hasTable := false }.hasTable = false := by decide

/-- The keystream ENCRYPT of the first of two blocks answered, the second not-ok: 17 bytes of payload. -/
theorem witness_OneShotErrors_keystream :
    (Adapter.scripted [some toyH, some 5, none] [some (9, 16)]).setup [] =
        (.ok (9, 16), .scripted [some toyH, some 5, none] []) ∧
      (Adapter.scripted [some toyH, some 5, none] []).encrypt 9 0 = (.ok toyH, .scripted [some 5, none] []) ∧
      counterBlocks (initialCounter toyH []) (List.replicate 17 (0 : Byte)).length ++ [initialCounter toyH []] =
        [1] ++ 2 :: [0] ∧
      Adapter.encryptAll 9 [1] (.scripted [some 5, none] []) = some ([5], .scripted [none] []) ∧
      (Adapter.scripted [none] []).encrypt 9 2 = (.notOk, .scripted [] []) := by decide
/-- The ENCRYPT of `Y_0` itself answered not-ok: the last request, nothing after it. -/
theorem witness_OneShotErrors_mask :
    counterBlocks (initialCounter toyH []) ([] : List Byte).length ++ [initialCounter toyH []] = [1] ++ 0 :: [] ∧
      Adapter.encryptAll 9 [1] (.scripted [some 5, none] []) = some ([5], .scripted [none] []) ∧
      (Adapter.scripted [none] []).encrypt 9 0 = (.notOk, .scripted [] []) := by decide

theorem witness_MultiplierChoiceInvisible :
    ContextInv (live .iv []) ∧ ContextInv liveTable ∧ (live .iv []).ctx.life.holds = true ∧
      sameButTable (live .iv []).ctx liveTable.ctx ∧ liveTable = { live .iv [] with ctx := liveTable.ctx } ∧
      ∃ t, exec .reset (live .iv []) = .next t :=
  ⟨contextInv_live_iv, contextInv_liveTable, rfl, rfl, rfl, _, exec_eq _ _⟩

theorem witness_StepKeepsContextInv :
    ContextInv (live .iv []) ∧ step (live .iv []) = .next (live .iv []) := ⟨contextInv_live_iv, rfl⟩

theorem witness_StepKeepsCounterInv :
    let s := idle { toyContext .live .text with Y := 1 } []
    CounterInv s ∧ step s = .next s := by
  refine ⟨?_, rfl⟩
  constructor <;> decide

theorem witness_PhasesOnlyAdvance :
    isDataCommand (.addAad []) = true ∧ (live .iv []).ctx.life.holds = true ∧
      ∃ t, exec (.addAad []) (live .iv []) = .next t := ⟨rfl, rfl, _, exec_eq _ _⟩

theorem witness_SessionClosedForm :
    let s := idle Context.powerOn [some toyH, some 5, some 7]
    (true = true → s.hasTable = true) ∧ s.waiting = false ∧
      s.adapter.encrypt 1 0 = (.ok toyH, .scripted [some 5, some 7] []) ∧
      Adapter.encryptAll 1
        (counterBlocks (initialCounter toyH ([[1]] : List (List Byte)).flatten)
          (payloadOf [(.encrypt, [1]), (.decrypt, [2])]).length)
        (.scripted [some 5, some 7] []) = some ([5], .scripted [some 7] []) ∧
      (Adapter.scripted [some 7] []).encrypt 1 (initialCounter toyH ([[1]] : List (List Byte)).flatten) =
        (.ok 7, .scripted [] []) := by decide

theorem witness_StreamingEquivalence :
    ((performAll (session .reset [] [] [(.encrypt, [1, 2])] 0) (live .text [some 5, some 7])).map Prod.fst =
        some [[], [1, 2], []]) ∧
      payloadOf [(.encrypt, [1, 2])] = payloadOf [(.encrypt, [1]), (.decrypt, []), (.encrypt, [2])] := by
  decide

theorem contextInv_live_iv_two : ContextInv (live .iv [some 5, some 7]) := by constructor <;> decide

/-- Two machines whose adapters differ: the second could still answer a SETUP. -/
theorem witness_RoundTrip :
    let s := live .iv [some 5, some 7]
    let s' := { live .iv [some 5, some 7] with adapter := .scripted [some 5, some 7] [some (9, 16)] }
    ContextInv s ∧ atSessionStart s.ctx ∧ ContextInv s' ∧ atSessionStart s'.ctx ∧ s'.waiting = false ∧
      s.adapter.answerAlike s.ctx.sched s'.adapter ∧
      ((performAll (sessionBody [] [] ([[1, 2]].map fun c => (Direction.encrypt, c)) 0) s).map
        fun r => r.1.dropLast.flatten) = some ([[1], [2]] : List (List Byte)).flatten :=
  ⟨contextInv_live_iv_two, by decide, by constructor <;> decide, by decide, rfl,
    Adapter.answerAlike_scripted _ _ _ _, by decide⟩
/-- Program P2's case: the second session's adapter has released the handle, and RELEASE does not invalidate. -/
theorem witness_RoundTrip_released :
    (Adapter.cipher false []).answerAlike 1 (.cipher false [1]) ∧ (Adapter.cipher false []).release 1 = .cipher false [1] :=
  ⟨Adapter.answerAlike_release 1 1 [], rfl⟩

end Sys2Proof.Tests
end

section
/-! The machine's state rules (`10_state.md`): what each command's pseudocode did when it ran to its end, what no
pseudocode writes, and the invariants every step keeps. -/

namespace Sys2Proof.Machine

/-! ### The legal states of R260, read off -/

theorem addIvLegal_iff (c : Context) : addIvLegal c = true ↔ c.life = .live ∧ c.mode = .iv := by simp [addIvLegal]

theorem addAadLegal_iff (c : Context) : addAadLegal c = true ↔ c.life = .live ∧ c.mode ≠ .text := by
  simp [addAadLegal]

theorem processLegal_iff (c : Context) : processLegal c = true ↔ c.life = .live := by simp [processLegal]

theorem finishLegal_iff (c : Context) : finishLegal c = true ↔ c.life = .live ∧ c.mode = .text := by simp [finishLegal]

theorem resetLegal_iff (l : Life) : resetLegal l = true ↔ l.holds = true := by cases l <;> simp [resetLegal, Life.holds]

/-! ### What a command's pseudocode did when it ran to its end

One inversion lemma per body: the tests it passed, the answers it got, the state it left. -/

theorem refuseIf_done {bad : Bool} {e : ErrorKind} {s t : State} {u : Unit}
    (h : Result.refuseIf bad e s = .done u t) : bad = false ∧ t = s := by
  cases bad <;> cases h
  exact ⟨rfl, rfl⟩

/-- INIT that succeeds (R100): the two tests passed, and the adapter answered ENCRYPT of the zero block with H. -/
theorem initBody_done {tbl : Bool} {blockLen : Byte} {sched : Handle} {s t : State} {data : List Byte}
    (h : initBody tbl blockLen sched s = .done data t) :
    blockLen = 16 ∧ (tbl = true → s.hasTable = true) ∧ data = [] ∧
      ∃ H, s.adapter.encrypt sched 0 = (.ok H, t.adapter) ∧
        t = (s.transact (.encrypt sched 0 (.ok H)) t.adapter).setCtx
          (openContext tbl H { s.ctx with sched := sched }) := by
  obtain ⟨_, _, htest, hrest⟩ := Result.andThen_eq_done.mp h
  obtain ⟨hlen, rfl⟩ := refuseIf_done htest
  obtain ⟨_, _, htest, hend⟩ := Result.andThen_eq_done.mp hrest
  obtain ⟨htable, rfl⟩ := refuseIf_done htest
  obtain ⟨H, s1, henc, hlast⟩ := Result.andThen_eq_done.mp hend
  obtain ⟨hanswer, hs1⟩ := enc_done henc
  cases hlast
  refine ⟨by simpa using hlen, ?_, rfl, H, hanswer, ?_⟩
  · rintro rfl
    simpa using htable
  · rw [hs1]
    rfl

/-- ADD_IV that succeeds (R150). -/
theorem addIvBody_done {chunk : List Byte} {s t : State} {data : List Byte}
    (h : addIvBody chunk s = .done data t) :
    s.ctx.life = .live ∧ s.ctx.mode = .iv ∧ s.ctx.buflen ≤ 16 ∧ data = [] ∧ t = s.setCtx (absorbIv s.ctx chunk) := by
  obtain ⟨_, _, hcheck, hrest⟩ := Result.andThen_eq_done.mp h
  obtain ⟨hlegal, hlen, rfl⟩ := checkState_done hcheck
  obtain ⟨hlife, hmode⟩ := (addIvLegal_iff _).mp hlegal
  cases hrest
  exact ⟨hlife, hmode, hlen, rfl, rfl⟩

/-- ADD_AAD that succeeds (R165). -/
theorem addAadBody_done {chunk : List Byte} {s t : State} {data : List Byte}
    (h : addAadBody chunk s = .done data t) :
    s.ctx.life = .live ∧ s.ctx.mode ≠ .text ∧ s.ctx.buflen ≤ 16 ∧ data = [] ∧
      t = s.setCtx (absorbAad (closeIvPhase s.ctx) chunk) := by
  obtain ⟨_, _, hcheck, hrest⟩ := Result.andThen_eq_done.mp h
  obtain ⟨hlegal, hlen, rfl⟩ := checkState_done hcheck
  obtain ⟨hlife, hmode⟩ := (addAadLegal_iff _).mp hlegal
  cases hrest
  exact ⟨hlife, hmode, hlen, rfl, rfl⟩

/-- AadClose that got its keystream block (R188). -/
theorem aadClose_done {s t : State} {u : Unit} (h : aadClose s = .done u t) :
    ∃ keystream, s.adapter.encrypt s.ctx.sched (inc32 s.ctx.Y) = (.ok keystream, t.adapter) ∧
      t = (s.transact (.encrypt s.ctx.sched (inc32 s.ctx.Y) (.ok keystream)) t.adapter).setCtx
        { advanceCounter (foldPartialAad s.ctx) with buf := keystream, buflen := 0, mode := .text } := by
  obtain ⟨_, s1, hfetch, hrest⟩ := Result.andThen_eq_done.mp h
  obtain ⟨keystream, hanswer, hs1⟩ := fetchKeystream_done hfetch
  cases hrest
  simp only [State.setCtx_ctx, State.setCtx_adapter, advanceCounter_sched, advanceCounter_Y, foldPartialAad_sched,
    foldPartialAad_Y] at hanswer hs1
  refine ⟨keystream, hanswer, ?_⟩
  rw [hs1]
  simp only [advanceCounter_sched, advanceCounter_Y, foldPartialAad_sched, foldPartialAad_Y]
  rfl

/-- The close of phase AAD inside PROCESS: AadClose in phase AAD, nothing elsewhere (R185). -/
theorem closeAadPhase_done {s t : State} {u : Unit} (h : closeAadPhase s = .done u t) :
    (s.ctx.mode = .aad ∧ aadClose s = .done u t) ∨ (s.ctx.mode ≠ .aad ∧ t = s) := by
  unfold closeAadPhase at h
  split at h
  · rename_i hmode
    exact .inl ⟨hmode, h⟩
  · rename_i hmode
    cases h
    exact .inr ⟨hmode, rfl⟩

/-- The test before a payload byte: no boundary, or one crossed and its keystream block answered (R185). -/
theorem crossBoundary_done {s t : State} {u : Unit} (h : crossBoundary s = .done u t) :
    (s.ctx.buflen ≠ 16 ∧ t = s) ∨
      (s.ctx.buflen = 16 ∧ ∃ keystream, s.adapter.encrypt s.ctx.sched (inc32 s.ctx.Y) = (.ok keystream, t.adapter) ∧
        t = (s.transact (.encrypt s.ctx.sched (inc32 s.ctx.Y) (.ok keystream)) t.adapter).setCtx
          { foldTextBlock s.ctx with buf := keystream, buflen := 0 }) := by
  unfold crossBoundary at h
  split at h
  · rename_i hlen
    obtain ⟨keystream, hanswer, ht⟩ := fetchKeystream_done h
    exact .inr ⟨hlen, keystream, hanswer, ht⟩
  · rename_i hlen
    cases h
    exact .inl ⟨hlen, rfl⟩

theorem processByte_done {dir : Direction} {b out : Byte} {s t : State} (h : processByte dir b s = .done out t) :
    ∃ s1, crossBoundary s = .done () s1 ∧ out = outputByte s1.ctx b ∧ t = s1.setCtx (absorbTextByte dir s1.ctx b) := by
  obtain ⟨_, s1, hcross, hrest⟩ := Result.andThen_eq_done.mp h
  cases hrest
  exact ⟨s1, hcross, rfl, rfl⟩

/-- A property that every payload byte keeps is kept by a whole chunk. -/
theorem processBytes_keeps {P : State → Prop} {dir : Direction}
    (hbyte : ∀ b out s t, P s → processByte dir b s = .done out t → P t) (chunk : List Byte) :
    ∀ s t outs, P s → processBytes dir chunk s = .done outs t → P t := by
  induction chunk with
  | nil =>
    intro s t outs hs h
    cases h
    exact hs
  | cons b chunk ih =>
    intro s t outs hs h
    obtain ⟨out, s1, hfirst, hrest⟩ := Result.andThen_eq_done.mp h
    obtain ⟨_, s2, hbytes, hend⟩ := Result.andThen_eq_done.mp hrest
    cases hend
    exact ih s1 _ _ (hbyte b out s s1 hs hfirst) hbytes

/-- PROCESS that succeeds (R185): both closes, then the bytes. -/
theorem processBody_done {dir : Direction} {chunk : List Byte} {s t : State} {data : List Byte}
    (h : processBody dir chunk s = .done data t) :
    s.ctx.life = .live ∧ s.ctx.buflen ≤ 16 ∧
      ∃ s1, closeAadPhase (s.setCtx (closeIvPhase s.ctx)) = .done () s1 ∧ processBytes dir chunk s1 = .done data t := by
  obtain ⟨_, _, hcheck, hrest⟩ := Result.andThen_eq_done.mp h
  obtain ⟨hlegal, hlen, rfl⟩ := checkState_done hcheck
  obtain ⟨_, s1, hclose, hend⟩ := Result.andThen_eq_done.mp hrest
  exact ⟨(processLegal_iff _).mp hlegal, hlen, s1, hclose, hend⟩

/-- FINISH that succeeds (R210): the mask answered, one RELEASE, FINAL. -/
theorem finishBody_done {tagLen : Byte} {s t : State} {data : List Byte} (h : finishBody tagLen s = .done data t) :
    s.ctx.life = .live ∧ s.ctx.mode = .text ∧ s.ctx.buflen ≤ 16 ∧
      ∃ mask a, s.adapter.encrypt s.ctx.sched s.ctx.Y0 = (.ok mask, a) ∧
        data = truncateTag (mask ^^^ (foldLengths (foldPartialText s.ctx)).X) tagLen ∧
        t = (adapterRelease s.ctx.sched ((s.transact (.encrypt s.ctx.sched s.ctx.Y0 (.ok mask)) a).setCtx
          (foldLengths (foldPartialText s.ctx)))).setLife .final := by
  obtain ⟨_, _, hcheck, hrest⟩ := Result.andThen_eq_done.mp h
  obtain ⟨hlegal, hlen, rfl⟩ := checkState_done hcheck
  obtain ⟨hlife, hmode⟩ := (finishLegal_iff _).mp hlegal
  obtain ⟨mask, s1, henc, hend⟩ := Result.andThen_eq_done.mp hrest
  obtain ⟨hanswer, hs1⟩ := enc_done henc
  simp only [State.setCtx_ctx, State.setCtx_adapter, foldLengths_sched, foldPartialText_sched] at hanswer hs1
  cases hend
  refine ⟨hlife, hmode, hlen, mask, s1.adapter, hanswer, ?_, ?_⟩
  · rw [hs1]
    rfl
  · rw [hs1, State.transact_ctx, State.setCtx_ctx, foldLengths_sched, foldPartialText_sched]
    rfl

/-- RESET that succeeds (R102). -/
theorem resetBody_done {s t : State} {data : List Byte} (h : resetBody s = .done data t) :
    s.ctx.life.holds = true ∧ data = [] ∧ t = s.setCtx { zeroSession s.ctx with life := .live } := by
  obtain ⟨_, _, htest, hrest⟩ := Result.andThen_eq_done.mp h
  obtain ⟨hlegal, rfl⟩ := refuseIf_done htest
  cases hrest
  exact ⟨(resetLegal_iff _).mp (by simpa using hlegal), rfl, rfl⟩

/-- ONE_SHOT that succeeds (R225): SETUP answered, the five steps ended, and the context is gone. -/
theorem oneShotBody_done {dir : Direction} {tbl : Bool} {tagLen : Byte} {key iv aad payload data : List Byte}
    {s t : State} (h : oneShotBody dir tbl tagLen key iv aad payload s = .done data t) :
    ∃ made s1 s2, adapterSetup key (s.setLife .empty) = .done made s1 ∧
      oneShotSteps dir tbl tagLen made.2 made.1 iv aad payload s1 = .done data s2 ∧ t = s2.loseContext .empty := by
  obtain ⟨made, s1, hsetup, hrest⟩ := Result.andThen_eq_done.mp h
  cases hsteps : oneShotSteps dir tbl tagLen made.2 made.1 iv aad payload s1 with
  | done out s2 =>
    rw [hsteps] at hrest
    cases hrest
    exact ⟨made, s1, s2, hsetup, hsteps, rfl⟩
  | raised k s2 =>
    rw [hsteps] at hrest
    cases hrest
  | waiting s2 =>
    rw [hsteps] at hrest
    cases hrest

/-! ### What a command's pseudocode leaves unchanged, wherever it stops -/

/-- `t` agrees with `s` in what only the start and the end of a command write: `HAS_TABLE`, the unread
bytes of CMD, the responses and the waiting mark (R25, R55). -/
abbrev State.sameFrame (s t : State) : Prop :=
  t.hasTable = s.hasTable ∧ t.cmd = s.cmd ∧ t.rsp = s.rsp ∧ t.waiting = s.waiting

/-- `d` agrees with `c` in what only INIT and ONE_SHOT write: the handle, `H`, `tbl_sel` and the table (R100, R101). -/
abbrev Context.sameSetup (c d : Context) : Prop :=
  d.sched = c.sched ∧ d.H = c.H ∧ d.tblSel = c.tblSel ∧ d.table = c.table

theorem sameSetup_absorbIv (c : Context) (chunk : List Byte) : c.sameSetup (absorbIv c chunk) :=
  ⟨absorbIv_sched c chunk, absorbIv_H c chunk, absorbIv_tblSel c chunk, absorbIv_table c chunk⟩

theorem sameSetup_closeIvPhase (c : Context) : c.sameSetup (closeIvPhase c) :=
  ⟨closeIvPhase_sched c, closeIvPhase_H c, closeIvPhase_tblSel c, closeIvPhase_table c⟩

theorem sameSetup_absorbAad_closeIvPhase (c : Context) (chunk : List Byte) :
    c.sameSetup (absorbAad (closeIvPhase c) chunk) := by
  simp [Context.sameSetup]

theorem sameSetup_foldPartialAad (c : Context) : c.sameSetup (foldPartialAad c) :=
  ⟨foldPartialAad_sched c, foldPartialAad_H c, foldPartialAad_tblSel c, foldPartialAad_table c⟩

theorem sameSetup_foldPartialText (c : Context) : c.sameSetup (foldPartialText c) :=
  ⟨foldPartialText_sched c, foldPartialText_H c, foldPartialText_tblSel c, foldPartialText_table c⟩

/-- A property of states that both parts keep holds where the sequence ends, raises or waits. -/
theorem Result.state_andThen {α β : Type} {P : State → Prop} {r : Result α} {k : α → State → Result β}
    (h1 : P r.state) (h2 : ∀ a s, P s → P (k a s).state) : P (r.andThen k).state :=
  Result.andThen_state h1 fun a s hr => h2 a s (by rwa [hr] at h1)

/-- A property is kept by what a data command does before it may write `life`: transactions, and writes of the
context that leave `life` and what INIT set up as they were. -/
structure KeptBySessionWrites (P : State → Prop) : Prop where
  setCtx : ∀ {s : State} {c : Context}, s.ctx.sameSetup c → c.life = s.ctx.life → P s → P (s.setCtx c)
  transact : ∀ {s : State} (t : Transaction) (a : Adapter), P s → P (s.transact t a)

theorem KeptBySessionWrites.sameFrame (u : State) : KeptBySessionWrites u.sameFrame :=
  ⟨fun _ _ h => h, fun _ _ h => h⟩

theorem KeptBySessionWrites.sameSetup (c : Context) : KeptBySessionWrites fun t => c.sameSetup t.ctx where
  setCtx := by
    rintro s d ⟨hsched, hH, htblSel, htable⟩ - ⟨hsched', hH', htblSel', htable'⟩
    exact ⟨hsched.trans hsched', hH.trans hH', htblSel.trans htblSel', htable.trans htable'⟩
  transact := fun _ _ h => h

theorem KeptBySessionWrites.life (l : Life) : KeptBySessionWrites fun t => t.ctx.life = l :=
  ⟨fun _ hlife h => hlife.trans h, fun _ _ h => h⟩

section SessionWrites

variable {P : State → Prop} {s : State} (hP : KeptBySessionWrites P)

include hP

theorem KeptBySessionWrites.enc (B : Block) (h : P s) : P (enc B s).state := by
  rw [enc_state]
  exact hP.transact _ _ h

theorem KeptBySessionWrites.addIvBody (chunk : List Byte) (h : P s) : P (addIvBody chunk s).state :=
  Result.state_andThen (by rwa [checkState_state]) fun _ s h =>
    hP.setCtx (sameSetup_absorbIv s.ctx chunk) (absorbIv_life _ _) h

theorem KeptBySessionWrites.addAadBody (chunk : List Byte) (h : P s) : P (addAadBody chunk s).state :=
  Result.state_andThen (by rwa [checkState_state]) fun _ s h =>
    hP.setCtx (sameSetup_absorbAad_closeIvPhase s.ctx chunk) (by simp) h

theorem KeptBySessionWrites.fetchKeystream (h : P s) : P (fetchKeystream s).state :=
  Result.state_andThen (hP.enc _ h) fun _ _ h => hP.setCtx ⟨rfl, rfl, rfl, rfl⟩ rfl h

theorem KeptBySessionWrites.closeAadPhase (h : P s) : P (closeAadPhase s).state := by
  unfold Machine.closeAadPhase
  split
  · refine Result.state_andThen (hP.fetchKeystream ?_) fun _ _ h => hP.setCtx ⟨rfl, rfl, rfl, rfl⟩ rfl h
    exact hP.setCtx (sameSetup_foldPartialAad s.ctx) (foldPartialAad_life _) h
  · exact h

theorem KeptBySessionWrites.processByte (dir : Direction) (b : Byte) (h : P s) : P (processByte dir b s).state := by
  refine Result.state_andThen ?_ fun _ _ h => hP.setCtx ⟨rfl, rfl, rfl, rfl⟩ rfl h
  unfold crossBoundary
  split
  · exact hP.fetchKeystream (hP.setCtx ⟨rfl, rfl, rfl, rfl⟩ rfl h)
  · exact h

theorem KeptBySessionWrites.processBytes (dir : Direction) (chunk : List Byte) (h : P s) :
    P (processBytes dir chunk s).state := by
  induction chunk generalizing s with
  | nil => exact h
  | cons b chunk ih =>
    exact Result.state_andThen (hP.processByte dir b h) fun _ _ h =>
      Result.state_andThen (ih h) fun _ _ h => h

theorem KeptBySessionWrites.processBody (dir : Direction) (chunk : List Byte) (h : P s) :
    P (processBody dir chunk s).state := by
  refine Result.state_andThen (by rwa [checkState_state]) fun _ s h => ?_
  refine Result.state_andThen (hP.closeAadPhase ?_) fun _ _ h => hP.processBytes dir chunk h
  exact hP.setCtx (sameSetup_closeIvPhase s.ctx) (closeIvPhase_life _) h

theorem KeptBySessionWrites.finishMask (h : P s) :
    P (Machine.enc s.ctx.Y0 (s.setCtx (foldLengths (foldPartialText s.ctx)))).state :=
  hP.enc _ (hP.setCtx (sameSetup_foldPartialText s.ctx) (foldPartialText_life _) h)

/-- FINISH also writes `life`, after its mask has arrived (R210). -/
theorem KeptBySessionWrites.finishBody (hfinal : ∀ {s : State}, P s → P (s.setLife .final)) (tagLen : Byte)
    (h : P s) : P (finishBody tagLen s).state := by
  refine Result.state_andThen (by rwa [checkState_state]) fun _ s h => ?_
  exact Result.state_andThen (hP.finishMask h) fun _ _ h => hfinal (hP.transact _ _ h)

end SessionWrites

/-- What the context says of the key is INIT's and ONE_SHOT's alone to write (R100, R225). -/
theorem commandBody_sameSetup {i : Instr} (hi : createsContext i = false) (s : State) :
    s.ctx.sameSetup (commandBody i s).state.ctx := by
  have hkept := KeptBySessionWrites.sameSetup s.ctx
  have hs : s.ctx.sameSetup s.ctx := ⟨rfl, rfl, rfl, rfl⟩
  cases i with
  | init tbl blockLen sched => cases hi
  | addIv chunk => exact hkept.addIvBody chunk hs
  | addAad chunk => exact hkept.addAadBody chunk hs
  | process dir chunk => exact hkept.processBody dir chunk hs
  | finish tagLen => exact hkept.finishBody (fun h => h) tagLen hs
  | reset =>
    exact Result.state_andThen (P := fun t => s.ctx.sameSetup t.ctx) (by rwa [Result.refuseIf_state]) fun _ _ h => h
  | oneShot dir tbl tagLen key iv aad payload => cases hi

/-- A data command that raises an error has not written `life` (R210: FINISH writes it last). -/
theorem commandBody_raised_life {i : Instr} (hi : isDataCommand i = true) {s t : State} {k : ErrorKind}
    (h : commandBody i s = .raised k t) : t.ctx.life = s.ctx.life := by
  have hkept := KeptBySessionWrites.life s.ctx.life
  have hbody : (commandBody i s).state.ctx.life = s.ctx.life → t.ctx.life = s.ctx.life := by
    rw [h]
    exact id
  cases i with
  | init tbl blockLen sched => cases hi
  | addIv chunk => exact hbody (hkept.addIvBody chunk rfl)
  | addAad chunk => exact hbody (hkept.addAadBody chunk rfl)
  | process dir chunk => exact hbody (hkept.processBody dir chunk rfl)
  | finish tagLen =>
    obtain hcheck | ⟨_, s1, hcheck, hrest⟩ := Result.andThen_eq_raised.mp h
    · have hstate := checkState_state (finishLegal s.ctx) s
      rw [hcheck] at hstate
      exact congrArg (·.ctx.life) hstate
    · obtain ⟨-, -, rfl⟩ := checkState_done hcheck
      obtain hmask | ⟨_, _, -, hend⟩ := Result.andThen_eq_raised.mp hrest
      · have hstate := hkept.finishMask rfl
        rwa [hmask] at hstate
      · cases hend
  | reset => cases hi
  | oneShot dir tbl tagLen key iv aad payload => cases hi

section Frame

variable {s u : State}

theorem adapterSetup_state (key : List Byte) (s : State) : (adapterSetup key s).state = s.afterSetup key := by
  cases h : (s.adapter.setup key).1
  · rw [adapterSetup_ok h]; rfl
  · rw [adapterSetup_notOk h]; rfl
  · rw [adapterSetup_silent h]; rfl

theorem initBody_sameFrame (tbl : Bool) (blockLen : Byte) (sched : Handle) (h : u.sameFrame s) :
    u.sameFrame (initBody tbl blockLen sched s).state := by
  refine Result.state_andThen (by rw [Result.refuseIf_state]; exact h) fun _ s h => ?_
  refine Result.state_andThen (by rw [Result.refuseIf_state]; exact h) fun _ s h => ?_
  exact Result.state_andThen (by rw [enc_state]; exact h) fun _ s h => h

theorem oneShotSteps_sameFrame (dir : Direction) (tbl : Bool) (tagLen blockLen : Byte) (handle : Handle)
    (iv aad payload : List Byte) (h : u.sameFrame s) :
    u.sameFrame (oneShotSteps dir tbl tagLen blockLen handle iv aad payload s).state := by
  have hkept := KeptBySessionWrites.sameFrame u
  refine Result.state_andThen (initBody_sameFrame tbl blockLen handle h) fun _ _ h => ?_
  refine Result.state_andThen (hkept.addIvBody iv h) fun _ _ h => ?_
  refine Result.state_andThen (hkept.addAadBody aad h) fun _ _ h => ?_
  refine Result.state_andThen (hkept.processBody dir payload h) fun _ _ h => ?_
  exact Result.state_andThen (hkept.finishBody (fun h => h) tagLen h) fun _ _ h => h

/-- The way out of ONE_SHOT writes neither `HAS_TABLE` nor CMD nor RSP (R226). -/
theorem releaseOnError_sameFrame (handle : Handle) {r : Result (List Byte)} (h : u.sameFrame r.state) :
    u.sameFrame (releaseOnError handle r).state := by
  cases r <;> exact h

end Frame

/-- However a command's pseudocode stops, it has written neither `HAS_TABLE` nor CMD nor RSP nor the waiting mark. -/
theorem commandBody_sameFrame (i : Instr) (s : State) : s.sameFrame (commandBody i s).state := by
  have hkept := KeptBySessionWrites.sameFrame s
  have hs : s.sameFrame s := ⟨rfl, rfl, rfl, rfl⟩
  cases i with
  | init tbl blockLen sched => exact initBody_sameFrame tbl blockLen sched hs
  | addIv chunk => exact hkept.addIvBody chunk hs
  | addAad chunk => exact hkept.addAadBody chunk hs
  | process dir chunk => exact hkept.processBody dir chunk hs
  | finish tagLen => exact hkept.finishBody (fun h => h) tagLen hs
  | reset => exact Result.state_andThen (by rwa [Result.refuseIf_state]) fun _ _ h => h
  | oneShot dir tbl tagLen key iv aad payload =>
    exact Result.state_andThen (by rw [adapterSetup_state]; exact hs) fun made _ h =>
      releaseOnError_sameFrame _ (oneShotSteps_sameFrame dir tbl tagLen made.2 made.1 iv aad payload h)

/-! ### An invariant of the context is kept by every step when every success keeps it -/

/-- After an error there is no context that holds values (R245). -/
@[simp] theorem holds_lifeAfterError (creates : Bool) (l : Life) : (lifeAfterError creates l).holds = false := by
  cases l <;> cases creates <;> rfl

/-- The step induction, once: for a property of the context and of `hasTable` that a lost context has, it is enough
that each command's success keeps it. An error loses the context (R245), and a wait leaves the one it found (R302). -/
theorem step_keeps {P : State → Prop}
    (hcongr : ∀ {s t : State}, t.ctx = s.ctx → t.hasTable = s.hasTable → P s → P t)
    (hlost : ∀ {t : State}, t.ctx.life.holds = false → t.ctx.table = [] → P t)
    (hdone : ∀ i {s t : State} {data}, P s → commandBody i s = .done data t → P t)
    {s t : State} (hs : P s) (h : step s = .next t) : P t := by
  obtain ⟨-, ⟨-, rfl⟩ | ⟨header, rest, -, rfl⟩ | ⟨i, rest, -, rfl⟩⟩ := step_cases h
  · exact hs
  · exact hlost (by simp) rfl
  · have hs' : P (s.withCmd rest) := hcongr (s := s) rfl rfl hs
    have hframe := commandBody_sameFrame i (s.withCmd rest)
    cases hbody : commandBody i (s.withCmd rest) with
    | done data t => exact hcongr (s := t) rfl rfl (hdone i hs' hbody)
    | raised k t => exact hlost (by simp) rfl
    | waiting t =>
      rw [hbody] at hframe
      exact hcongr (s := s) rfl hframe.1 hs

/-! ### The phases a data command goes through (R26) -/

theorem closeIvPhase_of_iv {c : Context} (h : c.mode = .iv) : closeIvPhase c = ivClose c := if_pos h

theorem closeIvPhase_of_ne_iv {c : Context} (h : c.mode ≠ .iv) : closeIvPhase c = c := if_neg h

theorem closeIvPhase_mode (c : Context) : (closeIvPhase c).mode = if c.mode = .iv then .aad else c.mode := by
  by_cases h : c.mode = .iv
  · rw [closeIvPhase_of_iv h, if_pos h, ivClose_mode]
  · rw [closeIvPhase_of_ne_iv h, if_neg h]

theorem closeIvPhase_mode_ne_iv (c : Context) : (closeIvPhase c).mode ≠ .iv := by
  rw [closeIvPhase_mode]
  split
  · decide
  · assumption

theorem closeIvPhase_mode_of_ne_text {c : Context} (h : c.mode ≠ .text) : (closeIvPhase c).mode = .aad := by
  rw [closeIvPhase_mode]
  cases hm : c.mode
  · rfl
  · rfl
  · exact absurd hm h

/-- Past the close of phase IV, the close of phase AAD leaves phase TEXT. -/
theorem closeAadPhase_done_mode {s t : State} {u : Unit} (hmode : s.ctx.mode ≠ .iv)
    (h : closeAadPhase s = .done u t) : t.ctx.mode = .text := by
  obtain ⟨-, hclose⟩ | ⟨haad, rfl⟩ := closeAadPhase_done h
  · obtain ⟨keystream, -, ht⟩ := aadClose_done hclose
    rw [ht, State.setCtx_ctx]
  · cases hm : t.ctx.mode
    · exact absurd hm hmode
    · exact absurd hm haad
    · rfl

theorem processByte_done_mode {dir : Direction} {b out : Byte} {s t : State} (h : processByte dir b s = .done out t) :
    t.ctx.mode = s.ctx.mode := by
  obtain ⟨s1, hcross, -, rfl⟩ := processByte_done h
  rw [State.setCtx_ctx, absorbTextByte_mode]
  obtain ⟨-, rfl⟩ | ⟨-, keystream, -, hs1⟩ := crossBoundary_done hcross
  · rfl
  · rw [hs1, State.setCtx_ctx, foldTextBlock_mode]

/-- PROCESS leaves phase TEXT. -/
theorem processBody_done_mode {dir : Direction} {chunk : List Byte} {s t : State} {data : List Byte}
    (h : processBody dir chunk s = .done data t) : t.ctx.mode = .text := by
  obtain ⟨-, -, s1, hclose, hbytes⟩ := processBody_done h
  refine processBytes_keeps (P := fun s => s.ctx.mode = .text) ?_ chunk s1 t data ?_ hbytes
  · exact fun _ _ _ _ hmode hbyte => (processByte_done_mode hbyte).trans hmode
  · exact closeAadPhase_done_mode (closeIvPhase_mode_ne_iv s.ctx) hclose

theorem Mode.iv_code_le (m : Mode) : Mode.iv.code ≤ m.code := by cases m <;> decide

theorem Mode.code_le_text (m : Mode) : m.code ≤ Mode.text.code := by cases m <;> decide

/-- A data command that succeeds goes on to its own phase or stays past it, and only FINISH writes `life`. -/
theorem commandBody_done_advances {i : Instr} (hi : isDataCommand i = true) {s t : State} {data : List Byte}
    (h : commandBody i s = .done data t) :
    s.ctx.mode.code ≤ t.ctx.mode.code ∧
      (t.ctx.life = s.ctx.life ∨
        (isFinish i = true ∧ s.ctx.life = .live ∧ t.ctx.life = .final ∧ t.ctx.mode = .text)) := by
  cases i with
  | init tbl blockLen sched => cases hi
  | addIv chunk =>
    obtain ⟨-, -, -, -, rfl⟩ := addIvBody_done h
    simp
  | addAad chunk =>
    obtain ⟨-, hmode, -, -, rfl⟩ := addAadBody_done h
    refine ⟨?_, .inl (by simp)⟩
    rw [State.setCtx_ctx, absorbAad_mode, closeIvPhase_mode_of_ne_text hmode]
    cases hm : s.ctx.mode
    · exact Mode.iv_code_le .aad
    · exact BitVec.le_refl _
    · exact absurd hm hmode
  | process dir chunk =>
    have hlife := (KeptBySessionWrites.life s.ctx.life).processBody dir chunk (s := s) rfl
    have hbody : processBody dir chunk s = .done data t := h
    rw [hbody] at hlife
    exact ⟨processBody_done_mode h ▸ Mode.code_le_text _, .inl hlife⟩
  | finish tagLen =>
    obtain ⟨hlife, hmode, -, mask, a, -, -, rfl⟩ := finishBody_done h
    simp [hlife, hmode, isFinish]
  | reset => cases hi
  | oneShot dir tbl tagLen key iv aad payload => cases hi

theorem lifeAfterError_of_holds {l : Life} (h : l.holds = true) : lifeAfterError false l = .fault := by
  cases l with
  | empty => cases h
  | live => rfl
  | final => rfl
  | fault => cases h

theorem createsContext_of_isDataCommand {i : Instr} (h : isDataCommand i = true) : createsContext i = false := by
  cases i <;> simp_all [isDataCommand, createsContext]

/-- Settles O55: a data command that raises leaves FAULT (R245), one that waits leaves the context it found (R302),
and one that succeeds goes on through the phases in order. -/
theorem phasesOnlyAdvance : Obligations.PhasesOnlyAdvance := by
  intro i s t hi h hholds
  rw [exec_next h]
  cases hbody : commandBody i s with
  | done data u =>
    rw [concludeCommand_done, State.respond_ctx]
    exact .inr (commandBody_done_advances hi hbody)
  | raised k u =>
    rw [concludeCommand_raised, State.takeError_ctx, createsContext_of_isDataCommand hi,
      commandBody_raised_life hi hbody]
    exact .inl (lifeAfterError_of_holds hholds)
  | waiting u => exact .inr ⟨BitVec.le_refl _, .inl rfl⟩

/-! ### The context invariant, phase by phase -/

/-- The clauses of `ContextInv` on the table, which no command but INIT, ONE_SHOT and an error touches. -/
def tableSound (s : State) : Prop :=
  s.ctx.table.wf ∧ (s.ctx.tblSel = true → s.hasTable = true ∧ s.ctx.table = tableGen s.ctx.H)

theorem tableSound_congr {s t : State} (hsetup : s.ctx.sameSetup t.ctx) (hhas : t.hasTable = s.hasTable)
    (h : tableSound s) : tableSound t := by
  obtain ⟨-, hH, htblSel, htable⟩ := hsetup
  unfold tableSound at h ⊢
  rwa [hH, htblSel, htable, hhas]

/-- What `ContextInv` says of a context in phase IV. -/
structure IvPhase (c : Context) : Prop where
  buflen : c.buflen ≤ 15
  counters : c.Y = 0 ∧ c.Y0 = 0 ∧ c.pttotlen = 0
  count : c.totlen.toNat % 128 = 0
  direct : c.ivmode = false → c.X = 0 ∧ c.totlen = 0 ∧ c.buflen ≤ 12

/-- What `ContextInv` says of a context in phase AAD. -/
structure AadPhase (c : Context) : Prop where
  buflen : c.buflen ≤ 15
  counterPrefix : samePrefix c.Y c.Y0
  count : c.pttotlen = 0

/-- What `ContextInv` says of a context in phase TEXT. -/
structure TextPhase (c : Context) : Prop where
  buflen : c.buflen ≤ 16
  counterPrefix : samePrefix c.Y c.Y0

/-- The clauses of `ContextInv` on the session's registers, by the phase. -/
def phaseInv (c : Context) : Prop :=
  match c.mode with
  | .iv => IvPhase c
  | .aad => AadPhase c
  | .text => TextPhase c

theorem phaseInv_iv {c : Context} (h : c.mode = .iv) : phaseInv c ↔ IvPhase c := by rw [phaseInv, h]

theorem phaseInv_aad {c : Context} (h : c.mode = .aad) : phaseInv c ↔ AadPhase c := by rw [phaseInv, h]

theorem phaseInv_text {c : Context} (h : c.mode = .text) : phaseInv c ↔ TextPhase c := by rw [phaseInv, h]

theorem contextInv_tableSound {s : State} (h : ContextInv s) (hholds : s.ctx.life.holds = true) : tableSound s :=
  ⟨h.tableWf, h.tableHolds hholds⟩

theorem contextInv_phaseInv {s : State} (h : ContextInv s) (hholds : s.ctx.life.holds = true) : phaseInv s.ctx := by
  cases hm : s.ctx.mode
  · exact (phaseInv_iv hm).mpr
      ⟨h.buflenLt hholds (by simp [hm]), h.ivPhase hholds hm, h.ivCount hholds hm, h.ivDirect hholds hm⟩
  · exact (phaseInv_aad hm).mpr
      ⟨h.buflenLt hholds (by simp [hm]), h.counterPrefix hholds (by simp [hm]), h.aadPhase hholds hm⟩
  · exact (phaseInv_text hm).mpr ⟨h.buflenLe hholds, h.counterPrefix hholds (by simp [hm])⟩

/-- A context in phase IV that holds values meets the invariant. -/
theorem contextInv_of_iv {s : State} (hlife : s.ctx.life = .live) (hm : s.ctx.mode = .iv) (htable : tableSound s)
    (h : IvPhase s.ctx) : ContextInv s where
  tableWf := htable.1
  buflenLe _ := BitVec.le_trans h.buflen (by decide)
  buflenLt _ _ := h.buflen
  tableHolds _ := htable.2
  counterPrefix _ hne := absurd hm hne
  ivPhase _ _ := h.counters
  ivCount _ _ := h.count
  ivDirect _ _ := h.direct
  aadPhase _ haad := by simp [hm] at haad
  finalText hfinal := by simp [hlife] at hfinal

theorem contextInv_of_aad {s : State} (hlife : s.ctx.life = .live) (hm : s.ctx.mode = .aad) (htable : tableSound s)
    (h : AadPhase s.ctx) : ContextInv s where
  tableWf := htable.1
  buflenLe _ := BitVec.le_trans h.buflen (by decide)
  buflenLt _ _ := h.buflen
  tableHolds _ := htable.2
  counterPrefix _ _ := h.counterPrefix
  ivPhase _ hiv := by simp [hm] at hiv
  ivCount _ hiv := by simp [hm] at hiv
  ivDirect _ hiv := by simp [hm] at hiv
  aadPhase _ _ := h.count
  finalText hfinal := by simp [hlife] at hfinal

/-- A context in phase TEXT meets the invariant, in LIVE and in FINAL. -/
theorem contextInv_of_text {s : State} (hm : s.ctx.mode = .text) (htable : tableSound s) (h : TextPhase s.ctx) :
    ContextInv s where
  tableWf := htable.1
  buflenLe _ := h.buflen
  buflenLt _ hne := absurd hm hne
  tableHolds _ := htable.2
  counterPrefix _ _ := h.counterPrefix
  ivPhase _ hiv := by simp [hm] at hiv
  ivCount _ hiv := by simp [hm] at hiv
  ivDirect _ hiv := by simp [hm] at hiv
  aadPhase _ haad := by simp [hm] at haad
  finalText _ := hm

/-- Where no context holds values, only the table's form is asked for. -/
theorem contextInv_of_lost {s : State} (hlost : s.ctx.life.holds = false) (hwf : s.ctx.table.wf) : ContextInv s := by
  have hno : ¬ s.ctx.life.holds = true := by simp [hlost]
  exact
    { tableWf := hwf
      buflenLe := fun h => absurd h hno
      buflenLt := fun h => absurd h hno
      tableHolds := fun h => absurd h hno
      counterPrefix := fun h => absurd h hno
      ivPhase := fun h => absurd h hno
      ivCount := fun h => absurd h hno
      ivDirect := fun h => absurd h hno
      aadPhase := fun h => absurd h hno
      finalText := fun h => absurd (by rw [h]; rfl) hno }

/-- `ContextInv` reads the context and `hasTable` alone. -/
theorem contextInv_congr {s t : State} (hctx : t.ctx = s.ctx) (hhas : t.hasTable = s.hasTable)
    (h : ContextInv s) : ContextInv t := by
  constructor <;> rw [hctx]
  · exact h.tableWf
  · exact h.buflenLe
  · exact h.buflenLt
  · rw [hhas]
    exact h.tableHolds
  · exact h.counterPrefix
  · exact h.ivPhase
  · exact h.ivCount
  · exact h.ivDirect
  · exact h.aadPhase
  · exact h.finalText

/-! ### The operations on the session's registers keep the phase's clauses -/

/-- The session's start meets the clauses of phase IV (R101). -/
theorem ivPhase_of_zeroSession {c : Context} (h : zeroSession c = c) : IvPhase c := by
  rw [← h]
  constructor <;> simp

theorem foldIvBlock_of_full {c : Context} (h : c.buflen = 16) :
    foldIvBlock c = { c with X := multH c (c.X ^^^ c.buf), buflen := 0, totlen := c.totlen + 128 } := if_pos h

theorem foldIvBlock_of_partial {c : Context} (h : c.buflen ≠ 16) : foldIvBlock c = c := if_neg h

theorem foldAadBlock_of_full {c : Context} (h : c.buflen = 16) :
    foldAadBlock c = { c with X := multH c c.X, buflen := 0, totlen := c.totlen + 128 } := if_pos h

theorem foldAadBlock_of_partial {c : Context} (h : c.buflen ≠ 16) : foldAadBlock c = c := if_neg h

theorem ivmodeAfter_eq_false (ivmode : Bool) (n : BitVec 5) :
    ivmodeAfter ivmode n = false ↔ ivmode = false ∧ n ≤ 12 := by
  simp [ivmodeAfter, BitVec.not_lt]

theorem zero_le_buflen (n : BitVec 5) : 0 ≤ n := by bv_omega

/-- A bit count of whole blocks stays one when a block is counted, also where it wraps (R18). -/
theorem wholeBlocks_succ {p : BitVec 64} (h : p.toNat % 128 = 0) : (p + 128).toNat % 128 = 0 := by bv_omega

/-- One more byte in a block in progress that it does not complete. -/
theorem buflen_succ_le {n : BitVec 5} (h : n ≤ 15) (hpartial : n + 1 ≠ 16) : n + 1 ≤ 15 := by bv_omega

theorem ivPhase_absorbIvByte {c : Context} (h : IvPhase c) (b : Byte) : IvPhase (absorbIvByte c b) := by
  obtain ⟨hbuflen, ⟨hY, hY0, hpt⟩, hcount, hdirect⟩ := h
  unfold absorbIvByte
  by_cases hfull : c.buflen + 1 = 16
  · rw [foldIvBlock_of_full hfull]
    have hpast : ivmodeAfter c.ivmode (c.buflen + 1) ≠ false := by
      rw [hfull, Ne, ivmodeAfter_eq_false]
      exact fun h => absurd h.2 (by decide)
    exact ⟨zero_le_buflen _, ⟨hY, hY0, hpt⟩, wholeBlocks_succ hcount, fun hiv => absurd hiv hpast⟩
  · rw [foldIvBlock_of_partial hfull]
    refine ⟨buflen_succ_le hbuflen hfull, ⟨hY, hY0, hpt⟩, hcount, fun hiv => ?_⟩
    obtain ⟨hold, hle⟩ := (ivmodeAfter_eq_false _ _).mp hiv
    obtain ⟨hX, htotlen, -⟩ := hdirect hold
    exact ⟨hX, htotlen, hle⟩

theorem ivPhase_absorbIv {c : Context} (h : IvPhase c) (chunk : List Byte) : IvPhase (absorbIv c chunk) := by
  induction chunk generalizing c with
  | nil => exact h
  | cons b chunk ih => exact ih (ivPhase_absorbIvByte h b)

theorem aadPhase_ivClose {c : Context} (h : IvPhase c) : AadPhase (ivClose c) :=
  ⟨zero_le_buflen _, rfl, h.counters.2.2⟩

/-- The close of phase IV keeps the clauses of whatever phase it leaves. -/
theorem phaseInv_closeIvPhase {c : Context} (h : phaseInv c) : phaseInv (closeIvPhase c) := by
  by_cases hm : c.mode = .iv
  · rw [closeIvPhase_of_iv hm]
    exact (phaseInv_aad (ivClose_mode c)).mpr (aadPhase_ivClose ((phaseInv_iv hm).mp h))
  · rwa [closeIvPhase_of_ne_iv hm]

theorem aadPhase_absorbAadByte {c : Context} (h : AadPhase c) (b : Byte) : AadPhase (absorbAadByte c b) := by
  obtain ⟨hbuflen, hprefix, hcount⟩ := h
  unfold absorbAadByte
  by_cases hfull : c.buflen + 1 = 16
  · rw [foldAadBlock_of_full hfull]
    exact ⟨zero_le_buflen _, hprefix, hcount⟩
  · rw [foldAadBlock_of_partial hfull]
    exact ⟨buflen_succ_le hbuflen hfull, hprefix, hcount⟩

theorem aadPhase_absorbAad {c : Context} (h : AadPhase c) (chunk : List Byte) : AadPhase (absorbAad c chunk) := by
  induction chunk generalizing c with
  | nil => exact h
  | cons b chunk ih => exact ih (aadPhase_absorbAadByte h b)

/-- A write of the counter field leaves bytes 0 to 11 (R186). -/
theorem samePrefix_withCounter (B : Block) (n : BitVec 32) : samePrefix (withCounter B n) B :=
  BitVec.extractLsb'_append_eq_left

@[simp] theorem counterOf_withCounter (B : Block) (n : BitVec 32) : counterOf (withCounter B n) = n :=
  BitVec.setWidth_append_eq_right

theorem samePrefix_inc32 {Y Y0 : Block} (h : samePrefix Y Y0) : samePrefix (inc32 Y) Y0 :=
  (samePrefix_withCounter Y _).trans h

theorem textPhase_closeAadPhase {s t : State} {u : Unit} (hmode : s.ctx.mode ≠ .iv) (hs : phaseInv s.ctx)
    (h : closeAadPhase s = .done u t) : TextPhase t.ctx := by
  obtain ⟨haad, hclose⟩ | ⟨haad, rfl⟩ := closeAadPhase_done h
  · obtain ⟨keystream, -, ht⟩ := aadClose_done hclose
    have hprefix := ((phaseInv_aad haad).mp hs).counterPrefix
    rw [ht, State.setCtx_ctx]
    refine ⟨zero_le_buflen _, ?_⟩
    simpa using samePrefix_inc32 hprefix
  · exact (phaseInv_text (closeAadPhase_done_mode hmode h)).mp hs

/-- After the test for a block boundary there is room for one more byte. -/
theorem textPhase_processByte {dir : Direction} {b out : Byte} {s t : State} (hs : TextPhase s.ctx)
    (h : processByte dir b s = .done out t) : TextPhase t.ctx := by
  obtain ⟨hbuflen, hprefix⟩ := hs
  obtain ⟨s1, hcross, -, rfl⟩ := processByte_done h
  obtain ⟨hpartial, rfl⟩ | ⟨-, keystream, -, hs1⟩ := crossBoundary_done hcross
  · refine ⟨?_, hprefix⟩
    show s1.ctx.buflen + 1 ≤ 16
    bv_omega
  · rw [hs1, State.setCtx_ctx]
    refine ⟨?_, samePrefix_inc32 hprefix⟩
    show (0 : BitVec 5) + 1 ≤ 16
    decide

theorem textPhase_processBody {dir : Direction} {chunk : List Byte} {s t : State} {data : List Byte}
    (hs : phaseInv s.ctx) (h : processBody dir chunk s = .done data t) : TextPhase t.ctx := by
  obtain ⟨-, -, s1, hclose, hbytes⟩ := processBody_done h
  refine processBytes_keeps (P := fun s => TextPhase s.ctx) ?_ chunk s1 t data ?_ hbytes
  · exact fun _ _ _ _ => textPhase_processByte
  · exact textPhase_closeAadPhase (closeIvPhase_mode_ne_iv s.ctx) (phaseInv_closeIvPhase hs) hclose

theorem textPhase_foldLast {c : Context} (h : TextPhase c) : TextPhase (foldLengths (foldPartialText c)) :=
  ⟨by simpa using h.buflen, by simpa using h.counterPrefix⟩

/-! ### Every command that succeeds keeps the context invariant -/

theorem tableSound_openContext {s : State} {tbl : Bool} (h : tbl = true → s.hasTable = true) (H : Block)
    (c : Context) : tableSound (s.setCtx (openContext tbl H c)) := by
  unfold tableSound
  rw [State.setCtx_ctx, State.setCtx_hasTable, openContext_table, openContext_tblSel, openContext_H]
  cases tbl with
  | false => exact ⟨Memory.wf_nil, fun hsel => absurd hsel (by decide)⟩
  | true => simpa [h rfl] using wf_tableGen H

/-- A command on a context leaves the table as it found it, sound. -/
theorem tableSound_commandBody {i : Instr} (hi : createsContext i = false) {s t : State} {data : List Byte}
    (hs : tableSound s) (h : commandBody i s = .done data t) : tableSound t := by
  have hsetup := commandBody_sameSetup hi s
  have hframe := commandBody_sameFrame i s
  rw [h] at hsetup hframe
  exact tableSound_congr hsetup hframe.1 hs

theorem commandBody_keeps_contextInv (i : Instr) {s t : State} {data : List Byte} (hs : ContextInv s)
    (h : commandBody i s = .done data t) : ContextInv t := by
  have hholds : s.ctx.life = .live → s.ctx.life.holds = true := fun hlife => by rw [hlife]; rfl
  have htable (hi : createsContext i = false) (hl : s.ctx.life.holds = true) : tableSound t :=
    tableSound_commandBody hi (contextInv_tableSound hs hl) h
  cases i with
  | init tbl blockLen sched =>
    obtain ⟨-, hhas, -, H, -, ht⟩ := initBody_done h
    rw [ht]
    exact contextInv_of_iv rfl rfl (tableSound_openContext hhas H _) (ivPhase_of_zeroSession rfl)
  | addIv chunk =>
    obtain ⟨hlife, hmode, -, -, rfl⟩ := addIvBody_done h
    have hphase := (phaseInv_iv hmode).mp (contextInv_phaseInv hs (hholds hlife))
    exact contextInv_of_iv (by simp [hlife]) (by simp [hmode]) (htable rfl (hholds hlife))
      (ivPhase_absorbIv hphase chunk)
  | addAad chunk =>
    obtain ⟨hlife, hmode, -, -, rfl⟩ := addAadBody_done h
    have haad := closeIvPhase_mode_of_ne_text hmode
    have hphase := (phaseInv_aad haad).mp (phaseInv_closeIvPhase (contextInv_phaseInv hs (hholds hlife)))
    exact contextInv_of_aad (by simp [hlife]) (by simp [haad])
      (htable rfl (hholds hlife)) (aadPhase_absorbAad hphase chunk)
  | process dir chunk =>
    obtain ⟨hlife, -⟩ := processBody_done h
    exact contextInv_of_text (processBody_done_mode h) (htable rfl (hholds hlife))
      (textPhase_processBody (contextInv_phaseInv hs (hholds hlife)) h)
  | finish tagLen =>
    obtain ⟨hlife, hmode, -, mask, a, -, -, rfl⟩ := finishBody_done h
    have hlast := textPhase_foldLast ((phaseInv_text hmode).mp (contextInv_phaseInv hs (hholds hlife)))
    exact contextInv_of_text (by simp [hmode]) (htable rfl (hholds hlife)) ⟨hlast.buflen, hlast.counterPrefix⟩
  | reset =>
    obtain ⟨hl, -, rfl⟩ := resetBody_done h
    exact contextInv_of_iv rfl rfl (htable rfl hl) (ivPhase_of_zeroSession rfl)
  | oneShot dir tbl tagLen key iv aad payload =>
    obtain ⟨made, s1, s2, -, -, rfl⟩ := oneShotBody_done h
    exact contextInv_of_lost rfl Memory.wf_nil

/-- Settles O53, by the step induction: each success keeps the clauses of the phase it leaves and the table. -/
theorem stepKeepsContextInv : Obligations.StepKeepsContextInv := by
  intro s t hs h
  refine step_keeps contextInv_congr (fun hlost htable => ?_) (fun i => commandBody_keeps_contextInv i) hs h
  exact contextInv_of_lost hlost (htable ▸ Memory.wf_nil)

/-! ### The count of the counter (R187) -/

/-- What `CounterInv` says of a context in phase TEXT. -/
def countsBoundaries (c : Context) : Prop :=
  c.pttotlen.toNat % 128 = 0 ∧ c.Y = withCounter c.Y0 (counterOf c.Y0 + 1 + (c.pttotlen >>> 7).setWidth 32)

theorem countsBoundaries_congr {c d : Context} (hY : d.Y = c.Y) (hY0 : d.Y0 = c.Y0) (hcount : d.pttotlen = c.pttotlen)
    (h : countsBoundaries c) : countsBoundaries d := by
  unfold countsBoundaries at h ⊢
  rwa [hY, hY0, hcount]

/-- The clauses of `CounterInv`, by the phase. -/
def counterPhaseInv (c : Context) : Prop :=
  match c.mode with
  | .iv => c.pttotlen = 0
  | .aad => c.Y = c.Y0 ∧ c.pttotlen = 0
  | .text => countsBoundaries c

theorem counterPhaseInv_iv {c : Context} (h : c.mode = .iv) : counterPhaseInv c ↔ c.pttotlen = 0 := by
  rw [counterPhaseInv, h]

theorem counterPhaseInv_aad {c : Context} (h : c.mode = .aad) :
    counterPhaseInv c ↔ c.Y = c.Y0 ∧ c.pttotlen = 0 := by rw [counterPhaseInv, h]

theorem counterPhaseInv_text {c : Context} (h : c.mode = .text) : counterPhaseInv c ↔ countsBoundaries c := by
  rw [counterPhaseInv, h]

/-- `CounterInv` speaks of LIVE contexts, by the phase. -/
theorem counterInv_iff (s : State) : CounterInv s ↔ (s.ctx.life = .live → counterPhaseInv s.ctx) := by
  constructor
  · intro h hlife
    cases hm : s.ctx.mode
    · exact (counterPhaseInv_iv hm).mpr (h.ivZero hlife hm)
    · exact (counterPhaseInv_aad hm).mpr (h.aadStart hlife hm)
    · exact (counterPhaseInv_text hm).mpr (h.textCount hlife hm)
  · intro h
    exact
      { ivZero := fun hlife hm => (counterPhaseInv_iv hm).mp (h hlife)
        aadStart := fun hlife hm => (counterPhaseInv_aad hm).mp (h hlife)
        textCount := fun hlife hm => (counterPhaseInv_text hm).mp (h hlife) }

theorem counterPhaseInv_closeIvPhase {c : Context} (h : counterPhaseInv c) : counterPhaseInv (closeIvPhase c) := by
  by_cases hm : c.mode = .iv
  · rw [closeIvPhase_of_iv hm]
    exact (counterPhaseInv_aad (ivClose_mode c)).mpr ⟨rfl, (counterPhaseInv_iv hm).mp h⟩
  · rwa [closeIvPhase_of_ne_iv hm]

/-- `Inc32` on a counter block adds 1 to its field (R186). -/
theorem inc32_withCounter (B : Block) (n : BitVec 32) : inc32 (withCounter B n) = withCounter B (n + 1) := by
  unfold inc32
  rw [counterOf_withCounter]
  exact congrArg (· ++ (n + 1)) (samePrefix_withCounter B n)

/-- One boundary more counts 128 bits more, also where `pttotlen` wraps. -/
theorem boundaries_succ {p : BitVec 64} (h : p.toNat % 128 = 0) :
    ((p + 128) >>> 7).setWidth 32 = (p >>> 7).setWidth 32 + 1 := by
  apply BitVec.eq_of_toNat_eq
  have h128 : (128 : BitVec 64).toNat = 128 := rfl
  have h1 : (1 : BitVec 32).toNat = 1 := rfl
  simp only [BitVec.toNat_setWidth, BitVec.toNat_ushiftRight, BitVec.toNat_add, Nat.shiftRight_eq_div_pow, h128, h1]
  omega

/-- A boundary crossed advances the counter and the count together. -/
theorem countsBoundaries_foldTextBlock {c : Context} (h : countsBoundaries c) :
    countsBoundaries (foldTextBlock c) := by
  obtain ⟨hcount, hY⟩ := h
  refine ⟨wholeBlocks_succ hcount, ?_⟩
  simp only [foldTextBlock_Y, foldTextBlock_Y0, foldTextBlock_pttotlen]
  rw [hY, inc32_withCounter, boundaries_succ hcount, BitVec.add_assoc _ _ 1]

theorem countsBoundaries_closeAadPhase {s t : State} {u : Unit} (hmode : s.ctx.mode ≠ .iv)
    (hs : counterPhaseInv s.ctx) (h : closeAadPhase s = .done u t) : countsBoundaries t.ctx := by
  obtain ⟨haad, hclose⟩ | ⟨haad, rfl⟩ := closeAadPhase_done h
  · obtain ⟨keystream, -, ht⟩ := aadClose_done hclose
    obtain ⟨hY, hcount⟩ := (counterPhaseInv_aad haad).mp hs
    rw [ht, State.setCtx_ctx]
    unfold countsBoundaries
    simp [hY, hcount, inc32]
  · exact (counterPhaseInv_text (closeAadPhase_done_mode hmode h)).mp hs

theorem countsBoundaries_processByte {dir : Direction} {b out : Byte} {s t : State} (hs : countsBoundaries s.ctx)
    (h : processByte dir b s = .done out t) : countsBoundaries t.ctx := by
  obtain ⟨s1, hcross, -, rfl⟩ := processByte_done h
  obtain ⟨-, rfl⟩ | ⟨-, keystream, -, hs1⟩ := crossBoundary_done hcross
  · exact hs
  · rw [hs1]
    exact countsBoundaries_congr (c := foldTextBlock s.ctx) rfl rfl rfl (countsBoundaries_foldTextBlock hs)

theorem countsBoundaries_processBody {dir : Direction} {chunk : List Byte} {s t : State} {data : List Byte}
    (hs : counterPhaseInv s.ctx) (h : processBody dir chunk s = .done data t) : countsBoundaries t.ctx := by
  obtain ⟨-, -, s1, hclose, hbytes⟩ := processBody_done h
  refine processBytes_keeps (P := fun s => countsBoundaries s.ctx) ?_ chunk s1 t data ?_ hbytes
  · exact fun _ _ _ _ => countsBoundaries_processByte
  · exact countsBoundaries_closeAadPhase (closeIvPhase_mode_ne_iv s.ctx) (counterPhaseInv_closeIvPhase hs) hclose

theorem commandBody_keeps_counterInv (i : Instr) {s t : State} {data : List Byte} (hs : CounterInv s)
    (h : commandBody i s = .done data t) : CounterInv t := by
  rw [counterInv_iff] at hs ⊢
  intro hlive
  cases i with
  | init tbl blockLen sched =>
    obtain ⟨-, -, -, H, -, ht⟩ := initBody_done h
    rw [ht]
    exact (counterPhaseInv_iv rfl).mpr rfl
  | addIv chunk =>
    obtain ⟨hlife, hmode, -, -, rfl⟩ := addIvBody_done h
    have hcount := (counterPhaseInv_iv hmode).mp (hs hlife)
    exact (counterPhaseInv_iv (by simp [hmode])).mpr (by simp [hcount])
  | addAad chunk =>
    obtain ⟨hlife, hmode, -, -, rfl⟩ := addAadBody_done h
    have haad := closeIvPhase_mode_of_ne_text hmode
    have hstart := (counterPhaseInv_aad haad).mp (counterPhaseInv_closeIvPhase (hs hlife))
    exact (counterPhaseInv_aad (by simp [haad])).mpr (by simpa using hstart)
  | process dir chunk =>
    obtain ⟨hlife, -⟩ := processBody_done h
    exact (counterPhaseInv_text (processBody_done_mode h)).mpr (countsBoundaries_processBody (hs hlife) h)
  | finish tagLen =>
    obtain ⟨-, -, -, mask, a, -, -, rfl⟩ := finishBody_done h
    cases hlive
  | reset =>
    obtain ⟨-, -, rfl⟩ := resetBody_done h
    exact (counterPhaseInv_iv rfl).mpr rfl
  | oneShot dir tbl tagLen key iv aad payload =>
    obtain ⟨made, s1, s2, -, -, rfl⟩ := oneShotBody_done h
    cases hlive

theorem counterInv_of_lost {s : State} (hlost : s.ctx.life.holds = false) : CounterInv s :=
  (counterInv_iff s).mpr fun hlive => by
    rw [hlive] at hlost
    cases hlost

/-- `CounterInv` reads the context alone. -/
theorem counterInv_congr {s t : State} (hctx : t.ctx = s.ctx) (h : CounterInv s) : CounterInv t := by
  rw [counterInv_iff] at h ⊢
  rwa [hctx]

/-- Settles O54, by the step induction: the counter moves only in AadClose and at a boundary, where the count does. -/
theorem stepKeepsCounterInv : Obligations.StepKeepsCounterInv := fun _ _ hs h =>
  step_keeps (fun hctx _ => counterInv_congr hctx) (fun hlost _ => counterInv_of_lost hlost)
    commandBody_keeps_counterInv hs h

end Sys2Proof.Machine
end

section
/-! The decoder's operations on a byte stream (`30_encoding.md`, R89): each reads its operand back from the bytes the
encoder writes for it, and bytes that arrive later do not change what it has read. -/

namespace Sys2Proof

/-! ### What each operation reads back from the encoder's bytes -/

theorem word32_be32 (w : BitVec 32) :
    word32 (w.extractLsb' 24 8) (w.extractLsb' 16 8) (w.extractLsb' 8 8) (w.extractLsb' 0 8) = w := by
  apply BitVec.eq_of_getLsbD_eq
  intro i hi
  unfold word32
  simp only [BitVec.getLsbD_append, BitVec.getLsbD_extractLsb']
  split_ifs with h0 h1 h2
  · rw [decide_eq_true h0, Bool.true_and, Nat.zero_add]
  · rw [decide_eq_true h1, Bool.true_and, Nat.add_sub_cancel' (by omega)]
  · rw [decide_eq_true h2, Bool.true_and, Nat.sub_sub, Nat.add_sub_cancel' (by omega)]
  · rw [decide_eq_true (by omega), Bool.true_and, Nat.sub_sub, Nat.sub_sub, Nat.add_sub_cancel' (by omega)]

theorem takeWord_be32_append (w : BitVec 32) (rest : List Byte) : takeWord (be32 w ++ rest) = some (w, rest) :=
  congrArg (fun v => some (v, rest)) (word32_be32 w)

theorem takeBytes_length_append (bytes rest : List Byte) :
    takeBytes bytes.length (bytes ++ rest) = some (bytes, rest) := by
  simp [takeBytes]

/-- A byte count that fits a 32-bit length word is the value of that word (R77). -/
theorem toNat_lengthWord {bytes : List Byte} (h : fits32 bytes) :
    (BitVec.ofNat 32 bytes.length).toNat = bytes.length := by
  rw [BitVec.toNat_ofNat, Nat.mod_eq_of_lt h]

/-- A chunk is read back under any header whose `len16` is its length (R74). -/
theorem takeChunk_headerWord_append (op : BitVec 4) (dir tbl : Bool) (arg8 : Byte) {chunk : List Byte}
    (h : fits16 chunk) (rest : List Byte) :
    takeChunk (headerWord op dir tbl arg8 chunk.length) (chunk ++ rest) = some (chunk, rest) := by
  rw [takeChunk, hdrLen16_headerWord op dir tbl arg8 h, takeBytes_length_append]

theorem takeOneShot_encode_append {dir : Direction} {tbl : Bool} {tagLen : Byte} {key iv aad payload : List Byte}
    (hkey : fits16 key) (hiv : fits32 iv) (haad : fits32 aad) (hpayload : fits32 payload) (rest : List Byte) :
    takeOneShot (Instr.oneShot dir tbl tagLen key iv aad payload).header
        ((Instr.oneShot dir tbl tagLen key iv aad payload).operandBytes ++ rest) =
      some (.oneShot dir tbl tagLen key iv aad payload, rest) := by
  simp only [takeOneShot, Instr.header, Instr.operandBytes, List.append_assoc, takeWord_be32_append, Option.bind_some,
    hdrLen16_headerWord _ _ _ _ hkey, toNat_lengthWord hiv, toNat_lengthWord haad, toNat_lengthWord hpayload,
    takeBytes_length_append, Option.map_some, hdrDir_headerWord, hdrTbl_headerWord, hdrArg8_headerWord]

/-- The operands of a command are read back from its header and operand bytes (R72). -/
theorem takeOperands_encode_append {i : Instr} (h : i.wellFormed = true) (rest : List Byte) :
    takeOperands i.header (i.operandBytes ++ rest) i.opcode = some (i, rest) := by
  cases i with
  | init tbl blockLen sched =>
    simp only [takeOperands, Instr.opcode, Instr.header, Instr.operandBytes, takeWord_be32_append, Option.map_some,
      hdrTbl_headerWord, hdrArg8_headerWord]
  | addIv chunk =>
    have hfits : fits16 chunk := of_decide_eq_true h
    simp only [takeOperands, Instr.opcode, Instr.header, Instr.operandBytes,
      takeChunk_headerWord_append _ _ _ _ hfits, Option.map_some]
  | addAad chunk =>
    have hfits : fits16 chunk := of_decide_eq_true h
    simp only [takeOperands, Instr.opcode, Instr.header, Instr.operandBytes,
      takeChunk_headerWord_append _ _ _ _ hfits, Option.map_some]
  | process dir chunk =>
    have hfits : fits16 chunk := of_decide_eq_true h
    simp only [takeOperands, Instr.opcode, Instr.header, Instr.operandBytes,
      takeChunk_headerWord_append _ _ _ _ hfits, Option.map_some, hdrDir_headerWord]
  | finish tagLen =>
    simp only [takeOperands, Instr.opcode, Instr.header, Instr.operandBytes, hdrArg8_headerWord, List.nil_append]
  | reset => rfl
  | oneShot dir tbl tagLen key iv aad payload =>
    simp only [Instr.wellFormed, Bool.and_eq_true, decide_eq_true_eq] at h
    obtain ⟨⟨⟨hkey, hiv⟩, haad⟩, hpayload⟩ := h
    exact takeOneShot_encode_append hkey hiv haad hpayload rest

/-- The family `HeaderSelects`, over every command: its header selects its own row of R78. -/
theorem lookupOpcode_header {i : Instr} (h : i.wellFormed = true) : lookupOpcode i.header = some i.opcode := by
  have hselects : Laws.HeaderSelects.Statement i := by
    cases i with
    | init tbl blockLen sched => exact Laws.HeaderSelects.init tbl blockLen sched
    | addIv chunk => exact Laws.HeaderSelects.addIv chunk
    | addAad chunk => exact Laws.HeaderSelects.addAad chunk
    | process dir chunk => exact Laws.HeaderSelects.process dir chunk
    | finish tagLen => exact Laws.HeaderSelects.finish tagLen
    | reset => exact Laws.HeaderSelects.reset
    | oneShot dir tbl tagLen key iv aad payload => exact Laws.HeaderSelects.oneShot dir tbl tagLen key iv aad payload
  exact (hselects h).1

/-- Four bytes of a header and the operand bytes after them (R89). -/
theorem decode_be32_append (header : Header) (bytes : List Byte) :
    decode (be32 header ++ bytes) = decodeAfterHeader header bytes :=
  congrArg (decodeAfterHeader · bytes) (word32_be32 header)

/-- R89 after a legal header whose operands have not all arrived (R46). -/
theorem decodeAfterHeader_incomplete {header : Header} {op : Opcode} {bytes : List Byte}
    (hop : lookupOpcode header = some op) (h : takeOperands header bytes op = none) :
    decodeAfterHeader header bytes = .incomplete := by
  simp only [decodeAfterHeader, hop, h]

/-! ### Bytes that arrive later change nothing that has been read -/

/-- What `take` has read from the front of a stream it also reads when more bytes follow, and leaves those unread. -/
def ReadsFront {α : Type} (take : List Byte → Option (α × List Byte)) : Prop :=
  ∀ (bytes rest : List Byte) (a : α), take bytes = some (a, rest) →
    ∀ more, take (bytes ++ more) = some (a, rest ++ more)

theorem readsFront_takeBytes (n : Nat) : ReadsFront (takeBytes n) := by
  intro bytes rest taken h more
  unfold takeBytes at h ⊢
  split at h
  · rename_i hlen
    cases h
    rw [if_pos (by rw [List.length_append]; omega), List.take_append_of_le_length hlen,
      List.drop_append_of_le_length hlen]
  · cases h

theorem readsFront_takeWord : ReadsFront takeWord := by
  intro bytes rest w h more
  unfold takeWord at h
  split at h
  · cases h
    rfl
  · cases h

theorem ReadsFront.bind {α β : Type} {take : List Byte → Option (α × List Byte)}
    {next : α × List Byte → Option (β × List Byte)} (htake : ReadsFront take)
    (hnext : ∀ a, ReadsFront fun rest => next (a, rest)) : ReadsFront fun bytes => (take bytes).bind next := by
  intro bytes rest b h more
  obtain ⟨⟨a, r⟩, hfirst, hsecond⟩ := Option.bind_eq_some_iff.mp h
  simp only [htake _ _ _ hfirst more, Option.bind_some]
  exact hnext a _ _ _ hsecond more

theorem ReadsFront.map {α β : Type} {take : List Byte → Option (α × List Byte)} (htake : ReadsFront take)
    (f : α → β) : ReadsFront fun bytes => (take bytes).map fun (a, rest) => (f a, rest) := by
  intro bytes rest b h more
  obtain ⟨⟨a, r⟩, htaken, hend⟩ := Option.map_eq_some_iff.mp h
  cases hend
  simp only [htake _ _ _ htaken more, Option.map_some]

theorem readsFront_takeOneShot (header : Header) : ReadsFront (takeOneShot header) := by
  unfold takeOneShot
  refine readsFront_takeWord.bind fun ivlen => ?_
  refine readsFront_takeWord.bind fun aadlen => ?_
  refine readsFront_takeWord.bind fun ptlen => ?_
  refine (readsFront_takeBytes (hdrLen16 header)).bind fun key => ?_
  refine (readsFront_takeBytes ivlen.toNat).bind fun iv => ?_
  refine (readsFront_takeBytes aadlen.toNat).bind fun aad => ?_
  exact (readsFront_takeBytes ptlen.toNat).map
    (Instr.oneShot (hdrDir header) (hdrTbl header) (hdrArg8 header) key iv aad)

theorem readsFront_takeOperands (header : Header) (op : Opcode) : ReadsFront (takeOperands header · op) := by
  cases op with
  | init => exact readsFront_takeWord.map (Instr.init (hdrTbl header) (hdrArg8 header))
  | addIv => exact (readsFront_takeBytes (hdrLen16 header)).map Instr.addIv
  | addAad => exact (readsFront_takeBytes (hdrLen16 header)).map Instr.addAad
  | process => exact (readsFront_takeBytes (hdrLen16 header)).map (Instr.process (hdrDir header))
  | finish =>
    intro bytes rest i h more
    cases h
    rfl
  | reset =>
    intro bytes rest i h more
    cases h
    rfl
  | oneShot => exact readsFront_takeOneShot header

/-! ### A command that has not wholly arrived (R46, R302) -/

/-- Operand bytes cut short are not operands: what they were read as would be read from the whole string too, and
would leave the missing bytes unread. -/
theorem takeOperands_of_cut {i : Instr} (h : i.wellFormed = true) {front back : List Byte}
    (hcut : i.operandBytes = front ++ back) (hback : back ≠ []) : takeOperands i.header front i.opcode = none := by
  cases htaken : takeOperands i.header front i.opcode with
  | none => rfl
  | some taken =>
    obtain ⟨j, rest⟩ := taken
    have hmore : takeOperands i.header (front ++ back) i.opcode = some (j, rest ++ back) :=
      readsFront_takeOperands i.header i.opcode _ _ _ htaken back
    have hwhole := takeOperands_encode_append h []
    rw [List.append_nil, hcut, hmore] at hwhole
    simp [hback] at hwhole

/-- Fewer bytes than a header, or a whole header and part of its operands. -/
theorem decode_of_cut {i : Instr} (h : i.wellFormed = true) {front back : List Byte}
    (hcut : encode i = front ++ back) (hfront : front ≠ []) (hback : back ≠ []) : decode front = .incomplete := by
  match front with
  | [] => exact absurd rfl hfront
  | [_] | [_, _] | [_, _, _] => rfl
  | b0 :: b1 :: b2 :: b3 :: operands =>
    obtain ⟨hheader, hoperands⟩ : be32 i.header = [b0, b1, b2, b3] ∧ i.operandBytes = operands ++ back :=
      List.append_inj hcut rfl
    show decode ([b0, b1, b2, b3] ++ operands) = .incomplete
    rw [← hheader, decode_be32_append]
    exact decodeAfterHeader_incomplete (lookupOpcode_header h) (takeOperands_of_cut h hoperands hback)

end Sys2Proof
end

section
/-! The step and the one answer of every command (`20_memory.md`): what `step` does with each thing that can stand on
CMD, and what a command leaves on RSP, on CIPH and, when it waits, in the context. -/

namespace Sys2Proof.Machine

/-! ### The step, by what stands on CMD -/

theorem step_of_waiting {s : State} (h : s.waiting = true) : step s = .fault .adapterSilent := by
  simp only [step, h, if_true]

theorem step_of_idle {s : State} (hw : s.waiting = false) (h : decode s.cmd = .idle) : step s = .next s := by
  simp only [step, hw, h, Bool.false_eq_true, if_false]

theorem step_of_incomplete {s : State} (hw : s.waiting = false) (h : decode s.cmd = .incomplete) :
    step s = .fault .commandIncomplete := by
  simp only [step, hw, h, Bool.false_eq_true, if_false]

/-- Settles O5: the command's arm of `step`. -/
theorem stepRunsDecodedCommand : Obligations.StepRunsDecodedCommand := by
  intro s i rest hw h
  simp only [step, hw, h, Bool.false_eq_true, if_false]

/-- Settles O6: of the three, the one with an idea is that a command cut short decodes to nothing (`decode_of_cut`). -/
theorem stepWithoutAWholeCommand : Obligations.StepWithoutAWholeCommand := by
  refine ⟨fun s hw hcmd => ?_, fun s => step_of_waiting, fun s i front back hw hwf hcut hfront hback hcmd => ?_⟩
  · exact step_of_idle hw (by rw [hcmd]; rfl)
  · exact step_of_incomplete hw (by rw [hcmd]; exact decode_of_cut hwf hcut hfront hback)

/-! ### What a command's pseudocode writes before its end -/

/-- A property holds of the state in which a command's pseudocode stopped, or, where that was the success of a ONE_SHOT,
of the state whose context it then lost (R225). -/
def Result.KeepsUntilLost (P : State → Prop) (r : Result (List Byte)) : Prop :=
  (∃ data u, r = .done data (u.loseContext .empty) ∧ P u) ∨ P r.state

/-- A property is kept by what any command does while it runs: transactions, and any write of the context. -/
structure KeptByCommandWrites (P : State → Prop) : Prop where
  setCtx : ∀ {s : State} (c : Context), P s → P (s.setCtx c)
  transact : ∀ {s : State} (t : Transaction) (a : Adapter), P s → P (s.transact t a)

section CommandWrites

variable {P : State → Prop} {s : State} (hP : KeptByCommandWrites P)

include hP

theorem KeptByCommandWrites.sessionWrites : KeptBySessionWrites P :=
  ⟨fun _ _ h => hP.setCtx _ h, hP.transact⟩

theorem KeptByCommandWrites.finishBody (tagLen : Byte) (h : P s) : P (finishBody tagLen s).state :=
  hP.sessionWrites.finishBody (hP.setCtx _) tagLen h

theorem KeptByCommandWrites.initBody (tbl : Bool) (blockLen : Byte) (sched : Handle) (h : P s) :
    P (initBody tbl blockLen sched s).state := by
  refine Result.state_andThen ?_ fun _ s h => ?_
  · rw [Result.refuseIf_state]
    exact hP.setCtx _ h
  refine Result.state_andThen (by rwa [Result.refuseIf_state]) fun _ s h => ?_
  exact Result.state_andThen (hP.sessionWrites.enc _ (hP.setCtx _ h)) fun _ _ h => hP.setCtx _ h

theorem KeptByCommandWrites.resetBody (h : P s) : P (resetBody s).state :=
  Result.state_andThen (by rwa [Result.refuseIf_state]) fun _ _ h => hP.setCtx _ h

theorem KeptByCommandWrites.oneShotSteps (dir : Direction) (tbl : Bool) (tagLen blockLen : Byte) (handle : Handle)
    (iv aad payload : List Byte) (h : P s) :
    P (oneShotSteps dir tbl tagLen blockLen handle iv aad payload s).state := by
  refine Result.state_andThen (hP.initBody tbl blockLen handle h) fun _ _ h => ?_
  refine Result.state_andThen (hP.sessionWrites.addIvBody iv h) fun _ _ h => ?_
  refine Result.state_andThen (hP.sessionWrites.addAadBody aad h) fun _ _ h => ?_
  refine Result.state_andThen (hP.sessionWrites.processBody dir payload h) fun _ _ h => ?_
  exact Result.state_andThen (hP.finishBody tagLen h) fun _ _ h => h

theorem KeptByCommandWrites.adapterSetup (key : List Byte) (h : P s) : P (adapterSetup key s).state := by
  rw [adapterSetup_state]
  exact hP.transact _ _ h

theorem KeptByCommandWrites.releaseOnError (handle : Handle) {r : Result (List Byte)} (h : P r.state) :
    (releaseOnError handle r).KeepsUntilLost P := by
  cases r with
  | done data t => exact .inl ⟨data, t, rfl, h⟩
  | raised k t => exact .inr (hP.transact _ _ h)
  | waiting t => exact .inr h

theorem KeptByCommandWrites.oneShotBody (dir : Direction) (tbl : Bool) (tagLen : Byte) (key iv aad payload : List Byte)
    (h : P s) : (oneShotBody dir tbl tagLen key iv aad payload s).KeepsUntilLost P := by
  have hsetup : P (Machine.adapterSetup key (s.setLife .empty)).state := hP.adapterSetup key (hP.setCtx _ h)
  unfold Machine.oneShotBody
  cases hmade : Machine.adapterSetup key (s.setLife .empty) with
  | done made t =>
    rw [hmade, Result.state_done] at hsetup
    exact hP.releaseOnError _ (hP.oneShotSteps dir tbl tagLen made.2 made.1 iv aad payload hsetup)
  | raised k t => rw [hmade] at hsetup; exact .inr hsetup
  | waiting t => rw [hmade] at hsetup; exact .inr hsetup

theorem KeptByCommandWrites.commandBody (i : Instr) (h : P s) : (commandBody i s).KeepsUntilLost P := by
  cases i with
  | init tbl blockLen sched => exact .inr (hP.initBody tbl blockLen sched h)
  | addIv chunk => exact .inr (hP.sessionWrites.addIvBody chunk h)
  | addAad chunk => exact .inr (hP.sessionWrites.addAadBody chunk h)
  | process dir chunk => exact .inr (hP.sessionWrites.processBody dir chunk h)
  | finish tagLen => exact .inr (hP.finishBody tagLen h)
  | reset => exact .inr (hP.resetBody h)
  | oneShot dir tbl tagLen key iv aad payload => exact hP.oneShotBody dir tbl tagLen key iv aad payload h

end CommandWrites

theorem KeptByCommandWrites.ciphPrefix (s : State) : KeptByCommandWrites fun t => s.ciph <+: t.ciph where
  setCtx := fun _ h => h
  transact := fun t _ h => h.trans (List.prefix_append _ [t])

theorem KeptByCommandWrites.freeIndex (n : Nat) : KeptByCommandWrites fun t => t.freeIndex = n :=
  ⟨fun _ h => h, fun _ _ h => h⟩

/-- Transactions are only added on CIPH (R302). -/
theorem commandBody_ciph (i : Instr) (s : State) : s.ciph <+: (commandBody i s).state.ciph := by
  obtain ⟨data, u, hdone, hu⟩ | hkept := (KeptByCommandWrites.ciphPrefix s).commandBody i (List.prefix_refl s.ciph)
  · rwa [hdone]
  · exact hkept

/-- A command that waits has taken no free context: it has lost none (R302). -/
theorem commandBody_waiting_freeIndex {i : Instr} {s t : State} (h : commandBody i s = .waiting t) :
    t.freeIndex = s.freeIndex := by
  obtain ⟨data, u, hdone, -⟩ | hkept := (KeptByCommandWrites.freeIndex s.freeIndex).commandBody i rfl
  · rw [hdone] at h
    cases h
  · rwa [h] at hkept

/-! ### One answer (R83, R86, R302) -/

theorem ErrorKind.code_le (k : ErrorKind) : k.code ≤ 5 := by cases k <;> decide

/-- Settles O7, by how the command's pseudocode ends: each end but the wait writes one response. -/
theorem everyCommandAnswersOnce : Obligations.EveryCommandAnswersOnce := by
  intro i s
  refine ⟨_, exec_eq i s, ?_⟩
  obtain ⟨hhas, hcmd, hrsp, hwaiting⟩ := commandBody_sameFrame i s
  have hciph := commandBody_ciph i s
  rw [concludeCommand_ciph, concludeCommand_cmd, concludeCommand_hasTable]
  refine ⟨?_, hciph, hcmd, hhas⟩
  cases hbody : commandBody i s with
  | done data t =>
    rw [hbody] at hrsp hwaiting
    exact .inl ⟨okCode, data, congrArg (· ++ _) hrsp, fun hne => absurd rfl hne, by decide, hwaiting⟩
  | raised k t =>
    rw [hbody] at hrsp hwaiting
    exact .inl ⟨k.code, [], congrArg (· ++ _) hrsp, fun _ => rfl, k.code_le, hwaiting⟩
  | waiting t =>
    rw [hbody] at hrsp
    have hfree : t.freeIndex = s.freeIndex := commandBody_waiting_freeIndex hbody
    exact .inr ⟨hrsp, rfl, rfl, hfree⟩

end Sys2Proof.Machine
end

section
/-! The header word and the opcode map (`30_encoding.md`, R71, R78, R80): a header is its six fields, and a row of R78
selects it when its `op` is the row's and every field that must be 0 for that `op` is 0. -/

namespace Sys2Proof

/-! ### A header is its fields (R71) -/

theorem hdrDir_eq_decrypt_iff (h : Header) : hdrDir h = .decrypt ↔ h.getLsbD 27 = true := by
  unfold hdrDir
  cases h.getLsbD 27 <;> decide

theorem hdrDir_inj {h h' : Header} : hdrDir h = hdrDir h' ↔ h.getLsbD 27 = h'.getLsbD 27 := by
  unfold hdrDir
  cases h.getLsbD 27 <;> cases h'.getLsbD 27 <;> decide

theorem hdrLen16_lt (h : Header) : hdrLen16 h < 2 ^ 16 := (h.extractLsb' 0 16).isLt

theorem hdrLen16_eq_zero_iff (h : Header) : hdrLen16 h = 0 ↔ h.extractLsb' 0 16 = 0 :=
  BitVec.toNat_inj (y := 0#16)

/-- Two bit vectors that agree in a field agree in each of its bits. -/
theorem getLsbD_eq_of_extractLsb'_eq {h h' : Header} {start len i : Nat}
    (heq : h.extractLsb' start len = h'.extractLsb' start len) (hstart : start ≤ i) (hend : i < start + len) :
    h.getLsbD i = h'.getLsbD i := by
  have hbit := congrArg (·.getLsbD (i - start)) heq
  have hlt : i - start < len := by omega
  simpa only [BitVec.getLsbD_extractLsb', hlt, decide_true, Bool.true_and, Nat.add_sub_cancel' hstart] using hbit

/-- Two headers are equal when their `op`, `zero`, `dir`, `tbl`, `arg8` and `len16` are (R71). -/
theorem header_ext_iff {h h' : Header} :
    h = h' ↔ h.extractLsb' 28 4 = h'.extractLsb' 28 4 ∧ h.extractLsb' 24 2 = h'.extractLsb' 24 2 ∧
      h.getLsbD 27 = h'.getLsbD 27 ∧ hdrTbl h = hdrTbl h' ∧ hdrArg8 h = hdrArg8 h' ∧
      h.extractLsb' 0 16 = h'.extractLsb' 0 16 := by
  constructor
  · rintro rfl
    exact ⟨rfl, rfl, rfl, rfl, rfl, rfl⟩
  · rintro ⟨hop, hzero, hdir, htbl, harg8, hlen16⟩
    refine BitVec.eq_of_getLsbD_eq fun i hi => ?_
    by_cases h16 : i < 16
    · exact getLsbD_eq_of_extractLsb'_eq hlen16 (by omega) (by omega)
    by_cases h24 : i < 24
    · exact getLsbD_eq_of_extractLsb'_eq harg8 (by omega) (by omega)
    by_cases h26 : i < 26
    · exact getLsbD_eq_of_extractLsb'_eq hzero (by omega) (by omega)
    by_cases htblBit : i = 26
    · rw [htblBit]; exact htbl
    by_cases hdirBit : i = 27
    · rw [hdirBit]; exact hdir
    exact getLsbD_eq_of_extractLsb'_eq hop (by omega) (by omega)

theorem headerWord_zero (op : BitVec 4) (dir tbl : Bool) (arg8 : Byte) (len16 : Nat) :
    (headerWord op dir tbl arg8 len16).extractLsb' 24 2 = 0 := by
  ext i hi
  rw [BitVec.getElem_extractLsb', getLsbD_headerWord, if_neg (by omega), if_neg (by omega), if_pos (by omega)]
  simp

/-- A header whose `zero` field is 0 is put together again from its other fields (R71). -/
theorem headerWord_fields {h : Header} (hzero : h.extractLsb' 24 2 = 0) :
    headerWord (h.extractLsb' 28 4) (hdrDir h).bit (hdrTbl h) (hdrArg8 h) (hdrLen16 h) = h := by
  refine header_ext_iff.mpr ⟨headerWord_op _ _ _ _ _, (headerWord_zero _ _ _ _ _).trans hzero.symm,
    hdrDir_inj.mp (hdrDir_headerWord _ _ _ _ _), hdrTbl_headerWord _ _ _ _ _, hdrArg8_headerWord _ _ _ _ _, ?_⟩
  exact BitVec.eq_of_toNat_eq (hdrLen16_headerWord _ _ _ _ (hdrLen16_lt h))

/-! ### The rows of R78 -/

/-- The number of an opcode in the `op` field (R78). -/
def Opcode.number : Opcode → BitVec 4
  | .init => 1
  | .addIv => 2
  | .addAad => 3
  | .process => 4
  | .finish => 5
  | .reset => 6
  | .oneShot => 7

/-- R80 turned round: `op` is `n`, `zero` is 0, and a field that is not 0 is one the commands of that `op` use. -/
structure LegalFields (n : BitVec 4) (h : Header) : Prop where
  op : h.extractLsb' 28 4 = n
  zero : h.extractLsb' 24 2 = 0
  dir : hdrDir h = .decrypt → n ∈ [4, 7]
  tbl : hdrTbl h = true → n ∈ [1, 7]
  arg8 : hdrArg8 h ≠ 0 → n ∈ [1, 5, 7]
  len16 : hdrLen16 h ≠ 0 → n ∈ [2, 3, 4, 7]

theorem legalFields_iff {n : BitVec 4} {h : Header} :
    LegalFields n h ↔ h.extractLsb' 28 4 = n ∧ h.extractLsb' 24 2 = 0 ∧ (hdrDir h = .decrypt → n ∈ [4, 7]) ∧
      (hdrTbl h = true → n ∈ [1, 7]) ∧ (hdrArg8 h ≠ 0 → n ∈ [1, 5, 7]) ∧ (hdrLen16 h ≠ 0 → n ∈ [2, 3, 4, 7]) :=
  ⟨fun ⟨hop, hzero, hdir, htbl, harg8, hlen16⟩ => ⟨hop, hzero, hdir, htbl, harg8, hlen16⟩,
    fun ⟨hop, hzero, hdir, htbl, harg8, hlen16⟩ => ⟨hop, hzero, hdir, htbl, harg8, hlen16⟩⟩

namespace LegalFields

variable {n : BitVec 4} {h : Header} (hfields : LegalFields n h)

include hfields

theorem dir_eq (hn : n ∉ [4, 7]) : hdrDir h = .encrypt := by
  cases hdir : hdrDir h with
  | encrypt => rfl
  | decrypt => exact absurd (hfields.dir hdir) hn

theorem tbl_eq (hn : n ∉ [1, 7]) : hdrTbl h = false := Bool.eq_false_iff.mpr fun htbl => hn (hfields.tbl htbl)

theorem arg8_eq (hn : n ∉ [1, 5, 7]) : hdrArg8 h = 0 := of_not_not fun harg8 => hn (hfields.arg8 harg8)

theorem len16_eq (hn : n ∉ [2, 3, 4, 7]) : hdrLen16 h = 0 := of_not_not fun hlen16 => hn (hfields.len16 hlen16)

/-- A header with legal fields is put together again from them (R71). -/
theorem headerWord_eq : headerWord n (hdrDir h).bit (hdrTbl h) (hdrArg8 h) (hdrLen16 h) = h := by
  rw [← hfields.op]
  exact headerWord_fields hfields.zero

end LegalFields

/-- "The mask covers `op`, the reserved bits and every field that must be 0 for the command" (R78). -/
theorem mask_fields : ∀ r ∈ opcodeTable,
    r.mask.extractLsb' 28 4 = BitVec.allOnes 4 ∧
    r.mask.getLsbD 27 = !decide (r.opcode.number ∈ [4, 7]) ∧
    r.mask.getLsbD 26 = !decide (r.opcode.number ∈ [1, 7]) ∧
    r.mask.extractLsb' 24 2 = BitVec.allOnes 2 ∧
    r.mask.extractLsb' 16 8 = (if r.opcode.number ∈ [1, 5, 7] then 0 else BitVec.allOnes 8) ∧
    r.mask.extractLsb' 0 16 = (if r.opcode.number ∈ [2, 3, 4, 7] then 0 else BitVec.allOnes 16) := by decide

/-- A row matches its own number in `op` and 0 in every other field its mask covers (R78). -/
theorem bits_fields : ∀ r ∈ opcodeTable,
    r.bits.extractLsb' 28 4 = r.opcode.number ∧ r.bits.getLsbD 27 = false ∧ r.bits.getLsbD 26 = false ∧
    r.bits.extractLsb' 24 2 = 0 ∧ r.bits.extractLsb' 16 8 = 0 ∧ r.bits.extractLsb' 0 16 = 0 := by decide

/-- A mask that leaves a field free when `free` holds and covers it otherwise asks that it be 0 unless it is free. -/
theorem and_fieldMask_eq_zero_iff {w : Nat} (x : BitVec w) (free : Prop) [Decidable free] :
    x &&& (if free then 0 else BitVec.allOnes w) = 0 ↔ (x ≠ 0 → free) := by
  by_cases hfree : free
  · simp [hfree]
  · simp [hfree]

/-- The same of a mask of one bit. -/
theorem and_flagMask_eq_false_iff (x : Bool) (free : Prop) [Decidable free] :
    (x && !decide free) = false ↔ (x = true → free) := by
  cases x <;> simp

theorem selects_iff_legalFields {r : OpcodeRow} (hr : r ∈ opcodeTable) (h : Header) :
    r.selects h = true ↔ LegalFields r.opcode.number h := by
  obtain ⟨hopMask, hdirMask, htblMask, hzeroMask, harg8Mask, hlen16Mask⟩ := mask_fields r hr
  obtain ⟨hopBits, hdirBits, htblBits, hzeroBits, harg8Bits, hlen16Bits⟩ := bits_fields r hr
  have hop : (h &&& r.mask).extractLsb' 28 4 = r.bits.extractLsb' 28 4 ↔ h.extractLsb' 28 4 = r.opcode.number := by
    rw [BitVec.extractLsb'_and, hopMask, BitVec.and_allOnes, hopBits]
  have hdir : (h &&& r.mask).getLsbD 27 = r.bits.getLsbD 27 ↔ (hdrDir h = .decrypt → r.opcode.number ∈ [4, 7]) := by
    rw [BitVec.getLsbD_and, hdirMask, hdirBits, and_flagMask_eq_false_iff, hdrDir_eq_decrypt_iff]
  have htbl : hdrTbl (h &&& r.mask) = hdrTbl r.bits ↔ (hdrTbl h = true → r.opcode.number ∈ [1, 7]) := by
    rw [hdrTbl, hdrTbl, BitVec.getLsbD_and, htblMask, htblBits, and_flagMask_eq_false_iff, hdrTbl]
  have hzero : (h &&& r.mask).extractLsb' 24 2 = r.bits.extractLsb' 24 2 ↔ h.extractLsb' 24 2 = 0 := by
    rw [BitVec.extractLsb'_and, hzeroMask, BitVec.and_allOnes, hzeroBits]
  have harg8 : hdrArg8 (h &&& r.mask) = hdrArg8 r.bits ↔ (hdrArg8 h ≠ 0 → r.opcode.number ∈ [1, 5, 7]) := by
    rw [hdrArg8, hdrArg8, BitVec.extractLsb'_and, harg8Mask, harg8Bits, and_fieldMask_eq_zero_iff, hdrArg8]
  have hlen16 : (h &&& r.mask).extractLsb' 0 16 = r.bits.extractLsb' 0 16 ↔
      (hdrLen16 h ≠ 0 → r.opcode.number ∈ [2, 3, 4, 7]) := by
    rw [BitVec.extractLsb'_and, hlen16Mask, hlen16Bits, and_fieldMask_eq_zero_iff, Ne, Ne, hdrLen16_eq_zero_iff]
  rw [OpcodeRow.selects, beq_iff_eq, header_ext_iff, hop, hzero, hdir, htbl, harg8, hlen16, legalFields_iff]

theorem legalFields_of_lookupOpcode {h : Header} {op : Opcode} (hop : lookupOpcode h = some op) :
    LegalFields op.number h := by
  obtain ⟨r, hfind, rfl⟩ := Option.map_eq_some_iff.mp hop
  have hselects : r.selects h = true := List.find?_some (p := fun r : OpcodeRow => r.selects h) hfind
  exact (selects_iff_legalFields (List.mem_of_find?_eq_some hfind) h).mp hselects

theorem lookupOpcode_eq_none_iff (h : Header) :
    lookupOpcode h = none ↔ ∀ r ∈ opcodeTable, ¬ LegalFields r.opcode.number h := by
  rw [lookupOpcode, Option.map_eq_none_iff, List.find?_eq_none]
  exact forall₂_congr fun r hr => not_congr (selects_iff_legalFields hr h)

/-- The numbers of R78 are 1 to 7. -/
theorem exists_row_number_iff :
    ∀ n : BitVec 4, (∃ r ∈ opcodeTable, r.opcode.number = n) ↔ ¬ (n = 0 ∨ 8 ≤ n) := by decide

/-- A header is legal when its `op` is one of R78's and its other fields are legal for that `op`. -/
theorem lookupOpcode_eq_none_iff_op (h : Header) :
    lookupOpcode h = none ↔
      (h.extractLsb' 28 4 = 0 ∨ 8 ≤ h.extractLsb' 28 4) ∨ ¬ LegalFields (h.extractLsb' 28 4) h := by
  rw [lookupOpcode_eq_none_iff, ← not_not (a := _ ∨ 8 ≤ _), ← exists_row_number_iff, ← not_and_or]
  constructor
  · rintro hnone ⟨⟨r, hr, hnumber⟩, hfields⟩
    exact hnone r hr (hnumber ▸ hfields)
  · intro hnot r hr hfields
    exact hnot ⟨⟨r, hr, hfields.op.symm⟩, hfields.op.symm ▸ hfields⟩

/-- R80's list: what makes the fields illegal for their `op`. -/
theorem not_legalFields_iff (h : Header) :
    ¬ LegalFields (h.extractLsb' 28 4) h ↔
      h.extractLsb' 24 2 ≠ 0 ∨
      (hdrDir h = .decrypt ∧ h.extractLsb' 28 4 ∉ [4, 7]) ∨
      (hdrTbl h = true ∧ h.extractLsb' 28 4 ∉ [1, 7]) ∨
      (hdrArg8 h ≠ 0 ∧ h.extractLsb' 28 4 ∉ [1, 5, 7]) ∨
      (hdrLen16 h ≠ 0 ∧ h.extractLsb' 28 4 ∉ [2, 3, 4, 7]) := by
  simp only [legalFields_iff, true_and, not_and_or, Classical.not_imp, ne_eq]

end Sys2Proof
end

section
/-! The decoder against the encoder, in both directions (`30_encoding.md`, R72, R82, R89): what the decoder reads from a
command's own bytes, and the bytes it has read a command from. -/

namespace Sys2Proof

/-! ### From the bytes to the command -/

/-- Settles O1: the header selects the command's row, and that row's operands read back the operand bytes. -/
theorem decodeEncodeRoundTrip : Obligations.DecodeEncodeRoundTrip := by
  intro i rest hwf
  rw [encode, List.append_assoc, decode_be32_append, decodeAfterHeader, lookupOpcode_header hwf]
  simp only [takeOperands_encode_append hwf]

/-- Settles O3, by O1: each word is the encoding of its command. -/
theorem specEncodingsDecode : Obligations.SpecEncodingsDecode :=
  ⟨decodeEncodeRoundTrip (.init false 16 1) [] rfl,
    decodeEncodeRoundTrip (.init true 16 1) [] rfl,
    decodeEncodeRoundTrip (.addIv (List.replicate 12 0)) [] rfl,
    decodeEncodeRoundTrip (.addAad []) [] rfl,
    decodeEncodeRoundTrip (.process .decrypt [0xAA, 0xBB, 0xCC]) [] rfl,
    decodeEncodeRoundTrip (.finish 16) [] rfl,
    decodeEncodeRoundTrip .reset [] rfl,
    decodeEncodeRoundTrip
      (.oneShot .encrypt false 16 (List.replicate 16 0) (List.replicate 12 0) [] (List.replicate 32 0)) [] rfl⟩

/-! ### From the command to the bytes it was read from -/

/-- The encoding of a command has the length of R72. -/
theorem length_encode (i : Instr) : (encode i).length = i.byteLength := by
  cases i with
  | oneShot dir tbl tagLen key iv aad payload =>
    simp only [encode, Instr.operandBytes, Instr.byteLength, List.length_append, length_be32]
    omega
  | _ => simp [encode, Instr.operandBytes, Instr.byteLength, length_be32]

theorem be32_word32 (b0 b1 b2 b3 : Byte) : be32 (word32 b0 b1 b2 b3) = [b0, b1, b2, b3] := by
  have h0 : (word32 b0 b1 b2 b3).extractLsb' 24 8 = b0 := by
    rw [word32, BitVec.extractLsb'_append_eq_of_le (by omega), BitVec.extractLsb'_append_eq_of_le (by omega)]
    exact BitVec.extractLsb'_append_eq_left
  have h1 : (word32 b0 b1 b2 b3).extractLsb' 16 8 = b1 := by
    rw [word32, BitVec.extractLsb'_append_eq_of_le (by omega), BitVec.extractLsb'_append_eq_of_le (by omega)]
    exact BitVec.extractLsb'_append_eq_right
  have h2 : (word32 b0 b1 b2 b3).extractLsb' 8 8 = b2 := by
    rw [word32, BitVec.extractLsb'_append_eq_of_le (by omega)]
    exact BitVec.extractLsb'_append_eq_right
  have h3 : (word32 b0 b1 b2 b3).extractLsb' 0 8 = b3 := BitVec.extractLsb'_append_eq_right
  rw [be32, h0, h1, h2, h3]

theorem takeBytes_eq_some {n : Nat} {bytes taken rest : List Byte} (h : takeBytes n bytes = some (taken, rest)) :
    bytes = taken ++ rest ∧ taken.length = n := by
  unfold takeBytes at h
  split at h
  · rename_i hlen
    cases h
    exact ⟨(List.take_append_drop n bytes).symm, List.length_take_of_le hlen⟩
  · cases h

theorem takeWord_eq_some {bytes rest : List Byte} {w : BitVec 32} (h : takeWord bytes = some (w, rest)) :
    bytes = be32 w ++ rest := by
  unfold takeWord at h
  split at h
  · cases h
    rw [be32_word32]
    rfl
  · cases h

/-- A byte string as long as a length word says fits that word, and the word is the encoding of its length (R77). -/
theorem lengthWord_of_length {bytes : List Byte} {w : BitVec 32} (h : bytes.length = w.toNat) :
    fits32 bytes ∧ BitVec.ofNat 32 bytes.length = w := by
  rw [fits32, h]
  exact ⟨w.isLt, (BitVec.ofNat_toNat 32 w).trans (BitVec.setWidth_eq w)⟩

/-- A string as long as `len16` says fits that field (R74, R77). -/
theorem fits16_of_length {bytes : List Byte} {h : Header} (hlen : bytes.length = hdrLen16 h) : fits16 bytes := by
  rw [fits16, hlen]
  exact hdrLen16_lt h

/-- The command `i` has the header `h`, and its operands are what stands on `bytes` before `rest`. -/
structure ReadFrom (h : Header) (bytes : List Byte) (i : Instr) (rest : List Byte) : Prop where
  wellFormed : i.wellFormed = true
  header : i.header = h
  operands : bytes = i.operandBytes ++ rest

section Operands

variable {h : Header} {bytes rest : List Byte} {i : Instr}

/-- Format S (R74): a command that `make` makes of its chunk. -/
theorem readFrom_takeChunk {make : List Byte → Instr}
    (hheader : ∀ chunk, chunk.length = hdrLen16 h → (make chunk).header = h)
    (hwf : ∀ chunk, fits16 chunk → (make chunk).wellFormed = true)
    (hoperands : ∀ chunk, (make chunk).operandBytes = chunk)
    (htaken : ((takeChunk h bytes).map fun (chunk, rest) => (make chunk, rest)) = some (i, rest)) :
    ReadFrom h bytes i rest := by
  obtain ⟨⟨chunk, r⟩, hchunk, hend⟩ := Option.map_eq_some_iff.mp htaken
  cases hend
  obtain ⟨hbytes, hlen⟩ := takeBytes_eq_some hchunk
  exact ⟨hwf chunk (fits16_of_length hlen), hheader chunk hlen, by rw [hoperands, hbytes]⟩

theorem readFrom_takeOneShot (hfields : LegalFields 7 h) (htaken : takeOneShot h bytes = some (i, rest)) :
    ReadFrom h bytes i rest := by
  simp only [takeOneShot, Option.bind_eq_some_iff, Option.map_eq_some_iff, Prod.exists, Prod.mk.injEq] at htaken
  obtain ⟨ivlen, r1, hivlen, aadlen, r2, haadlen, ptlen, r3, hptlen, key, r4, hkey, iv, r5, hiv, aad, r6, haad,
    payload, r7, hpayload, rfl, rfl⟩ := htaken
  obtain ⟨hkeyBytes, hkeyLen⟩ := takeBytes_eq_some hkey
  obtain ⟨hivBytes, hivLen⟩ := takeBytes_eq_some hiv
  obtain ⟨haadBytes, haadLen⟩ := takeBytes_eq_some haad
  obtain ⟨hpayloadBytes, hpayloadLen⟩ := takeBytes_eq_some hpayload
  obtain ⟨hivFits, hivWord⟩ := lengthWord_of_length hivLen
  obtain ⟨haadFits, haadWord⟩ := lengthWord_of_length haadLen
  obtain ⟨hpayloadFits, hpayloadWord⟩ := lengthWord_of_length hpayloadLen
  refine ⟨?_, ?_, ?_⟩
  · simp only [Instr.wellFormed, fits16_of_length hkeyLen, hivFits, haadFits, hpayloadFits, decide_true, Bool.and_self]
  · rw [Instr.header, hkeyLen]
    exact hfields.headerWord_eq
  · rw [takeWord_eq_some hivlen, takeWord_eq_some haadlen, takeWord_eq_some hptlen, hkeyBytes, hivBytes, haadBytes,
      hpayloadBytes]
    simp only [Instr.operandBytes, hivWord, haadWord, hpayloadWord, List.append_assoc]

/-- What R89 reads after a legal header is a command of that header, and the bytes are its operand bytes. -/
theorem readFrom_takeOperands {op : Opcode} (hfields : LegalFields op.number h)
    (htaken : takeOperands h bytes op = some (i, rest)) : ReadFrom h bytes i rest := by
  cases op with
  | init =>
    obtain ⟨⟨sched, r⟩, hsched, hend⟩ := Option.map_eq_some_iff.mp htaken
    cases hend
    refine ⟨rfl, ?_, takeWord_eq_some hsched⟩
    have hheader := hfields.headerWord_eq
    rwa [hfields.dir_eq (by decide), hfields.len16_eq (by decide)] at hheader
  | addIv =>
    refine readFrom_takeChunk (make := .addIv) (fun chunk hlen => ?_) (fun _ => decide_eq_true) (fun _ => rfl) htaken
    have hheader := hfields.headerWord_eq
    rwa [hfields.dir_eq (by decide), hfields.tbl_eq (by decide), hfields.arg8_eq (by decide), ← hlen] at hheader
  | addAad =>
    refine readFrom_takeChunk (make := .addAad) (fun chunk hlen => ?_) (fun _ => decide_eq_true) (fun _ => rfl) htaken
    have hheader := hfields.headerWord_eq
    rwa [hfields.dir_eq (by decide), hfields.tbl_eq (by decide), hfields.arg8_eq (by decide), ← hlen] at hheader
  | process =>
    refine readFrom_takeChunk (make := .process (hdrDir h)) (fun chunk hlen => ?_) (fun _ => decide_eq_true)
      (fun _ => rfl) htaken
    have hheader := hfields.headerWord_eq
    rwa [hfields.tbl_eq (by decide), hfields.arg8_eq (by decide), ← hlen] at hheader
  | finish =>
    cases htaken
    refine ⟨rfl, ?_, rfl⟩
    have hheader := hfields.headerWord_eq
    rwa [hfields.dir_eq (by decide), hfields.tbl_eq (by decide), hfields.len16_eq (by decide)] at hheader
  | reset =>
    cases htaken
    refine ⟨rfl, ?_, rfl⟩
    have hheader := hfields.headerWord_eq
    rwa [hfields.dir_eq (by decide), hfields.tbl_eq (by decide), hfields.arg8_eq (by decide),
      hfields.len16_eq (by decide)] at hheader
  | oneShot => exact readFrom_takeOneShot hfields htaken

theorem readFrom_decodeAfterHeader (hdecoded : decodeAfterHeader h bytes = .command i rest) :
    ReadFrom h bytes i rest := by
  unfold decodeAfterHeader at hdecoded
  split at hdecoded
  · cases hdecoded
  · rename_i op hop
    split at hdecoded
    · cases hdecoded
    · rename_i htaken
      cases hdecoded
      exact readFrom_takeOperands (legalFields_of_lookupOpcode hop) htaken

end Operands

/-- A command is read from a header and what follows it (R89). -/
theorem decode_eq_command {bytes rest : List Byte} {i : Instr} (h : decode bytes = .command i rest) :
    ∃ header operands, bytes = be32 header ++ operands ∧ decodeAfterHeader header operands = .command i rest := by
  unfold decode at h
  split at h
  · cases h
  · rename_i b0 b1 b2 b3 operands
    exact ⟨word32 b0 b1 b2 b3, operands, by rw [be32_word32]; rfl, h⟩
  · cases h

/-- Settles O2: the header and the operand bytes of the command read are the ones it was read from. -/
theorem decodedCommandIsItsEncoding : Obligations.DecodedCommandIsItsEncoding := by
  intro bytes rest i h
  obtain ⟨header, operands, hbytes, hdecoded⟩ := decode_eq_command h
  obtain ⟨hwf, hheader, hoperands⟩ := readFrom_decodeAfterHeader hdecoded
  have hencode : bytes = encode i ++ rest := by rw [hbytes, encode, hheader, hoperands, List.append_assoc]
  exact ⟨hwf, hencode, by rw [hencode, List.length_append, length_encode]⟩

end Sys2Proof
end

section
/-! Illegal headers and the status byte (`30_encoding.md`, R80, R85). -/

namespace Sys2Proof.Machine

/-! ### An illegal header (R80) -/

theorem step_of_illegal {s : State} {header : Header} {rest : List Byte} (hw : s.waiting = false)
    (h : decode s.cmd = .illegal header rest) : step s = .next (s.withCmd rest).illegalHeader := by
  simp only [step, hw, h, Bool.false_eq_true, if_false]

theorem decode_of_illegal {header : Header} (h : lookupOpcode header = none) (rest : List Byte) :
    decode (be32 header ++ rest) = .illegal header rest := by
  rw [decode_be32_append, decodeAfterHeader, h]

/-- `life` after an error of a command that makes no context (R245). -/
theorem lifeAfterError_false (l : Life) : lifeAfterError false l = if l = .empty then .empty else .fault := by
  cases l <;> rfl

/-- The status byte of `InvalidArgument` where the context was lost, and where there was none (R80, R85). -/
theorem statusByte_invalidArgument_afterError (l : Life) (m : Mode) :
    statusByte ErrorKind.invalidArgument.code (lifeAfterError false l) m = if l = .empty then 0x20 else 0x2C := by
  rw [lifeAfterError_false]
  split
  · exact statusByte_error_empty .invalidArgument m
  · exact statusByte_error_fault .invalidArgument m

/-- Settles O4: the fields say which headers are illegal, and the error entry does the rest. -/
theorem illegalHeaderExactlyAndItsEffect : Obligations.IllegalHeaderExactlyAndItsEffect := by
  refine ⟨fun h => ?_, fun s h rest hw hillegal hcmd => ?_⟩
  · rw [lookupOpcode_eq_none_iff_op, not_legalFields_iff]
  · have hdecoded : decode s.cmd = .illegal h rest := by rw [hcmd, decode_of_illegal hillegal]
    refine ⟨_, step_of_illegal hw hdecoded, rfl, rfl, rfl, rfl, hw, lifeAfterError_false s.ctx.life, ?_⟩
    rw [State.illegalHeader_rsp, response_nil, State.illegalHeader_ctx, State.withCmd_rsp, State.withCmd_ctx,
      statusByte_invalidArgument_afterError]

/-! ### The status byte (R85) -/

/-- `mode` is reported where a context holds values (R85). -/
theorem modeBits_eq (l : Life) (m : Mode) : modeBits l m = if l.holds then m.code else 0 := by
  cases l <;> rfl

/-- Settles O9, field by field. -/
theorem statusByteFields : Obligations.StatusByteFields := by
  intro code life mode
  refine ⟨statusByte_code code life mode, ?_, ?_⟩
  · rw [statusByte, BitVec.extractLsb'_append_eq_of_le (Nat.le_refl 2)]
    exact BitVec.extractLsb'_append_eq_right
  · rw [statusByte, BitVec.extractLsb'_append_eq_right, modeBits_eq]

end Sys2Proof.Machine
end

section
/-! INIT and RESET (`40_init_reset.md`): their effects, INIT's errors in order, and the subkey law: `H` is the cipher's
encryption of the zero block, and in phase TEXT `buf` that of `Y`. -/

namespace Sys2Proof.Machine

/-! ### The adapter of R6 and R49 -/

theorem replyOf_eq_ok {α : Type} {o : Option α} {a : α} : replyOf o = .ok a ↔ o = some a := by
  cases o <;> simp [replyOf]

theorem replyOf_ne_silent {α : Type} (o : Option α) : replyOf o ≠ .silent := by
  cases o <;> simp [replyOf]

theorem Adapter.encrypt_cipher_ne_silent (inval : Bool) (released : List Handle) (h : Handle) (B : Block) :
    ((Adapter.cipher inval released).encrypt h B).1 ≠ .silent := by
  unfold Adapter.encrypt
  dsimp only
  split
  · simp
  · exact replyOf_ne_silent _

/-- The cipher's ok answer is `E`'s value, and the adapter stays as it is (R49). -/
theorem State.usesCipher.encrypt_ok {s : State} (hs : s.usesCipher) {h : Handle} {B out : Block} {a : Adapter}
    (hanswer : s.adapter.encrypt h B = (.ok out, a)) : a = s.adapter ∧ Config.encrypt h B = some out := by
  obtain ⟨inval, released, hadapter⟩ := hs
  rw [hadapter] at hanswer ⊢
  obtain ⟨hreply, rfl⟩ := Prod.mk.inj hanswer
  refine ⟨rfl, ?_⟩
  split at hreply
  · cases hreply
  · exact replyOf_eq_ok.mp hreply

theorem State.usesCipher_congr {s t : State} (hadapter : t.adapter = s.adapter) (hs : s.usesCipher) :
    t.usesCipher := by
  unfold State.usesCipher at hs ⊢
  rwa [hadapter]

theorem State.usesCipher.setCtx {s : State} (hs : s.usesCipher) (c : Context) : (s.setCtx c).usesCipher := hs

theorem State.usesCipher.encrypted {s : State} (hs : s.usesCipher) (B : Block) : (s.encrypted B).usesCipher := by
  obtain ⟨inval, released, hadapter⟩ := hs
  refine ⟨inval, released, ?_⟩
  rw [State.encrypted_adapter, hadapter]
  rfl

theorem State.usesCipher.afterSetup {s : State} (hs : s.usesCipher) (key : List Byte) :
    (s.afterSetup key).usesCipher := by
  obtain ⟨inval, released, hadapter⟩ := hs
  refine ⟨inval, releasedAfterSetup released (Config.setup key), ?_⟩
  rw [State.afterSetup, State.transact_adapter, hadapter]
  rfl

theorem State.usesCipher.adapterRelease {s : State} (hs : s.usesCipher) (h : Handle) :
    (adapterRelease h s).usesCipher := by
  obtain ⟨inval, released, hadapter⟩ := hs
  refine ⟨inval, if released.contains h then released else h :: released, ?_⟩
  rw [adapterRelease_adapter, hadapter]
  rfl

/-! ### Pseudocode run with the cipher (R249) -/

/-- The pseudocode ended, well or with an error, and the adapter is still the cipher; it does not wait. -/
def Result.EndsUnderCipher {α : Type} : Result α → Prop
  | .done _ s => s.usesCipher
  | .raised _ s => s.usesCipher
  | .waiting _ => False

theorem Result.endsUnderCipher_andThen {α β : Type} {r : Result α} {k : α → State → Result β}
    (h1 : r.EndsUnderCipher) (h2 : ∀ a s, s.usesCipher → (k a s).EndsUnderCipher) :
    (r.andThen k).EndsUnderCipher := by
  cases r with
  | done a s => exact h2 a s h1
  | raised e s => exact h1
  | waiting s => exact h1

theorem Result.endsUnderCipher_refuseIf (bad : Bool) (e : ErrorKind) {s : State} (hs : s.usesCipher) :
    (Result.refuseIf bad e s).EndsUnderCipher := by
  cases bad <;> exact hs

section UnderCipher

variable {s : State} (hs : s.usesCipher)

include hs

theorem endsUnderCipher_checkState (legal : Bool) : (checkState legal s).EndsUnderCipher :=
  Result.endsUnderCipher_andThen (Result.endsUnderCipher_refuseIf _ _ hs) fun _ _ hs =>
    Result.endsUnderCipher_refuseIf _ _ hs

theorem endsUnderCipher_enc (B : Block) : (enc B s).EndsUnderCipher := by
  cases hanswer : (s.adapter.encrypt s.ctx.sched B).1 with
  | ok out =>
    rw [enc_ok hanswer]
    exact hs.encrypted B
  | notOk =>
    rw [enc_notOk hanswer]
    exact hs.encrypted B
  | silent =>
    obtain ⟨inval, released, hadapter⟩ := hs
    rw [hadapter] at hanswer
    exact absurd hanswer (Adapter.encrypt_cipher_ne_silent inval released s.ctx.sched B)

theorem endsUnderCipher_adapterSetup (key : List Byte) : (adapterSetup key s).EndsUnderCipher := by
  cases hanswer : (s.adapter.setup key).1 with
  | ok made =>
    rw [adapterSetup_ok hanswer]
    exact hs.afterSetup key
  | notOk =>
    rw [adapterSetup_notOk hanswer]
    exact hs.afterSetup key
  | silent =>
    obtain ⟨inval, released, hadapter⟩ := hs
    rw [hadapter] at hanswer
    exact absurd hanswer (replyOf_ne_silent _)

theorem endsUnderCipher_initBody (tbl : Bool) (blockLen : Byte) (sched : Handle) :
    (initBody tbl blockLen sched s).EndsUnderCipher := by
  refine Result.endsUnderCipher_andThen (Result.endsUnderCipher_refuseIf _ _ hs) fun _ s hs => ?_
  refine Result.endsUnderCipher_andThen (Result.endsUnderCipher_refuseIf _ _ hs) fun _ s hs => ?_
  exact Result.endsUnderCipher_andThen (endsUnderCipher_enc (hs.setCtx _) 0) fun _ _ hs => hs

theorem endsUnderCipher_addIvBody (chunk : List Byte) : (addIvBody chunk s).EndsUnderCipher :=
  Result.endsUnderCipher_andThen (endsUnderCipher_checkState hs _) fun _ _ hs => hs

theorem endsUnderCipher_addAadBody (chunk : List Byte) : (addAadBody chunk s).EndsUnderCipher :=
  Result.endsUnderCipher_andThen (endsUnderCipher_checkState hs _) fun _ _ hs => hs

theorem endsUnderCipher_fetchKeystream : (fetchKeystream s).EndsUnderCipher :=
  Result.endsUnderCipher_andThen (endsUnderCipher_enc hs _) fun _ _ hs => hs

theorem endsUnderCipher_closeAadPhase : (closeAadPhase s).EndsUnderCipher := by
  unfold closeAadPhase
  split
  · exact Result.endsUnderCipher_andThen (endsUnderCipher_fetchKeystream hs) fun _ _ hs => hs
  · exact hs

theorem endsUnderCipher_processByte (dir : Direction) (b : Byte) : (processByte dir b s).EndsUnderCipher := by
  refine Result.endsUnderCipher_andThen ?_ fun _ _ hs => hs
  unfold crossBoundary
  split
  · exact endsUnderCipher_fetchKeystream hs
  · exact hs

theorem endsUnderCipher_processBytes (dir : Direction) (chunk : List Byte) :
    (processBytes dir chunk s).EndsUnderCipher := by
  induction chunk generalizing s with
  | nil => exact hs
  | cons b chunk ih =>
    exact Result.endsUnderCipher_andThen (endsUnderCipher_processByte hs dir b) fun _ _ hs =>
      Result.endsUnderCipher_andThen (ih hs) fun _ _ hs => hs

theorem endsUnderCipher_processBody (dir : Direction) (chunk : List Byte) :
    (processBody dir chunk s).EndsUnderCipher := by
  refine Result.endsUnderCipher_andThen (endsUnderCipher_checkState hs _) fun _ s hs => ?_
  exact Result.endsUnderCipher_andThen (endsUnderCipher_closeAadPhase hs) fun _ _ hs =>
    endsUnderCipher_processBytes hs dir chunk

theorem endsUnderCipher_finishBody (tagLen : Byte) : (finishBody tagLen s).EndsUnderCipher := by
  refine Result.endsUnderCipher_andThen (endsUnderCipher_checkState hs _) fun _ s hs => ?_
  exact Result.endsUnderCipher_andThen (endsUnderCipher_enc (hs.setCtx _) _) fun _ _ hs => hs.adapterRelease _

theorem endsUnderCipher_resetBody : (resetBody s).EndsUnderCipher :=
  Result.endsUnderCipher_andThen (Result.endsUnderCipher_refuseIf _ _ hs) fun _ _ hs => hs

theorem endsUnderCipher_oneShotSteps (dir : Direction) (tbl : Bool) (tagLen blockLen : Byte) (handle : Handle)
    (iv aad payload : List Byte) :
    (oneShotSteps dir tbl tagLen blockLen handle iv aad payload s).EndsUnderCipher := by
  refine Result.endsUnderCipher_andThen (endsUnderCipher_initBody hs tbl blockLen handle) fun _ _ hs => ?_
  refine Result.endsUnderCipher_andThen (endsUnderCipher_addIvBody hs iv) fun _ _ hs => ?_
  refine Result.endsUnderCipher_andThen (endsUnderCipher_addAadBody hs aad) fun _ _ hs => ?_
  refine Result.endsUnderCipher_andThen (endsUnderCipher_processBody hs dir payload) fun _ _ hs => ?_
  exact Result.endsUnderCipher_andThen (endsUnderCipher_finishBody hs tagLen) fun _ _ hs => hs

end UnderCipher

theorem endsUnderCipher_releaseOnError (handle : Handle) {r : Result (List Byte)} (hr : r.EndsUnderCipher) :
    (releaseOnError handle r).EndsUnderCipher := by
  cases r with
  | done data s => exact hr
  | raised k s => exact State.usesCipher.adapterRelease hr handle
  | waiting s => exact hr

/-- No command waits for the cipher of R49, and none replaces it (R249). -/
theorem endsUnderCipher_commandBody (i : Instr) {s : State} (hs : s.usesCipher) :
    (commandBody i s).EndsUnderCipher := by
  cases i with
  | init tbl blockLen sched => exact endsUnderCipher_initBody hs tbl blockLen sched
  | addIv chunk => exact endsUnderCipher_addIvBody hs chunk
  | addAad chunk => exact endsUnderCipher_addAadBody hs chunk
  | process dir chunk => exact endsUnderCipher_processBody hs dir chunk
  | finish tagLen => exact endsUnderCipher_finishBody hs tagLen
  | reset => exact endsUnderCipher_resetBody hs
  | oneShot dir tbl tagLen key iv aad payload =>
    exact Result.endsUnderCipher_andThen (endsUnderCipher_adapterSetup (s := s.setLife .empty) hs key) fun made _ hs =>
      endsUnderCipher_releaseOnError made.1
        (endsUnderCipher_oneShotSteps hs dir tbl tagLen made.2 made.1 iv aad payload)

/-! ### The subkey and the keystream block (R103, R187) -/

/-- `H` is the cipher's encryption of the zero block (R103). -/
def subkeyHolds (c : Context) : Prop := Config.encrypt c.sched 0 = some c.H

/-- `buf` is the cipher's encryption of `Y` (R187). -/
def keystreamHolds (c : Context) : Prop := Config.encrypt c.sched c.Y = some c.buf

theorem subkeyInv_iff (s : State) :
    SubkeyInv s ↔ s.usesCipher ∧
      (s.ctx.life.holds = true → subkeyHolds s.ctx ∧ (s.ctx.mode = .text → keystreamHolds s.ctx)) := by
  constructor
  · rintro ⟨hcipher, hsubkey, hkeystream⟩
    exact ⟨hcipher, fun hl => ⟨hsubkey hl, hkeystream hl⟩⟩
  · rintro ⟨hcipher, hctx⟩
    exact ⟨hcipher, fun hl => (hctx hl).1, fun hl => (hctx hl).2⟩

theorem subkeyHolds_congr {c d : Context} (hsetup : c.sameSetup d) (h : subkeyHolds c) : subkeyHolds d := by
  obtain ⟨hsched, hH, -, -⟩ := hsetup
  unfold subkeyHolds at h ⊢
  rwa [hsched, hH]

/-- Where no context holds values, the adapter alone is spoken of. -/
theorem subkeyInv_of_lost {s : State} (hcipher : s.usesCipher) (hlost : s.ctx.life.holds = false) : SubkeyInv s :=
  (subkeyInv_iff s).mpr ⟨hcipher, fun hl => by simp [hlost] at hl⟩

/-- `SubkeyInv` reads the context and the adapter alone. -/
theorem subkeyInv_congr {s t : State} (hctx : t.ctx = s.ctx) (hadapter : t.adapter = s.adapter)
    (h : SubkeyInv s) : SubkeyInv t := by
  rw [subkeyInv_iff] at h ⊢
  rw [hctx]
  exact ⟨State.usesCipher_congr hadapter h.1, h.2⟩

/-! ### PROCESS keeps `buf` the keystream block of `Y` -/

/-- Past the close of phase AAD, `buf` is the keystream block of `Y`: the one AadClose asked for, or the old one. -/
theorem keystreamHolds_closeAadPhase {s t : State} {u : Unit} (hcipher : s.usesCipher) (hmode : s.ctx.mode ≠ .iv)
    (hs : s.ctx.mode = .text → keystreamHolds s.ctx) (h : closeAadPhase s = .done u t) :
    t.usesCipher ∧ keystreamHolds t.ctx := by
  have htext := closeAadPhase_done_mode hmode h
  obtain ⟨-, hclose⟩ | ⟨-, rfl⟩ := closeAadPhase_done h
  · obtain ⟨keystream, hanswer, ht⟩ := aadClose_done hclose
    obtain ⟨hadapter, hE⟩ := hcipher.encrypt_ok hanswer
    refine ⟨State.usesCipher_congr hadapter hcipher, ?_⟩
    rw [ht]
    simpa [keystreamHolds] using hE
  · exact ⟨hcipher, hs htext⟩

/-- A boundary crossed asks for the keystream block of the new `Y`; between boundaries neither changes. -/
theorem keystreamHolds_processByte {dir : Direction} {b out : Byte} {s t : State}
    (hs : s.usesCipher ∧ keystreamHolds s.ctx) (h : processByte dir b s = .done out t) :
    t.usesCipher ∧ keystreamHolds t.ctx := by
  obtain ⟨hcipher, hkeystream⟩ := hs
  obtain ⟨s1, hcross, -, rfl⟩ := processByte_done h
  obtain ⟨-, rfl⟩ | ⟨-, keystream, hanswer, hs1⟩ := crossBoundary_done hcross
  · exact ⟨hcipher, hkeystream⟩
  · obtain ⟨hadapter, hE⟩ := hcipher.encrypt_ok hanswer
    refine ⟨State.usesCipher_congr hadapter hcipher, ?_⟩
    rw [hs1]
    exact hE

theorem keystreamHolds_processBody {dir : Direction} {chunk : List Byte} {s t : State} {data : List Byte}
    (hcipher : s.usesCipher) (hs : s.ctx.mode = .text → keystreamHolds s.ctx)
    (h : processBody dir chunk s = .done data t) : keystreamHolds t.ctx := by
  obtain ⟨-, -, s1, hclose, hbytes⟩ := processBody_done h
  have hstart : (closeIvPhase s.ctx).mode = .text → keystreamHolds (closeIvPhase s.ctx) := by
    by_cases hiv : s.ctx.mode = .iv
    · simp [closeIvPhase_of_iv hiv]
    · rwa [closeIvPhase_of_ne_iv hiv]
  have hs1 := keystreamHolds_closeAadPhase (s := s.setCtx (closeIvPhase s.ctx)) hcipher
    (closeIvPhase_mode_ne_iv s.ctx) hstart hclose
  exact (processBytes_keeps (P := fun s => s.usesCipher ∧ keystreamHolds s.ctx)
    (fun _ _ _ _ => keystreamHolds_processByte) chunk s1 t data hs1 hbytes).2

/-! ### The subkey law (R103) -/

/-- A command on a context that succeeds found one that holds values. -/
theorem commandBody_done_found {i : Instr} (hi : createsContext i = false) {s t : State} {data : List Byte}
    (h : commandBody i s = .done data t) : s.ctx.life.holds = true := by
  have hholds : s.ctx.life = .live → s.ctx.life.holds = true := fun hlife => by rw [hlife]; rfl
  cases i with
  | init tbl blockLen sched => cases hi
  | addIv chunk => exact hholds (addIvBody_done h).1
  | addAad chunk => exact hholds (addAadBody_done h).1
  | process dir chunk => exact hholds (processBody_done h).1
  | finish tagLen => exact hholds (finishBody_done h).1
  | reset => exact (resetBody_done h).1
  | oneShot dir tbl tagLen key iv aad payload => cases hi

/-- A command on a context that succeeds keeps the keystream clause: only PROCESS asks for keystream blocks, and what
succeeds outside phase TEXT does not enter it otherwise. -/
theorem commandBody_keeps_keystream {i : Instr} (hi : createsContext i = false) {s t : State} {data : List Byte}
    (hcipher : s.usesCipher) (hs : s.ctx.mode = .text → keystreamHolds s.ctx)
    (h : commandBody i s = .done data t) : t.ctx.mode = .text → keystreamHolds t.ctx := by
  intro htext
  cases i with
  | init tbl blockLen sched => cases hi
  | addIv chunk =>
    obtain ⟨-, hmode, -, -, rfl⟩ := addIvBody_done h
    simp [hmode] at htext
  | addAad chunk =>
    obtain ⟨-, hmode, -, -, rfl⟩ := addAadBody_done h
    simp [closeIvPhase_mode_of_ne_text hmode] at htext
  | process dir chunk => exact keystreamHolds_processBody hcipher hs h
  | finish tagLen =>
    obtain ⟨-, hmode, -, mask, a, -, -, rfl⟩ := finishBody_done h
    simpa [keystreamHolds] using hs hmode
  | reset =>
    obtain ⟨-, -, rfl⟩ := resetBody_done h
    cases htext
  | oneShot dir tbl tagLen key iv aad payload => cases hi

theorem commandBody_keeps_subkeyInv (i : Instr) {s t : State} {data : List Byte} (hs : SubkeyInv s)
    (h : commandBody i s = .done data t) : SubkeyInv t := by
  obtain ⟨hcipher, hctx⟩ := (subkeyInv_iff s).mp hs
  have hcipher' : t.usesCipher := by
    have hends := endsUnderCipher_commandBody i hcipher
    rwa [h] at hends
  by_cases hi : createsContext i = false
  · obtain ⟨hsubkey, hkeystream⟩ := hctx (commandBody_done_found hi h)
    have hsetup := commandBody_sameSetup hi s
    rw [h] at hsetup
    exact (subkeyInv_iff t).mpr ⟨hcipher', fun _ =>
      ⟨subkeyHolds_congr hsetup hsubkey, commandBody_keeps_keystream hi hcipher hkeystream h⟩⟩
  · cases i with
    | init tbl blockLen sched =>
      obtain ⟨-, -, -, H, hanswer, ht⟩ := initBody_done h
      obtain ⟨-, hE⟩ := hcipher.encrypt_ok hanswer
      refine (subkeyInv_iff t).mpr ⟨hcipher', fun _ => ?_⟩
      rw [ht]
      exact ⟨hE, fun htext => by simp at htext⟩
    | oneShot dir tbl tagLen key iv aad payload =>
      obtain ⟨made, s1, s2, -, -, rfl⟩ := oneShotBody_done h
      exact subkeyInv_of_lost hcipher' rfl
    | addIv | addAad | process | finish | reset => exact absurd rfl hi

/-- Every step keeps the subkey law: an error loses the context, and the cipher never makes a command wait. -/
theorem step_keeps_subkeyInv {s t : State} (hs : SubkeyInv s) (h : step s = .next t) : SubkeyInv t := by
  obtain ⟨-, ⟨-, rfl⟩ | ⟨header, rest, -, rfl⟩ | ⟨i, rest, -, rfl⟩⟩ := step_cases h
  · exact hs
  · exact subkeyInv_of_lost hs.cipher (by simp)
  · have hs' : SubkeyInv (s.withCmd rest) := subkeyInv_congr (s := s) rfl rfl hs
    have hends := endsUnderCipher_commandBody i hs'.cipher
    cases hbody : commandBody i (s.withCmd rest) with
    | done data t => exact subkeyInv_congr (s := t) rfl rfl (commandBody_keeps_subkeyInv i hs' hbody)
    | raised k t =>
      rw [hbody] at hends
      exact subkeyInv_of_lost hends (by simp)
    | waiting t =>
      rw [hbody] at hends
      exact hends.elim

/-- A command on a context that goes on changes neither `H` nor the handle, whatever the adapter. -/
theorem exec_keeps_subkey {i : Instr} {s t : State} (hi : createsContext i = false) (h : exec i s = .next t)
    (hholds : t.ctx.life.holds = true) : t.ctx.H = s.ctx.H ∧ t.ctx.sched = s.ctx.sched := by
  have hsetup := commandBody_sameSetup hi s
  rw [exec_next h] at hholds ⊢
  cases hbody : commandBody i s with
  | done data u =>
    rw [hbody] at hsetup
    obtain ⟨hsched, hH, -, -⟩ := hsetup
    exact ⟨hH, hsched⟩
  | raised k u => simp [hbody] at hholds
  | waiting u => exact ⟨rfl, rfl⟩

/-- Settles O17: the step invariant, and what the other commands leave of the setup. -/
theorem subkeyLaw : Obligations.SubkeyLaw :=
  ⟨fun _ _ => step_keeps_subkeyInv, fun _ _ _ => exec_keeps_subkey⟩

/-! ### INIT, test by test (R100, R243 item 5) -/

theorem initBody_of_ne_16 {blockLen : Byte} (h : blockLen ≠ 16) (tbl : Bool) (sched : Handle) (s : State) :
    initBody tbl blockLen sched s = .raised .invalidCipher (s.setLife .empty) := by
  rw [initBody, bne_iff_ne.mpr h]
  rfl

theorem initBody_of_no_table {s : State} (h : s.hasTable = false) (sched : Handle) :
    initBody true 16 sched s = .raised .allocationFailure (s.setLife .empty) := by
  simp [initBody, h]

/-- The state in which INIT asks for the encryption of the zero block: EMPTY, with the new handle (R100). -/
def initAsks (sched : Handle) (s : State) : State := s.setCtx { s.ctx with life := .empty, sched := sched }

/-- Past its two tests INIT asks for H and opens the context with the answer. -/
theorem initBody_of_tests {tbl : Bool} {s : State} (h : tbl = true → s.hasTable = true) (sched : Handle) :
    initBody tbl 16 sched s = (enc 0 (initAsks sched s)).andThen fun H s =>
      .done [] (s.setCtx (openContext tbl H s.ctx)) := by
  have htable : (tbl && !s.hasTable) = false := by
    cases tbl with
    | false => rfl
    | true => simp [h rfl]
  simp only [initBody, bne_self_eq_false, Result.refuseIf_false, Result.done_andThen, State.setLife_hasTable, htable]
  rfl

/-- The state in which an ENCRYPT's answer arrives, by that answer. -/
theorem State.encrypted_of_answer {s : State} {B : Block} {reply : Reply Block} {a : Adapter}
    (h : s.adapter.encrypt s.ctx.sched B = (reply, a)) :
    s.encrypted B = s.transact (.encrypt s.ctx.sched B reply) a := by
  rw [State.encrypted, h]

/-- The response of a command that leaves a context at the start of a session: OK, LIVE, phase IV (R85). -/
theorem State.respond_of_live_iv {s : State} (hlife : s.ctx.life = .live) (hmode : s.ctx.mode = .iv) :
    s.respond okCode [] = { s with rsp := s.rsp ++ [0x04, 0, 0, 0, 0] } := by
  rw [State.respond, response_nil, hlife, hmode, statusByte_ok_live_iv]

/-- Settles O14: past the tests, the one answer opens the context. -/
theorem initCreatesContext : Obligations.InitCreatesContext := by
  intro s tbl sched H a htable hanswer
  have hasked : (initAsks sched s).adapter.encrypt (initAsks sched s).ctx.sched 0 = (.ok H, a) := hanswer
  refine ⟨_, if tbl then tableGen H else [], exec_eq _ s, fun h => if_pos h, ?_⟩
  rw [commandBody, initBody_of_tests htable, enc_ok (congrArg Prod.fst hasked), State.encrypted_of_answer hasked,
    Result.done_andThen, concludeCommand_done, State.respond_of_live_iv rfl rfl]
  rfl

/-! ### An error of a command that has emptied the context (R245) -/

theorem State.takeError_of_empty {s : State} (h : s.ctx.life = .empty) (creates : Bool) (k : ErrorKind) :
    (s.takeError creates k).rsp = s.rsp ++ [k.code ++ 0x0#4, 0, 0, 0, 0] ∧
      (s.takeError creates k).ctx.life = .empty := by
  have hlife : (s.takeError creates k).ctx.life = .empty := by
    rw [State.takeError_ctx, h]
    rfl
  rw [State.takeError_rsp, response_nil, hlife, statusByte_error_empty]
  exact ⟨rfl, rfl⟩

/-- Settles O15, one test after the other. -/
theorem initErrorsInOrder : Obligations.InitErrorsInOrder := by
  refine ⟨fun s tbl blockLen sched hlen => ?_, fun s sched htable => ?_, fun s tbl sched a htable hanswer => ?_⟩
  · refine ⟨_, exec_eq _ s, ?_⟩
    rw [commandBody, initBody_of_ne_16 hlen, concludeCommand_raised]
    obtain ⟨hrsp, hlife⟩ := State.takeError_of_empty (s := s.setLife .empty) rfl true .invalidCipher
    exact ⟨hrsp, hlife, rfl, rfl⟩
  · refine ⟨_, exec_eq _ s, ?_⟩
    rw [commandBody, initBody_of_no_table htable, concludeCommand_raised]
    obtain ⟨hrsp, hlife⟩ := State.takeError_of_empty (s := s.setLife .empty) rfl true .allocationFailure
    exact ⟨hrsp, hlife, rfl, rfl⟩
  · have hasked : (initAsks sched s).adapter.encrypt (initAsks sched s).ctx.sched 0 = (.notOk, a) := hanswer
    refine ⟨_, exec_eq _ s, ?_⟩
    rw [commandBody, initBody_of_tests htable, enc_notOk (congrArg Prod.fst hasked),
      State.encrypted_of_answer hasked, Result.raised_andThen, concludeCommand_raised]
    obtain ⟨hrsp, hlife⟩ := State.takeError_of_empty
      (s := (initAsks sched s).transact (.encrypt sched 0 .notOk) a) rfl true .invalidCipher
    exact ⟨hrsp, hlife, rfl, rfl⟩

/-! ### RESET (R102) -/

theorem resetBody_of_holds {s : State} (h : s.ctx.life.holds = true) :
    resetBody s = .done [] (s.setCtx { zeroSession s.ctx with life := .live }) := by
  rw [resetBody, (resetLegal_iff _).mpr h]
  rfl

/-- Settles O16. -/
theorem resetReturnsToPostInit : Obligations.ResetReturnsToPostInit := by
  intro s h
  rw [exec_eq, commandBody, resetBody_of_holds h, concludeCommand_done, State.respond_of_live_iv rfl rfl]
  rfl

end Sys2Proof.Machine
end

section
/-! The field product (`41_field_multiplier.md`, R121 to R128).  The product is handled through the maps that are
additive for XOR and commute with `mulX`: each of them is the product by its value at the unit. -/

namespace Sys2Proof.Machine

/-! ### `mulX` on field bits (R123, R124) -/

theorem getMsbD_reductionR {i : Nat} (hi : i < 128) :
    reductionR.getMsbD i = decide (i = 0 ∨ i = 1 ∨ i = 2 ∨ i = 7) := by
  revert i
  decide

/-- What `mulX` XORs in: the constant when field bit 127 falls off (R124). -/
theorem getMsbD_reduction (fell : Bool) {i : Nat} (hi : i < 128) :
    (if fell then reductionR else 0).getMsbD i = (decide (i = 0 ∨ i = 1 ∨ i = 2 ∨ i = 7) && fell) := by
  cases fell with
  | false => simp
  | true => simpa using getMsbD_reductionR hi

theorem getMsbD_mulX (V : Block) {i : Nat} (hi : i < 128) :
    (mulX V).getMsbD i =
      ((decide (0 < i) && V.getMsbD (i - 1)) ^^ (decide (i = 0 ∨ i = 1 ∨ i = 2 ∨ i = 7) && V.getMsbD 127)) := by
  have hlast : V.getLsbD 0 = V.getMsbD 127 := by simp [BitVec.getMsbD]
  have hshift : (V >>> 1).getMsbD i = (decide (0 < i) && V.getMsbD (i - 1)) := by
    cases i with
    | zero => simp [BitVec.getMsbD_ushiftRight]
    | succ i => simp [BitVec.getMsbD_ushiftRight, hi]
  rw [mulX, BitVec.getMsbD_xor, hshift, getMsbD_reduction _ hi, hlast]

/-- Settles O44. -/
theorem mulXMovesFieldBits : Obligations.MulXMovesFieldBits := fun V _ hi => getMsbD_mulX V hi

/-! ### Maps that are linear over the field -/

/-- The map is additive for XOR, the field's addition, and commutes with the product by x. -/
structure FieldLinear (f : Block → Block) : Prop where
  xor : ∀ A B, f (A ^^^ B) = f A ^^^ f B
  mulX : ∀ A, f (mulX A) = mulX (f A)

theorem FieldLinear.zero {f : Block → Block} (hf : FieldLinear f) : f 0 = 0 := by
  have h := hf.xor 0 0
  rwa [BitVec.xor_self, BitVec.xor_self] at h

theorem FieldLinear.id : FieldLinear fun A => A := ⟨fun _ _ => rfl, fun _ => rfl⟩

theorem FieldLinear.comp {f g : Block → Block} (hf : FieldLinear f) (hg : FieldLinear g) :
    FieldLinear fun A => f (g A) :=
  ⟨fun A B => by rw [hg.xor, hf.xor], fun A => by rw [hg.mulX, hf.mulX]⟩

theorem mulX_xor (A B : Block) : mulX (A ^^^ B) = mulX A ^^^ mulX B := by
  refine block_ext fun i hi => ?_
  simp only [BitVec.getMsbD_xor, getMsbD_mulX _ hi, Bool.and_xor_distrib_left, Bool.xor_assoc]
  rw [Bool.xor_left_comm (decide (0 < i) && B.getMsbD (i - 1))]

theorem fieldLinear_mulX : FieldLinear mulX := ⟨mulX_xor, fun _ => rfl⟩

theorem fieldLinear_mulXTimes (n : Nat) : FieldLinear (mulXTimes n) := by
  induction n with
  | zero => exact FieldLinear.id
  | succ n ih => exact ih.comp fieldLinear_mulX

/-! ### The product is linear in its first factor (R125, R126) -/

/-- The turns of the loop of R125 on a sum are the sums of the turns. -/
theorem foldl_gfStep_xor (B : Block) (turns : List Nat) (Z V Z' V' : Block) :
    turns.foldl (gfStep B) (Z ^^^ Z', V ^^^ V') =
      ((turns.foldl (gfStep B) (Z, V)).1 ^^^ (turns.foldl (gfStep B) (Z', V')).1,
        (turns.foldl (gfStep B) (Z, V)).2 ^^^ (turns.foldl (gfStep B) (Z', V')).2) := by
  induction turns generalizing Z V Z' V' with
  | nil => rfl
  | cons i turns ih =>
    have hstep : gfStep B (Z ^^^ Z', V ^^^ V') i =
        ((gfStep B (Z, V) i).1 ^^^ (gfStep B (Z', V') i).1, (gfStep B (Z, V) i).2 ^^^ (gfStep B (Z', V') i).2) := by
      simp only [gfStep, mulX_xor]
      split
      · congr 1
        ac_rfl
      · rfl
    rw [List.foldl_cons, hstep, ih]
    rfl

theorem gfMult_xor_left (A A' B : Block) : gfMult (A ^^^ A') B = gfMult A B ^^^ gfMult A' B := by
  have h := foldl_gfStep_xor B (List.range 128) 0 A 0 A'
  rw [BitVec.xor_self] at h
  exact congrArg Prod.fst h

/-- A linear map goes through the turns of the loop of R125. -/
theorem FieldLinear.foldl_gfStep {f : Block → Block} (hf : FieldLinear f) (B : Block) (turns : List Nat)
    (Z V : Block) :
    turns.foldl (gfStep B) (f Z, f V) =
      (f (turns.foldl (gfStep B) (Z, V)).1, f (turns.foldl (gfStep B) (Z, V)).2) := by
  induction turns generalizing Z V with
  | nil => rfl
  | cons i turns ih =>
    have hstep : gfStep B (f Z, f V) i = (f (gfStep B (Z, V) i).1, f (gfStep B (Z, V) i).2) := by
      simp only [gfStep, hf.mulX]
      split
      · rw [hf.xor]
      · rfl
    rw [List.foldl_cons, hstep, ih]
    rfl

/-- A linear map of a product is the product of the map's value at the first factor. -/
theorem FieldLinear.map_gfMult {f : Block → Block} (hf : FieldLinear f) (A B : Block) :
    f (gfMult A B) = gfMult (f A) B := by
  have h := hf.foldl_gfStep B (List.range 128) 0 A
  rw [hf.zero] at h
  exact (congrArg Prod.fst h).symm

theorem fieldLinear_gfMult (B : Block) : FieldLinear fun A => gfMult A B :=
  ⟨fun A A' => gfMult_xor_left A A' B, fun A => (fieldLinear_mulX.map_gfMult A B).symm⟩

/-! ### The unit (R121) -/

theorem getMsbD_fieldOne {i : Nat} (hi : i < 128) : fieldOne.getMsbD i = decide (i = 0) := by
  revert i
  decide

/-- What the loop of R125 holds on the unit before turn `n`: the first `n` field bits of the second factor, and the
element x^n, field bit `n` alone. -/
structure UnitTurns (B : Block) (n : Nat) (zv : Block × Block) : Prop where
  collected : ∀ j, j < 128 → zv.1.getMsbD j = (decide (j < n) && B.getMsbD j)
  power : n < 128 → ∀ j, j < 128 → zv.2.getMsbD j = decide (j = n)

theorem UnitTurns.start (B : Block) : UnitTurns B 0 (0, fieldOne) :=
  ⟨fun _ _ => by simp, fun _ _ => getMsbD_fieldOne⟩

theorem getMsbD_gfStep_fst (B : Block) (zv : Block × Block) (n j : Nat) :
    (gfStep B zv n).1.getMsbD j = (zv.1.getMsbD j ^^ (B.getMsbD n && zv.2.getMsbD j)) := by
  unfold gfStep
  cases B.getMsbD n <;> simp

theorem UnitTurns.step {B : Block} {n : Nat} {zv : Block × Block} (hn : n < 128) (h : UnitTurns B n zv) :
    UnitTurns B (n + 1) (gfStep B zv n) where
  collected j hj := by
    rw [getMsbD_gfStep_fst, h.collected j hj, h.power hn j hj]
    by_cases hjn : j = n
    · simp [hjn]
    · have hiff : j < n + 1 ↔ j < n := by omega
      simp [hjn, hiff]
  power hn' j hj := by
    have hlast : zv.2.getMsbD 127 = false := by
      rw [h.power hn 127 (by decide)]
      exact decide_eq_false (by omega)
    rw [gfStep, getMsbD_mulX _ hj, hlast, h.power hn _ (by omega)]
    by_cases hjn : j = n + 1
    · simp [hjn]
    · have hne : ¬ (0 < j ∧ j - 1 = n) := by omega
      rw [← Bool.decide_and, decide_eq_false hne, decide_eq_false hjn, Bool.and_false, Bool.xor_false]

theorem unitTurns_range (B : Block) {n : Nat} (hn : n ≤ 128) :
    UnitTurns B n ((List.range n).foldl (gfStep B) (0, fieldOne)) := by
  induction n with
  | zero => exact UnitTurns.start B
  | succ n ih =>
    rw [List.range_succ, List.foldl_append]
    exact (ih (by omega)).step hn

theorem gfMult_fieldOne_left (B : Block) : gfMult fieldOne B = B := by
  refine block_ext fun j hj => ?_
  have h := (unitTurns_range B (Nat.le_refl 128)).collected j hj
  rwa [decide_eq_true hj, Bool.true_and] at h

/-! ### The laws of the product (R126) -/

/-- A linear map is the product by its value at the unit. -/
theorem FieldLinear.eq_gfMult {f : Block → Block} (hf : FieldLinear f) (A : Block) : f A = gfMult (f fieldOne) A :=
  calc f A = f (gfMult fieldOne A) := by rw [gfMult_fieldOne_left]
    _ = gfMult (f fieldOne) A := hf.map_gfMult fieldOne A

theorem gfMult_comm (A B : Block) : gfMult A B = gfMult B A := by
  have h := (fieldLinear_gfMult B).eq_gfMult A
  rwa [gfMult_fieldOne_left] at h

/-- The product by `C` is linear, so it goes through a product. -/
theorem gfMult_assoc (A B C : Block) : gfMult (gfMult A B) C = gfMult A (gfMult B C) :=
  calc gfMult (gfMult A B) C = gfMult (gfMult B A) C := by rw [gfMult_comm A B]
    _ = gfMult (gfMult B C) A := (fieldLinear_gfMult C).map_gfMult B A
    _ = gfMult A (gfMult B C) := gfMult_comm _ _

/-- Settles O45. -/
theorem fieldProductLaws : Obligations.FieldProductLaws := by
  intro A B C
  refine ⟨gfMult_comm A B, gfMult_xor_left A B C, gfMult_assoc A B C, ?_, ?_⟩
  · rw [gfMult_comm, gfMult_fieldOne_left]
  · rw [gfMult_comm]
    exact (fieldLinear_gfMult A).zero

/-! ### `MulX` applied several times (R127, R128) -/

/-- While no field bit falls off, `MulX` is a shift. -/
theorem mulXTimes_eq_shift {n : Nat} {V : Block} (h : ∀ k, k < n → V.getLsbD k = false) : mulXTimes n V = V >>> n := by
  induction n generalizing V with
  | zero => exact (BitVec.ushiftRight_zero V).symm
  | succ n ih =>
    have hmulX : mulX V = V >>> 1 := by
      rw [mulX, h 0 (by omega), if_neg Bool.false_ne_true]
      exact BitVec.xor_zero
    have hlow : ∀ k, k < n → (V >>> 1).getLsbD k = false := fun k hk => by
      rw [BitVec.getLsbD_ushiftRight, Nat.add_comm]
      exact h (k + 1) (by omega)
    rw [mulXTimes, hmulX, ih hlow, ← BitVec.shiftRight_add, Nat.add_comm]

/-- The field bits from `8 + n` up to `120 + n` are 0: where `n` turns of `MulX` leave a block `00 .. 00 t`. -/
def clearBetween (n : Nat) (V : Block) : Prop := ∀ i, 8 + n ≤ i → i < 120 + n → i < 128 → V.getMsbD i = false

theorem clearBetween_mulX {n : Nat} {V : Block} (h : clearBetween n V) : clearBetween (n + 1) (mulX V) := by
  intro i hlow hhigh hi
  have hnot : ¬ (i = 0 ∨ i = 1 ∨ i = 2 ∨ i = 7) := by omega
  rw [getMsbD_mulX _ hi, h (i - 1) (by omega) (by omega) (by omega), decide_eq_false hnot]
  simp

theorem clearBetween_mulXTimes {m n : Nat} {V : Block} (h : clearBetween m V) :
    clearBetween (m + n) (mulXTimes n V) := by
  induction n generalizing m V with
  | zero => exact h
  | succ n ih =>
    have e : m + (n + 1) = m + 1 + n := by omega
    exact e ▸ ih (clearBetween_mulX h)

theorem clearBetween_lastByte (t : Byte) : clearBetween 0 (t.setWidth 128) := by
  intro i _ hhigh _
  rw [BitVec.getMsbD_setWidth]
  have hgt : ¬ 128 - 8 ≤ i := by omega
  rw [decide_eq_false hgt, Bool.false_and]

/-- Two bytes put at the front of a block whose other bytes are 0 (R127, R128). -/
theorem getMsbD_frontBytes (r : BitVec 16) {i : Nat} (hi : i < 128) :
    (r.setWidth 128 <<< 112).getMsbD i = r.getMsbD i := by
  rw [BitVec.getMsbD_shiftLeft, BitVec.getMsbD_setWidth]
  have e : i + 112 + 16 - 128 = i := by omega
  have hle : 128 - 16 ≤ i + 112 := by omega
  rw [e, decide_eq_true hle, Bool.true_and]

theorem getMsbD_red (t : Byte) {i : Nat} (hi : i < 16) :
    (red t).getMsbD i = (mulXTimes 8 (t.setWidth 128)).getMsbD i := by
  rw [red, BitVec.getMsbD_extractLsb']
  have e : 128 - (112 + 16 - i) = i := by omega
  have hle : 112 + 16 - i ≤ 128 := by omega
  rw [e, decide_eq_true hi, decide_eq_true hle, Bool.true_and, Bool.true_and]

/-- `MulX` eight times on `00 .. 00 t` is zero past its first two bytes, and those are `RED[t]` (R128). -/
theorem mulXTimes_lastByte (t : Byte) : mulXTimes 8 (t.setWidth 128) = (red t).setWidth 128 <<< 112 := by
  refine block_ext fun i hi => ?_
  rw [getMsbD_frontBytes _ hi]
  by_cases hred : i < 16
  · exact (getMsbD_red t hred).symm
  · rw [clearBetween_mulXTimes (n := 8) (clearBetween_lastByte t) i (by omega) (by omega) hi,
      BitVec.getMsbD_of_ge _ _ (by omega)]

theorem red_xor (a b : Byte) : red (a ^^^ b) = red a ^^^ red b := by
  rw [red, BitVec.setWidth_xor, (fieldLinear_mulXTimes 8).xor, BitVec.extractLsb'_xor]
  rfl

/-- Settles O47. -/
theorem redIsLinear : Obligations.RedIsLinear := ⟨mulXTimes_lastByte, red_xor⟩

/-! ### `MulX8` (R127) -/

/-- The last byte of a block, alone in a block. -/
theorem getLsbD_lastByte (V : Block) (k : Nat) :
    ((blockByte V 15).setWidth 128).getLsbD k = (decide (k < 8) && V.getLsbD k) := by
  by_cases h : k < 8
  · have hk : k < 128 := by omega
    have hk' : 120 + k < 128 := by omega
    simp [blockByte, h, hk, hk']
  · simp [blockByte, h]

/-- `MulX8` is `MulX` eight times: the block without its last byte is shifted, and that byte is reduced. -/
theorem mulX8_eq_mulXTimes (V : Block) : mulX8 V = mulXTimes 8 V := by
  set last : Block := (blockByte V 15).setWidth 128 with hlast
  have hshift : mulXTimes 8 (V ^^^ last) = V >>> 8 := by
    rw [mulXTimes_eq_shift]
    · refine BitVec.eq_of_getLsbD_eq fun k _ => ?_
      have hk : ¬ 8 + k < 8 := by omega
      rw [BitVec.getLsbD_ushiftRight, BitVec.getLsbD_ushiftRight, BitVec.getLsbD_xor, getLsbD_lastByte,
        decide_eq_false hk, Bool.false_and, Bool.xor_false]
    · intro k hk
      rw [BitVec.getLsbD_xor, getLsbD_lastByte, decide_eq_true hk, Bool.true_and, Bool.xor_self]
  calc mulX8 V = V >>> 8 ^^^ mulXTimes 8 last := by rw [mulX8, hlast, mulXTimes_lastByte]
    _ = mulXTimes 8 (V ^^^ last) ^^^ mulXTimes 8 last := by rw [hshift]
    _ = mulXTimes 8 (V ^^^ last ^^^ last) := ((fieldLinear_mulXTimes 8).xor _ _).symm
    _ = mulXTimes 8 V := by rw [BitVec.xor_assoc, BitVec.xor_self, BitVec.xor_zero]

theorem fieldLinear_mulX8 : FieldLinear mulX8 := by
  rw [funext mulX8_eq_mulXTimes]
  exact fieldLinear_mulXTimes 8

theorem getMsbD_mulX8 (V : Block) {i : Nat} (hi : i < 128) :
    (mulX8 V).getMsbD i = ((decide (8 ≤ i) && V.getMsbD (i - 8)) ^^ (red (blockByte V 15)).getMsbD i) := by
  rw [mulX8, BitVec.getMsbD_xor, getMsbD_frontBytes _ hi, BitVec.getMsbD_ushiftRight]
  by_cases h : i < 8
  · simp [h, Nat.not_le.mpr h]
  · simp [h, Nat.not_lt.mp h, hi]

theorem blockByte_mulX8_zero (V : Block) : blockByte (mulX8 V) 0 = (red (blockByte V 15)).extractLsb' 8 8 := by
  refine byte_ext fun k hk => ?_
  rw [getMsbD_blockByte _ _ _ hk, getMsbD_mulX8 _ (by omega), BitVec.getMsbD_extractLsb']
  have hnot : ¬ 8 ≤ 8 * 0 + k := by omega
  have e : 16 - (8 + 8 - k) = 8 * 0 + k := by omega
  have hle : 8 + 8 - k ≤ 16 := by omega
  rw [e, decide_eq_false hnot, decide_eq_true hk, decide_eq_true hle]
  simp only [Bool.false_and, Bool.true_and, Bool.false_xor]

theorem blockByte_mulX8_one (V : Block) :
    blockByte (mulX8 V) 1 = blockByte V 0 ^^^ (red (blockByte V 15)).extractLsb' 0 8 := by
  refine byte_ext fun k hk => ?_
  rw [getMsbD_blockByte _ _ _ hk, getMsbD_mulX8 _ (by omega), BitVec.getMsbD_xor, BitVec.getMsbD_extractLsb',
    getMsbD_blockByte _ _ _ hk]
  have hle : 8 ≤ 8 * 1 + k := by omega
  have e : 8 * 1 + k - 8 = 8 * 0 + k := by omega
  have e' : 16 - (0 + 8 - k) = 8 * 1 + k := by omega
  have hle' : 0 + 8 - k ≤ 16 := by omega
  rw [e, e', decide_eq_true hle, decide_eq_true hk, decide_eq_true hle']
  simp only [Bool.true_and]

theorem blockByte_mulX8_of_two_le (V : Block) {j : Nat} (hlow : 2 ≤ j) (hj : j < 16) :
    blockByte (mulX8 V) j = blockByte V (j - 1) := by
  refine byte_ext fun k hk => ?_
  have e : 8 * j + k - 8 = 8 * (j - 1) + k := by omega
  have hle : 8 ≤ 8 * j + k := by omega
  rw [getMsbD_blockByte _ _ _ hk, getMsbD_blockByte _ _ _ hk, getMsbD_mulX8 _ (by omega),
    BitVec.getMsbD_of_ge (red _) _ (by omega), e, decide_eq_true hle, Bool.true_and, Bool.xor_false]

/-- Settles O46. -/
theorem mulX8IsEightMulX : Obligations.MulX8IsEightMulX := fun V =>
  ⟨mulX8_eq_mulXTimes V, blockByte_mulX8_zero V, blockByte_mulX8_one V, fun _ => blockByte_mulX8_of_two_le V⟩

end Sys2Proof.Machine
end

section
/-! The table form of the multiplier (`41_field_multiplier.md`, R129 to R133): the entries of the generated table, and
the sixteen reads of `tblMult` summed. -/

namespace Sys2Proof.Machine

/-! ### The entries of the table (R130) -/

theorem fieldLinear_mulX8Times (n : Nat) : FieldLinear (mulX8Times n) := by
  induction n with
  | zero => exact FieldLinear.id
  | succ n ih => exact ih.comp fieldLinear_mulX8

/-- `MulX8` moves a byte one place on while it does not fall off (R127). -/
theorem mulX8_unit (v : Byte) {j : Nat} (hj : j < 15) : mulX8 (unit v j) = unit v (j + 1) := by
  have hlast : red (blockByte (unit v j) 15) = 0 := by
    rw [blockByte_unit _ _ _ (by decide), if_neg (by omega)]
    decide
  refine block_ext fun i hi => ?_
  have e : i - 8 - 8 * j = i - 8 * (j + 1) := by omega
  have hin : (decide (8 ≤ i) && decide (8 * j ≤ i - 8 ∧ i - 8 < 8 * j + 8)) =
      decide (8 * (j + 1) ≤ i ∧ i < 8 * (j + 1) + 8) := by
    rw [← Bool.decide_and, decide_eq_decide]
    omega
  rw [getMsbD_mulX8 _ hi, hlast, getMsbD_unit _ _ _ (by omega), getMsbD_unit _ _ _ hi, ← Bool.and_assoc,
    hin, e]
  simp

theorem mulX8Times_unit (v : Byte) {i : Nat} (hi : i < 16) : mulX8Times i (unit v 0) = unit v i := by
  induction i with
  | zero => rfl
  | succ i ih => rw [mulX8Times_succ, ih (by omega), mulX8_unit v (by omega)]

theorem memRead16_tableGen_eq_gfMult (H : Block) {i : Nat} (hi : i < 16) (v : Byte) :
    memRead16 (tableGen H) (tableAddress i v.toNat) = gfMult (unit v i) H :=
  calc memRead16 (tableGen H) (tableAddress i v.toNat)
    _ = mulX8Times i (gfMult H (unit v 0)) := by
      rw [memRead16_tableGen H hi v.isLt, BitVec.ofNat_toNat, BitVec.setWidth_eq]
    _ = mulX8Times i (gfMult (unit v 0) H) := by rw [gfMult_comm]
    _ = gfMult (mulX8Times i (unit v 0)) H := (fieldLinear_mulX8Times i).map_gfMult _ _
    _ = gfMult (unit v i) H := by rw [mulX8Times_unit v hi]

/-- Settles O48. -/
theorem tableLaw : Obligations.TableLaw := fun H _ v hi => memRead16_tableGen_eq_gfMult H hi v

/-! ### The sixteen reads summed (R131, R133) -/

/-- The bytes of a block before byte `n`, each alone in a block, summed. -/
def unitSum (V : Block) (n : Nat) : Block := (List.range n).foldl (fun Z i => Z ^^^ unit (blockByte V i) i) 0

theorem unitSum_succ (V : Block) (n : Nat) : unitSum V (n + 1) = unitSum V n ^^^ unit (blockByte V n) n := by
  rw [unitSum, List.range_succ, List.foldl_append]
  rfl

theorem blockByte_unitSum (V : Block) (n : Nat) {k : Nat} (hk : k < 16) :
    blockByte (unitSum V n) k = if k < n then blockByte V k else 0 := by
  induction n with
  | zero => exact blockByte_zero k
  | succ n ih =>
    rw [unitSum_succ, blockByte_xor, ih, blockByte_unit _ _ _ hk]
    obtain hlt | rfl | hgt := Nat.lt_trichotomy k n
    · rw [if_pos hlt, if_neg (Nat.ne_of_lt hlt), if_pos (by omega)]
      exact BitVec.xor_zero
    · rw [if_neg (Nat.lt_irrefl k), if_pos rfl, if_pos (Nat.lt_succ_self k)]
      exact BitVec.zero_xor
    · rw [if_neg (by omega), if_neg (by omega), if_neg (by omega)]
      exact BitVec.xor_zero

/-- A block is the sum of its bytes. -/
theorem unitSum_all (V : Block) : unitSum V 16 = V :=
  block_ext_bytes fun k hk => by rw [blockByte_unitSum V 16 hk, if_pos hk]

/-- The sum after the reads for bytes 0 to `n - 1` is the product of those bytes. -/
theorem tblMult_turns (H V : Block) {n : Nat} (hn : n ≤ 16) :
    (List.range n).foldl (fun Z i => Z ^^^ memRead16 (tableGen H) (tableAddress i (blockByte V i).toNat)) 0 =
      gfMult (unitSum V n) H := by
  induction n with
  | zero => exact (fieldLinear_gfMult H).zero.symm
  | succ n ih =>
    rw [List.range_succ, List.foldl_append, ih (by omega), List.foldl_cons, List.foldl_nil,
      memRead16_tableGen_eq_gfMult H hn, unitSum_succ, gfMult_xor_left]

theorem tblMult_tableGen (H V : Block) : tblMult (tableGen H) V = gfMult V H := by
  rw [tblMult, tblMult_turns H V (Nat.le_refl 16), unitSum_all]

/-- Settles O49. -/
theorem multiplierFormsAgree : Obligations.MultiplierFormsAgree := tblMult_tableGen

end Sys2Proof.Machine
end

section
/-! The choice of multiplier (R22, R133): two machines that differ in `tbl_sel` and the table alone, each multiplying by
its H, run every command's pseudocode alike. -/

namespace Sys2Proof.Machine

/-! ### Contexts that multiply by their H -/

/-- Where the context multiplies by table, the table is that of its H (R43, R130). -/
def Context.multipliesByH (c : Context) : Prop := c.tblSel = true → c.table = tableGen c.H

theorem multH_eq_gfMult {c : Context} (h : c.multipliesByH) (V : Block) : multH c V = gfMult V c.H := by
  unfold multH
  split
  · rename_i hsel
    rw [h hsel, tblMult_tableGen]
  · rfl

/-- The context with another choice of multiplier: `tbl_sel` and the table written. -/
def Context.withMultiplier (c : Context) (sel : Bool) (table : Memory) : Context :=
  { c with tblSel := sel, table := table }

theorem sameButTable_iff (c d : Context) : sameButTable c d ↔ ∃ sel table, d = c.withMultiplier sel table := by
  refine ⟨fun h => ⟨d.tblSel, d.table, h.symm⟩, ?_⟩
  rintro ⟨sel, table, rfl⟩
  rfl

/-! ### Writes of the context that are blind to the choice -/

/-- The write leaves H and the choice as they are, and does the same to the other registers under either choice. -/
structure BlindToMultiplier (f : Context → Context) : Prop where
  keeps : ∀ c, (f c).H = c.H ∧ (f c).tblSel = c.tblSel ∧ (f c).table = c.table
  commutes : ∀ c sel table, c.multipliesByH → (c.withMultiplier sel table).multipliesByH →
    f (c.withMultiplier sel table) = (f c).withMultiplier sel table

theorem BlindToMultiplier.multipliesByH {f : Context → Context} (hf : BlindToMultiplier f) {c : Context}
    (h : c.multipliesByH) : (f c).multipliesByH := by
  obtain ⟨hH, hsel, htable⟩ := hf.keeps c
  unfold Context.multipliesByH
  rwa [hH, hsel, htable]

theorem BlindToMultiplier.id : BlindToMultiplier fun c => c := ⟨fun _ => ⟨rfl, rfl, rfl⟩, fun _ _ _ _ _ => rfl⟩

theorem BlindToMultiplier.comp {f g : Context → Context} (hf : BlindToMultiplier f) (hg : BlindToMultiplier g) :
    BlindToMultiplier fun c => f (g c) where
  keeps c := by
    obtain ⟨hH, hsel, htable⟩ := hf.keeps (g c)
    obtain ⟨hH', hsel', htable'⟩ := hg.keeps c
    exact ⟨hH.trans hH', hsel.trans hsel', htable.trans htable'⟩
  commutes c sel table h h' := by
    have hc := hg.commutes c sel table h h'
    rw [hc, hf.commutes _ _ _ (hg.multipliesByH h) (hc ▸ hg.multipliesByH h')]

/-- A chunk taken byte by byte. -/
theorem BlindToMultiplier.foldl {f : Context → Byte → Context} (hf : ∀ b, BlindToMultiplier fun c => f c b)
    (chunk : List Byte) : BlindToMultiplier fun c => chunk.foldl f c := by
  induction chunk with
  | nil => exact BlindToMultiplier.id
  | cons b chunk ih => exact ih.comp (hf b)

/-- A test that does not read the choice. -/
theorem BlindToMultiplier.ite {f g : Context → Context} (p : Context → Prop) [DecidablePred p]
    (hp : ∀ c sel table, p (c.withMultiplier sel table) ↔ p c) (hf : BlindToMultiplier f) (hg : BlindToMultiplier g) :
    BlindToMultiplier fun c => if p c then f c else g c where
  keeps c := by
    split
    · exact hf.keeps c
    · exact hg.keeps c
  commutes c sel table h h' := by
    by_cases hc : p c
    · rw [if_pos hc, if_pos ((hp c sel table).mpr hc), hf.commutes c sel table h h']
    · rw [if_neg hc, if_neg (mt (hp c sel table).mp hc), hg.commutes c sel table h h']

/-- Both choices multiply alike: the one place where a write could tell them apart (R133). -/
theorem multH_withMultiplier {c : Context} {sel : Bool} {table : Memory} (h : c.multipliesByH)
    (h' : (c.withMultiplier sel table).multipliesByH) (V : Block) : multH (c.withMultiplier sel table) V = multH c V :=
  (multH_eq_gfMult h' V).trans (multH_eq_gfMult h V).symm

/-- `X` multiplied, whatever block of the context goes into the product. -/
theorem BlindToMultiplier.multiplyX (x : Context → Block) (hx : ∀ c sel table, x (c.withMultiplier sel table) = x c) :
    BlindToMultiplier fun c => { c with X := multH c (x c) } where
  keeps _ := ⟨rfl, rfl, rfl⟩
  commutes c sel table h h' := by
    rw [hx, multH_withMultiplier h h']
    rfl

/-! ### The operations on the session's registers -/

theorem blind_foldIvBlock : BlindToMultiplier foldIvBlock :=
  .ite (fun c => c.buflen = 16) (fun _ _ _ => Iff.rfl)
    (.comp (f := fun c => { c with buflen := 0, totlen := c.totlen + 128 })
      ⟨fun _ => ⟨rfl, rfl, rfl⟩, fun _ _ _ _ _ => rfl⟩ (.multiplyX (fun c => c.X ^^^ c.buf) fun _ _ _ => rfl)) .id

theorem blind_absorbIvByte (b : Byte) : BlindToMultiplier fun c => absorbIvByte c b :=
  blind_foldIvBlock.comp ⟨fun _ => ⟨rfl, rfl, rfl⟩, fun _ _ _ _ _ => rfl⟩

theorem blind_absorbIv (chunk : List Byte) : BlindToMultiplier fun c => absorbIv c chunk :=
  .foldl blind_absorbIvByte chunk

theorem blind_foldPartialIv : BlindToMultiplier foldPartialIv :=
  .ite (fun c => 0 < c.buflen) (fun _ _ _ => Iff.rfl)
    (.comp (f := fun c => { c with totlen := c.totlen + partialBits c.buflen })
      ⟨fun _ => ⟨rfl, rfl, rfl⟩, fun _ _ _ _ _ => rfl⟩
      (.multiplyX (fun c => c.X ^^^ firstBytes c.buf c.buflen.toNat) fun _ _ _ => rfl)) .id

theorem ghashCounter_withMultiplier {c : Context} {sel : Bool} {table : Memory} (h : c.multipliesByH)
    (h' : (c.withMultiplier sel table).multipliesByH) :
    ghashCounter (c.withMultiplier sel table) = ghashCounter c := by
  unfold ghashCounter
  rw [multH_withMultiplier h h', blind_foldPartialIv.commutes c sel table h h']
  rfl

theorem blind_ivClose : BlindToMultiplier ivClose where
  keeps _ := ⟨rfl, rfl, rfl⟩
  commutes c sel table h h' := by
    unfold ivClose
    rw [ghashCounter_withMultiplier h h']
    rfl

theorem blind_closeIvPhase : BlindToMultiplier closeIvPhase :=
  .ite (fun c => c.mode = .iv) (fun _ _ _ => Iff.rfl) blind_ivClose .id

theorem blind_foldAadBlock : BlindToMultiplier foldAadBlock :=
  .ite (fun c => c.buflen = 16) (fun _ _ _ => Iff.rfl)
    (.comp (f := fun c => { c with buflen := 0, totlen := c.totlen + 128 })
      ⟨fun _ => ⟨rfl, rfl, rfl⟩, fun _ _ _ _ _ => rfl⟩ (.multiplyX Context.X fun _ _ _ => rfl)) .id

theorem blind_absorbAadByte (b : Byte) : BlindToMultiplier fun c => absorbAadByte c b :=
  blind_foldAadBlock.comp ⟨fun _ => ⟨rfl, rfl, rfl⟩, fun _ _ _ _ _ => rfl⟩

theorem blind_absorbAad (chunk : List Byte) : BlindToMultiplier fun c => absorbAad c chunk :=
  .foldl blind_absorbAadByte chunk

theorem blind_foldPartialAad : BlindToMultiplier foldPartialAad :=
  .ite (fun c => 0 < c.buflen) (fun _ _ _ => Iff.rfl)
    (.comp (f := fun c => { c with totlen := c.totlen + partialBits c.buflen })
      ⟨fun _ => ⟨rfl, rfl, rfl⟩, fun _ _ _ _ _ => rfl⟩ (.multiplyX Context.X fun _ _ _ => rfl)) .id

theorem blind_advanceCounter : BlindToMultiplier advanceCounter :=
  ⟨fun _ => ⟨rfl, rfl, rfl⟩, fun _ _ _ _ _ => rfl⟩

theorem blind_foldTextBlock : BlindToMultiplier foldTextBlock :=
  blind_advanceCounter.comp (.comp (f := fun c => { c with pttotlen := c.pttotlen + 128 })
    ⟨fun _ => ⟨rfl, rfl, rfl⟩, fun _ _ _ _ _ => rfl⟩ (.multiplyX Context.X fun _ _ _ => rfl))

theorem blind_absorbTextByte (dir : Direction) (b : Byte) : BlindToMultiplier fun c => absorbTextByte dir c b where
  keeps _ := ⟨rfl, rfl, rfl⟩
  commutes _ _ _ _ _ := by cases dir <;> rfl

theorem blind_foldPartialText : BlindToMultiplier foldPartialText :=
  .ite (fun c => 0 < c.buflen) (fun _ _ _ => Iff.rfl)
    (.comp (f := fun c => { c with pttotlen := c.pttotlen + partialBits c.buflen })
      ⟨fun _ => ⟨rfl, rfl, rfl⟩, fun _ _ _ _ _ => rfl⟩ (.multiplyX Context.X fun _ _ _ => rfl)) .id

theorem blind_foldLengths : BlindToMultiplier foldLengths :=
  .multiplyX (fun c => c.X ^^^ lengthBlock c.totlen c.pttotlen) fun _ _ _ => rfl

/-! ### Two machines and two ends of a pseudocode -/

/-- The machine with another choice of multiplier. -/
def State.withMultiplier (s : State) (sel : Bool) (table : Memory) : State := s.setCtx (s.ctx.withMultiplier sel table)

/-- The two machines differ in the choice of multiplier alone. -/
def State.DifferInMultiplier (s t : State) : Prop := ∃ sel table, t = s.withMultiplier sel table

theorem State.differInMultiplier_iff (s t : State) :
    s.DifferInMultiplier t ↔ t = { s with ctx := t.ctx } ∧ sameButTable s.ctx t.ctx := by
  constructor
  · rintro ⟨sel, table, rfl⟩
    exact ⟨rfl, rfl⟩
  · rintro ⟨hframe, hsame⟩
    obtain ⟨sel, table, hctx⟩ := (sameButTable_iff _ _).mp hsame
    exact ⟨sel, table, hframe.trans (congrArg s.setCtx hctx)⟩

theorem State.DifferInMultiplier.refl (s : State) : s.DifferInMultiplier s := ⟨s.ctx.tblSel, s.ctx.table, rfl⟩

/-- The two machines differ in the choice of multiplier alone, and each multiplies by its H. -/
structure State.Twins (s t : State) : Prop where
  differ : s.DifferInMultiplier t
  left : s.ctx.multipliesByH
  right : t.ctx.multipliesByH

/-- Two ends of one pseudocode: of the same kind, with the same value or error, in states so related. -/
inductive Result.Alike {α : Type} (R : State → State → Prop) : Result α → Result α → Prop
  | done {s t : State} (a : α) (h : R s t) : Alike R (.done a s) (.done a t)
  | raised {s t : State} (k : ErrorKind) (h : R s t) : Alike R (.raised k s) (.raised k t)
  | waiting {s t : State} (h : R s t) : Alike R (.waiting s) (.waiting t)

theorem Result.Alike.mono {α : Type} {R S : State → State → Prop} (hRS : ∀ s t, R s t → S s t) {r r' : Result α}
    (h : r.Alike R r') : r.Alike S r' := by
  cases h with
  | done a h => exact .done a (hRS _ _ h)
  | raised k h => exact .raised k (hRS _ _ h)
  | waiting h => exact .waiting (hRS _ _ h)

/-- Sequences end alike when their first parts do and their second parts do from any related states. -/
theorem Result.Alike.andThen {α β : Type} {R : State → State → Prop} {r r' : Result α} {k k' : α → State → Result β}
    (h : r.Alike R r') (hk : ∀ a s t, R s t → (k a s).Alike R (k' a t)) : (r.andThen k).Alike R (r'.andThen k') := by
  cases h with
  | done a h => exact hk a _ _ h
  | raised e h => exact .raised e h
  | waiting h => exact .waiting h

/-! ### The operations of a pseudocode on twin machines -/

section Twins

variable {s t : State} (h : s.Twins t)

include h

theorem State.Twins.setCtx {f : Context → Context} (hf : BlindToMultiplier f) :
    (s.setCtx (f s.ctx)).Twins (t.setCtx (f t.ctx)) := by
  obtain ⟨⟨sel, table, rfl⟩, hs, ht⟩ := h
  refine ⟨⟨sel, table, ?_⟩, hf.multipliesByH hs, hf.multipliesByH ht⟩
  exact congrArg s.setCtx (hf.commutes s.ctx sel table hs ht)

theorem State.Twins.transact (x : Transaction) (a : Adapter) : (s.transact x a).Twins (t.transact x a) := by
  obtain ⟨⟨sel, table, rfl⟩, hs, ht⟩ := h
  exact ⟨⟨sel, table, rfl⟩, hs, ht⟩

theorem State.Twins.setLife (l : Life) : (s.setLife l).Twins (t.setLife l) :=
  h.setCtx (f := fun c => { c with life := l }) ⟨fun _ => ⟨rfl, rfl, rfl⟩, fun _ _ _ _ _ => rfl⟩

theorem State.Twins.adapter_eq : t.adapter = s.adapter := by
  obtain ⟨⟨sel, table, rfl⟩, -, -⟩ := h
  rfl

theorem State.Twins.hasTable_eq : t.hasTable = s.hasTable := by
  obtain ⟨⟨sel, table, rfl⟩, -, -⟩ := h
  rfl

/-- What is read of the context, but for the choice, is read alike. -/
theorem State.Twins.agree {α : Type} (read : Context → α)
    (hread : ∀ c sel table, read (c.withMultiplier sel table) = read c) : read t.ctx = read s.ctx := by
  obtain ⟨⟨sel, table, rfl⟩, -, -⟩ := h
  exact hread s.ctx sel table

theorem State.Twins.adapterRelease (handle : Handle) : (adapterRelease handle s).Twins (adapterRelease handle t) := by
  unfold Machine.adapterRelease
  rw [h.adapter_eq]
  exact h.transact _ _

theorem State.Twins.enc (B : Block) : (enc B s).Alike State.Twins (enc B t) := by
  have hsched : t.ctx.sched = s.ctx.sched := h.agree Context.sched fun _ _ _ => rfl
  have hanswer : t.adapter.encrypt t.ctx.sched B = s.adapter.encrypt s.ctx.sched B := by rw [h.adapter_eq, hsched]
  have harrived : (s.encrypted B).Twins (t.encrypted B) := by
    unfold State.encrypted
    rw [hanswer, hsched]
    exact h.transact _ _
  cases hreply : (s.adapter.encrypt s.ctx.sched B).1 with
  | ok out =>
    rw [enc_ok hreply, enc_ok (hanswer ▸ hreply)]
    exact .done out harrived
  | notOk =>
    rw [enc_notOk hreply, enc_notOk (hanswer ▸ hreply)]
    exact .raised _ harrived
  | silent =>
    rw [enc_silent hreply, enc_silent (hanswer ▸ hreply)]
    exact .waiting harrived

theorem State.Twins.adapterSetup (key : List Byte) : (adapterSetup key s).Alike State.Twins (adapterSetup key t) := by
  have hanswer : t.adapter.setup key = s.adapter.setup key := by rw [h.adapter_eq]
  have harrived : (s.afterSetup key).Twins (t.afterSetup key) := by
    unfold State.afterSetup
    rw [hanswer]
    exact h.transact _ _
  cases hreply : (s.adapter.setup key).1 with
  | ok made =>
    rw [adapterSetup_ok hreply, adapterSetup_ok (hanswer ▸ hreply)]
    exact .done made harrived
  | notOk =>
    rw [adapterSetup_notOk hreply, adapterSetup_notOk (hanswer ▸ hreply)]
    exact .raised _ harrived
  | silent =>
    rw [adapterSetup_silent hreply, adapterSetup_silent (hanswer ▸ hreply)]
    exact .waiting harrived

theorem State.Twins.refuseIf (bad : Bool) (e : ErrorKind) :
    (Result.refuseIf bad e s).Alike State.Twins (Result.refuseIf bad e t) := by
  cases bad with
  | false => exact .done () h
  | true => exact .raised e h

theorem State.Twins.checkState (legal : Context → Bool)
    (hlegal : ∀ c sel table, legal (c.withMultiplier sel table) = legal c) :
    (checkState (legal s.ctx) s).Alike State.Twins (checkState (legal t.ctx) t) := by
  rw [h.agree legal hlegal]
  refine (h.refuseIf _ _).andThen fun _ s t h => ?_
  rw [h.agree Context.buflen fun _ _ _ => rfl]
  exact h.refuseIf _ _

/-! ### The pseudocode of each command on twin machines -/

theorem State.Twins.addIvBody (chunk : List Byte) : (addIvBody chunk s).Alike State.Twins (addIvBody chunk t) :=
  (h.checkState addIvLegal fun _ _ _ => rfl).andThen fun _ _ _ h => .done [] (h.setCtx (blind_absorbIv chunk))

theorem State.Twins.addAadBody (chunk : List Byte) : (addAadBody chunk s).Alike State.Twins (addAadBody chunk t) :=
  (h.checkState addAadLegal fun _ _ _ => rfl).andThen fun _ _ _ h =>
    .done [] (h.setCtx ((blind_absorbAad chunk).comp blind_closeIvPhase))

theorem State.Twins.fetchKeystream : (fetchKeystream s).Alike State.Twins (fetchKeystream t) := by
  unfold Machine.fetchKeystream
  rw [h.agree Context.Y fun _ _ _ => rfl]
  exact (h.enc s.ctx.Y).andThen fun keystream _ _ h =>
    .done () (h.setCtx (f := fun c => { c with buf := keystream, buflen := 0 })
      ⟨fun _ => ⟨rfl, rfl, rfl⟩, fun _ _ _ _ _ => rfl⟩)

theorem State.Twins.closeAadPhase : (closeAadPhase s).Alike State.Twins (closeAadPhase t) := by
  unfold Machine.closeAadPhase
  rw [h.agree Context.mode fun _ _ _ => rfl]
  split
  · refine (h.setCtx (blind_advanceCounter.comp blind_foldPartialAad)).fetchKeystream.andThen fun _ _ _ h => ?_
    exact .done () (h.setCtx (f := fun c => { c with mode := .text })
      ⟨fun _ => ⟨rfl, rfl, rfl⟩, fun _ _ _ _ _ => rfl⟩)
  · exact .done () h

theorem State.Twins.crossBoundary : (crossBoundary s).Alike State.Twins (crossBoundary t) := by
  unfold Machine.crossBoundary
  rw [h.agree Context.buflen fun _ _ _ => rfl]
  split
  · exact (h.setCtx blind_foldTextBlock).fetchKeystream
  · exact .done () h

theorem State.Twins.processByte (dir : Direction) (b : Byte) :
    (processByte dir b s).Alike State.Twins (processByte dir b t) := by
  refine h.crossBoundary.andThen fun _ s t h => ?_
  rw [h.agree (outputByte · b) fun _ _ _ => rfl]
  exact .done _ (h.setCtx (blind_absorbTextByte dir b))

theorem State.Twins.processBytes (dir : Direction) (chunk : List Byte) :
    (processBytes dir chunk s).Alike State.Twins (processBytes dir chunk t) := by
  induction chunk generalizing s t with
  | nil => exact .done [] h
  | cons b chunk ih =>
    exact (h.processByte dir b).andThen fun out _ _ h => (ih h).andThen fun outs _ _ h => .done (out :: outs) h

theorem State.Twins.processBody (dir : Direction) (chunk : List Byte) :
    (processBody dir chunk s).Alike State.Twins (processBody dir chunk t) :=
  (h.checkState processLegal fun _ _ _ => rfl).andThen fun _ _ _ h =>
    (h.setCtx blind_closeIvPhase).closeAadPhase.andThen fun _ _ _ h => h.processBytes dir chunk

theorem State.Twins.finishBody (tagLen : Byte) : (finishBody tagLen s).Alike State.Twins (finishBody tagLen t) := by
  refine (h.checkState finishLegal fun _ _ _ => rfl).andThen fun _ s t h => ?_
  rw [h.agree Context.Y0 fun _ _ _ => rfl]
  refine ((h.setCtx (blind_foldLengths.comp blind_foldPartialText)).enc _).andThen fun mask s t h => ?_
  rw [h.agree Context.X fun _ _ _ => rfl, h.agree Context.sched fun _ _ _ => rfl]
  exact .done _ ((h.adapterRelease _).setLife _)

theorem State.Twins.resetBody : (resetBody s).Alike State.Twins (resetBody t) := by
  unfold Machine.resetBody
  rw [h.agree Context.life fun _ _ _ => rfl]
  exact (h.refuseIf _ _).andThen fun _ _ _ h =>
    .done [] (h.setCtx (f := fun c => { zeroSession c with life := .live })
      ⟨fun _ => ⟨rfl, rfl, rfl⟩, fun _ _ _ _ _ => rfl⟩)

/-- INIT writes the choice over: the two machines come out the same (R100). -/
theorem State.Twins.openContext (tbl : Bool) (H : Block) :
    (s.setCtx (openContext tbl H s.ctx)).Twins (t.setCtx (openContext tbl H t.ctx)) := by
  have hopened : (Machine.openContext tbl H s.ctx).multipliesByH := by
    intro htbl
    rw [openContext_tblSel] at htbl
    rw [openContext_table, openContext_H, if_pos htbl]
  obtain ⟨⟨sel, table, rfl⟩, -, -⟩ := h
  exact ⟨State.DifferInMultiplier.refl _, hopened, hopened⟩

theorem State.Twins.initBody (tbl : Bool) (blockLen : Byte) (sched : Handle) :
    (initBody tbl blockLen sched s).Alike State.Twins (initBody tbl blockLen sched t) := by
  refine ((h.setLife .empty).refuseIf _ _).andThen fun _ s t h => ?_
  rw [h.hasTable_eq]
  refine (h.refuseIf _ _).andThen fun _ s t h => ?_
  refine ((h.setCtx (f := fun c => { c with sched := sched })
    ⟨fun _ => ⟨rfl, rfl, rfl⟩, fun _ _ _ _ _ => rfl⟩).enc 0).andThen fun H _ _ h => ?_
  exact .done [] (h.openContext tbl H)

theorem State.Twins.oneShotSteps (dir : Direction) (tbl : Bool) (tagLen blockLen : Byte) (handle : Handle)
    (iv aad payload : List Byte) :
    (oneShotSteps dir tbl tagLen blockLen handle iv aad payload s).Alike State.Twins
      (oneShotSteps dir tbl tagLen blockLen handle iv aad payload t) :=
  (h.initBody tbl blockLen handle).andThen fun _ _ _ h =>
  (h.addIvBody iv).andThen fun _ _ _ h =>
  (h.addAadBody aad).andThen fun _ _ _ h =>
  (h.processBody dir payload).andThen fun out _ _ h =>
  (h.finishBody tagLen).andThen fun tag _ _ h => .done (out ++ tag) h

end Twins

/-- A lost context is the same whatever was lost, `life` apart (R31). -/
theorem State.DifferInMultiplier.loseContext {s t : State} (h : s.DifferInMultiplier t) (l : Life) :
    (s.loseContext l).DifferInMultiplier (t.loseContext l) := by
  obtain ⟨sel, table, rfl⟩ := h
  exact State.DifferInMultiplier.refl _

theorem Result.Alike.releaseOnError {r r' : Result (List Byte)} (handle : Handle) (h : r.Alike State.Twins r') :
    (releaseOnError handle r).Alike State.DifferInMultiplier (releaseOnError handle r') := by
  cases h with
  | done data h => exact .done data (h.differ.loseContext .empty)
  | raised k h => exact .raised k (h.adapterRelease handle).differ
  | waiting h => exact .waiting h.differ

theorem State.Twins.oneShotBody {s t : State} (h : s.Twins t) (dir : Direction) (tbl : Bool) (tagLen : Byte)
    (key iv aad payload : List Byte) :
    (oneShotBody dir tbl tagLen key iv aad payload s).Alike State.DifferInMultiplier
      (oneShotBody dir tbl tagLen key iv aad payload t) := by
  have hsetup := (h.setLife .empty).adapterSetup key
  unfold Machine.oneShotBody
  generalize Machine.adapterSetup key (s.setLife .empty) = r, Machine.adapterSetup key (t.setLife .empty) = r' at hsetup
  cases hsetup with
  | done made h => exact (h.oneShotSteps dir tbl tagLen made.2 made.1 iv aad payload).releaseOnError made.1
  | raised k h => exact .raised k h.differ
  | waiting h => exact .waiting h.differ

theorem State.Twins.commandBody {s t : State} (h : s.Twins t) (i : Instr) :
    (commandBody i s).Alike State.DifferInMultiplier (commandBody i t) := by
  have hdiffer : ∀ s t : State, s.Twins t → s.DifferInMultiplier t := fun _ _ h => h.differ
  cases i with
  | init tbl blockLen sched => exact (h.initBody tbl blockLen sched).mono hdiffer
  | addIv chunk => exact (h.addIvBody chunk).mono hdiffer
  | addAad chunk => exact (h.addAadBody chunk).mono hdiffer
  | process dir chunk => exact (h.processBody dir chunk).mono hdiffer
  | finish tagLen => exact (h.finishBody tagLen).mono hdiffer
  | reset => exact h.resetBody.mono hdiffer
  | oneShot dir tbl tagLen key iv aad payload => exact h.oneShotBody dir tbl tagLen key iv aad payload

/-! ### The end of a command on twin machines -/

/-- The response, the error entry and the wait read nothing of the choice (R83, R245, R302). -/
theorem Result.Alike.concludeCommand {r r' : Result (List Byte)} (h : r.Alike State.DifferInMultiplier r')
    (creates : Bool) (before : Context) (sel : Bool) (table : Memory) :
    (concludeCommand creates before r).DifferInMultiplier
      (concludeCommand creates (before.withMultiplier sel table) r') := by
  cases h with
  | done data h =>
    obtain ⟨sel', table', rfl⟩ := h
    exact ⟨sel', table', rfl⟩
  | raised k h =>
    obtain ⟨sel', table', rfl⟩ := h
    exact State.DifferInMultiplier.refl _
  | waiting h =>
    obtain ⟨sel', table', rfl⟩ := h
    exact ⟨sel, table, rfl⟩

theorem contextInv_multipliesByH {s : State} (h : ContextInv s) (hholds : s.ctx.life.holds = true) :
    s.ctx.multipliesByH := fun hsel => (h.tableHolds hholds hsel).2

/-- Settles O50: twin machines run the command's pseudocode alike and end it alike. -/
theorem multiplierChoiceInvisible : Obligations.MultiplierChoiceInvisible := by
  intro i s s' t hs hs' hholds hsame hframe hexec
  obtain ⟨sel, table, rfl⟩ := (State.differInMultiplier_iff s s').mpr ⟨hframe, hsame⟩
  have htwins : s.Twins (s.withMultiplier sel table) :=
    ⟨⟨sel, table, rfl⟩, contextInv_multipliesByH hs hholds, contextInv_multipliesByH hs' hholds⟩
  refine ⟨_, exec_eq i _, (State.differInMultiplier_iff _ _).mp ?_⟩
  rw [exec_next hexec]
  exact (htwins.commandBody i).concludeCommand (createsContext i) s.ctx sel table

end Sys2Proof.Machine
end

section
/-! ADD_IV (`42_add_iv.md`): its effect byte by byte, commands performed one after another, and the law of phase IV by
appending one byte at a time to the IV absorbed so far. -/

namespace Sys2Proof.Machine

/-! ### ADD_IV as one write of the context (R150, R28) -/

theorem addIvBody_of_legal {s : State} (hlife : s.ctx.life = .live) (hmode : s.ctx.mode = .iv)
    (hlen : s.ctx.buflen ≤ 16) (chunk : List Byte) :
    addIvBody chunk s = .done [] (s.setCtx (absorbIv s.ctx chunk)) := by
  rw [addIvBody, (addIvLegal_iff _).mpr ⟨hlife, hmode⟩, checkState_ok hlen, Result.done_andThen]

/-- The whole next state of a legal ADD_IV: the context with the chunk absorbed, and the response. -/
theorem exec_addIv {s : State} (hlife : s.ctx.life = .live) (hmode : s.ctx.mode = .iv) (hlen : s.ctx.buflen ≤ 16)
    (chunk : List Byte) :
    exec (.addIv chunk) s = .next { s with
      ctx := absorbIv s.ctx chunk, rsp := s.rsp ++ [0x04, 0, 0, 0, 0] } := by
  rw [exec_eq, commandBody, addIvBody_of_legal hlife hmode hlen, concludeCommand_done,
    State.respond_of_live_iv (by simp [hlife]) (by simp [hmode])]
  rfl

/-- The five registers a chunk may write. -/
theorem absorbIv_frame (c : Context) (chunk : List Byte) :
    absorbIv c chunk = { c with
      X := (absorbIv c chunk).X, buf := (absorbIv c chunk).buf, buflen := (absorbIv c chunk).buflen,
      ivmode := (absorbIv c chunk).ivmode, totlen := (absorbIv c chunk).totlen } := by
  have hfields : absorbIv c chunk = { absorbIv c chunk with life := (absorbIv c chunk).life } := rfl
  refine hfields.trans ?_
  simp

/-! ### One byte of IV (R150) -/

theorem absorbIv_singleton (c : Context) (b : Byte) : absorbIv c [b] = absorbIvByte c b := rfl

theorem absorbIv_append (c : Context) (iv chunk : List Byte) :
    absorbIv c (iv ++ chunk) = absorbIv (absorbIv c iv) chunk := List.foldl_append

theorem ivmodeAfter_succ {n : BitVec 5} (h : n ≤ 15) (ivmode : Bool) :
    ivmodeAfter ivmode (n + 1) = (ivmode || decide (12 ≤ n)) := by
  have hpast : 12 < n + 1 ↔ 12 ≤ n := by bv_omega
  rw [ivmodeAfter, decide_eq_decide.mpr hpast]

/-- A byte that does not complete its block waits in `buf`. -/
theorem absorbIvByte_of_partial {c : Context} (hlen : c.buflen ≤ 15) (hpartial : c.buflen ≠ 15) (b : Byte) :
    absorbIvByte c b = { c with
      buf := setBlockByte c.buf c.buflen.toNat b, buflen := c.buflen + 1,
      ivmode := c.ivmode || decide (12 ≤ c.buflen) } := by
  have hroom : c.buflen + 1 ≠ 16 := by bv_omega
  rw [absorbIvByte, foldIvBlock_of_partial hroom, ivmodeAfter_succ hlen]

/-- The sixteenth byte of a block folds the block into `X`. -/
theorem absorbIvByte_of_last {c : Context} (hlast : c.buflen = 15) (b : Byte) :
    absorbIvByte c b = { c with
      X := multH c (c.X ^^^ setBlockByte c.buf 15 b), buf := setBlockByte c.buf 15 b, buflen := 0, ivmode := true,
      totlen := c.totlen + 128 } := by
  have hfull : c.buflen + 1 = 16 := by rw [hlast]; rfl
  have hpast : ivmodeAfter c.ivmode 16 = true := Bool.or_true _
  rw [absorbIvByte, foldIvBlock_of_full hfull, hfull, hpast, hlast]
  rfl

theorem buflen_absorbIvByte_le {c : Context} (h : c.buflen ≤ 15) (b : Byte) : (absorbIvByte c b).buflen ≤ 15 := by
  by_cases hlast : c.buflen = 15
  · rw [absorbIvByte_of_last hlast]
    exact zero_le_buflen _
  · rw [absorbIvByte_of_partial h hlast]
    exact buflen_succ_le h (by bv_omega)

/-- R16: the fill count rests at 15 or less in phase IV. -/
theorem buflen_absorbIv_le {c : Context} (h : c.buflen ≤ 15) (chunk : List Byte) :
    (absorbIv c chunk).buflen ≤ 15 := by
  induction chunk generalizing c with
  | nil => exact h
  | cons b chunk ih => exact ih (buflen_absorbIvByte_le h b)

theorem ivmode_absorbIvByte_of_true {c : Context} (h : c.ivmode = true) (b : Byte) :
    (absorbIvByte c b).ivmode = true := by
  rw [absorbIvByte, foldIvBlock_ivmode]
  simp [ivmodeAfter, h]

/-- R17: ADD_IV never clears the flag. -/
theorem ivmode_absorbIv_of_true {c : Context} (h : c.ivmode = true) (chunk : List Byte) :
    (absorbIv c chunk).ivmode = true := by
  induction chunk generalizing c with
  | nil => exact h
  | cons b chunk ih => exact ih (ivmode_absorbIvByte_of_true h b)

/-- Settles O18: the frame of the chunk's bytes, and the flag they never clear. -/
theorem addIvCompletesAndFrame : Obligations.AddIvCompletesAndFrame := by
  intro s chunk hlife hmode hlen
  refine ⟨(absorbIv s.ctx chunk).X, (absorbIv s.ctx chunk).buf, (absorbIv s.ctx chunk).buflen,
    (absorbIv s.ctx chunk).ivmode, (absorbIv s.ctx chunk).totlen, ?_, fun h => ivmode_absorbIv_of_true h chunk, ?_⟩
  · rw [exec_addIv hlife hmode hlen, ← absorbIv_frame]
  · rintro rfl
    exact ⟨rfl, rfl, rfl, rfl, rfl⟩

/-- Settles O19: the byte that completes a block, and the byte that does not. -/
theorem addIvOneByte : Obligations.AddIvOneByte := by
  intro s b hlife hmode hlen
  rw [exec_addIv hlife hmode (BitVec.le_trans hlen (by decide)), absorbIv_singleton]
  split
  · rename_i hlast
    rw [absorbIvByte_of_last hlast]
  · rename_i hpartial
    rw [absorbIvByte_of_partial hlen hpartial]

/-! ### Commands performed one after another -/

/-- The data of a success is read back from the response it wrote. -/
theorem answerData_of_response {s t : State} {data : List Byte} (h : t.rsp = s.rsp ++ response okCode t.ctx data) :
    answerData s t = some data := by
  have hdata : t.rsp.drop (s.rsp.length + 5) = data := by
    rw [h, ← List.drop_drop, List.drop_left]
    rfl
  rw [answerData, hdata]
  exact if_pos h

/-- A command whose pseudocode ran to its end succeeds, with the data it ended with. -/
theorem perform_of_done {i : Instr} {s t : State} {data : List Byte} (hwait : s.waiting = false)
    (h : commandBody i s = .done data t) : perform i s = some (data, t.respond okCode data) := by
  have hframe := commandBody_sameFrame i s
  rw [h] at hframe
  obtain ⟨-, -, hrsp, hwaits⟩ := hframe
  have hanswer : answerData s (t.respond okCode data) = some data :=
    answerData_of_response (by rw [State.respond_rsp, State.respond_ctx, ← hrsp]; rfl)
  have hdone : t.waiting = false := hwaits.trans hwait
  simp [perform, exec_eq, h, hdone, hanswer]

theorem performAll_cons {i : Instr} {is : List Instr} {s t : State} {data : List Byte}
    (h : perform i s = some (data, t)) :
    performAll (i :: is) s = (performAll is t).map fun (datas, u) => (data :: datas, u) := by
  rw [performAll, h]
  rfl

/-- Any ADD_IV commands in phase IV: they all succeed, and of the context only their concatenation counts. -/
theorem performAll_addIv {s : State} (hwait : s.waiting = false) (hlife : s.ctx.life = .live)
    (hmode : s.ctx.mode = .iv) (hlen : s.ctx.buflen ≤ 15) (chunks : List (List Byte)) :
    ∃ datas rsp, performAll (chunks.map .addIv) s =
      some (datas, { s with ctx := absorbIv s.ctx chunks.flatten, rsp := rsp }) := by
  induction chunks generalizing s with
  | nil => exact ⟨[], s.rsp, rfl⟩
  | cons chunk chunks ih =>
    have hfirst := perform_of_done (i := .addIv chunk) hwait
      (addIvBody_of_legal hlife hmode (BitVec.le_trans hlen (by decide)) chunk)
    obtain ⟨datas, rsp, hrest⟩ := ih (s := (s.setCtx (absorbIv s.ctx chunk)).respond okCode [])
      hwait (by simp [hlife]) (by simp [hmode]) (buflen_absorbIv_le hlen chunk)
    refine ⟨[] :: datas, rsp, ?_⟩
    rw [List.map_cons, performAll_cons hfirst, hrest, List.flatten_cons, absorbIv_append]
    rfl

/-- Settles O21: both sequences absorb the same string. -/
theorem ivStreamingEquivalence : Obligations.IvStreamingEquivalence := by
  intro s chunks chunks' hwait hlife hmode hlen hsame
  obtain ⟨datas, rsp, h⟩ := performAll_addIv hwait hlife hmode hlen chunks
  obtain ⟨datas', rsp', h'⟩ := performAll_addIv hwait hlife hmode hlen chunks'
  exact ⟨datas, _, datas', _, h, h', congrArg (absorbIv s.ctx) hsame⟩

/-! ### A byte string as blocks, one byte longer -/

theorem blockByte_blockOfBytes (bytes : List Byte) {j : Nat} (hj : j < 16) :
    blockByte (blockOfBytes bytes) j = bytes.getD j 0 := by
  rw [blockOfBytes, blockByte_foldl_unit (fun j => bytes.getD j 0) _ List.nodup_range 0 hj fun _ => blockByte_zero j,
    if_pos (List.mem_range.mpr hj)]

theorem length_lastBytes (bytes : List Byte) : (lastBytes bytes).length = bytes.length % 16 := by
  rw [lastBytes, List.length_drop]
  omega

theorem blockCount_append_of_partial {bytes : List Byte} (h : bytes.length % 16 ≠ 15) (b : Byte) :
    (bytes ++ [b]).length / 16 = bytes.length / 16 := by
  rw [List.length_append, List.length_singleton]
  omega

theorem blockCount_append_of_last {bytes : List Byte} (h : bytes.length % 16 = 15) (b : Byte) :
    (bytes ++ [b]).length / 16 = bytes.length / 16 + 1 := by
  rw [List.length_append, List.length_singleton]
  omega

/-- A block is read from the first sixteen bytes: what follows them does not count. -/
theorem blockOfBytes_append {front : List Byte} (h : 16 ≤ front.length) (back : List Byte) :
    blockOfBytes (front ++ back) = blockOfBytes front :=
  block_ext_bytes fun j hj => by
    rw [blockByte_blockOfBytes _ hj, blockByte_blockOfBytes _ hj, List.getD_append _ _ _ _ (by omega)]

/-- The first complete blocks of a string stay its first when a byte follows. -/
theorem leadingBlocks_append_byte (bytes : List Byte) (b : Byte) :
    ((List.range (bytes.length / 16)).map fun k => blockOfBytes ((bytes ++ [b]).drop (16 * k))) =
      completeBlocks bytes := by
  refine List.map_congr_left fun k hk => ?_
  have hk : k < bytes.length / 16 := List.mem_range.mp hk
  rw [List.drop_append_of_le_length (by omega), blockOfBytes_append (by rw [List.length_drop]; omega)]

theorem completeBlocks_append_of_partial {bytes : List Byte} (h : bytes.length % 16 ≠ 15) (b : Byte) :
    completeBlocks (bytes ++ [b]) = completeBlocks bytes := by
  rw [completeBlocks, blockCount_append_of_partial h, leadingBlocks_append_byte]

theorem completeBlocks_append_of_last {bytes : List Byte} (h : bytes.length % 16 = 15) (b : Byte) :
    completeBlocks (bytes ++ [b]) = completeBlocks bytes ++ [blockOfBytes (lastBytes bytes ++ [b])] := by
  rw [completeBlocks, blockCount_append_of_last h, List.range_succ, List.map_append, leadingBlocks_append_byte,
    List.map_singleton, List.drop_append_of_le_length (by omega), lastBytes]

theorem lastBytes_append_of_partial {bytes : List Byte} (h : bytes.length % 16 ≠ 15) (b : Byte) :
    lastBytes (bytes ++ [b]) = lastBytes bytes ++ [b] := by
  rw [lastBytes, blockCount_append_of_partial h, List.drop_append_of_le_length (by omega), lastBytes]

theorem ghashFrom_append_block (H X B : Block) (blocks : List Block) :
    ghashFrom H X (blocks ++ [B]) = gfMult (ghashFrom H X blocks ^^^ B) H := List.foldl_concat ..

/-! ### The bytes waiting in a block (R15) -/

/-- The first bytes of the block `B` are the string `bytes`. -/
def startsWith (B : Block) (bytes : List Byte) : Prop :=
  ∀ j, j < bytes.length → blockByte B j = bytes.getD j 0

/-- A byte stored behind the waiting ones (R150). -/
theorem startsWith_setBlockByte {B : Block} {bytes : List Byte} (h : startsWith B bytes) (hroom : bytes.length < 16)
    (b : Byte) : startsWith (setBlockByte B bytes.length b) (bytes ++ [b]) := by
  intro j hj
  rw [List.length_append, List.length_singleton] at hj
  rw [blockByte_setBlockByte _ _ _ _ (by omega)]
  split
  · rename_i hend
    rw [hend, List.getD_append_right _ _ _ _ (Nat.le_refl _), Nat.sub_self]
    rfl
  · rename_i hold
    have hlt : j < bytes.length := by omega
    rw [List.getD_append _ _ _ _ hlt, h j hlt]

/-- Sixteen waiting bytes are the whole block. -/
theorem eq_blockOfBytes_of_startsWith {B : Block} {bytes : List Byte} (h : startsWith B bytes)
    (hfull : bytes.length = 16) : B = blockOfBytes bytes :=
  block_ext_bytes fun j hj => by rw [h j (by omega), blockByte_blockOfBytes _ hj]

/-! ### The law of phase IV (R151) -/

/-- The registers of phase IV are those of the IV bytes `iv` absorbed since the session's start under the subkey
`H`. -/
structure IvAbsorbed (H : Block) (iv : List Byte) (c : Context) : Prop where
  totlen : c.totlen = BitVec.ofNat 64 (128 * (iv.length / 16))
  buflen : c.buflen.toNat = iv.length % 16
  waiting : startsWith c.buf (lastBytes iv)
  X : c.X = ghashFrom H 0 (completeBlocks iv)
  ivmode : c.ivmode = true ↔ 12 < iv.length

/-- The session's start: no IV byte has arrived (R101). -/
theorem ivAbsorbed_of_zeroSession {c : Context} (h : zeroSession c = c) : IvAbsorbed c.H [] c := by
  rw [← h]
  exact ⟨rfl, rfl, fun _ hj => absurd hj (Nat.not_lt_zero _), rfl, by simp⟩

theorem ivAbsorbed_partial_byte {H : Block} {iv : List Byte} {c : Context} (h : IvAbsorbed H iv c)
    (hpartial : iv.length % 16 ≠ 15) (b : Byte) : IvAbsorbed H (iv ++ [b]) (absorbIvByte c b) := by
  obtain ⟨htotlen, hbuflen, hwaiting, hX, hivmode⟩ := h
  have hle : c.buflen ≤ 15 := by bv_omega
  have hroom : c.buflen ≠ 15 := by bv_omega
  have hlast := length_lastBytes iv
  rw [absorbIvByte_of_partial hle hroom]
  constructor
  case totlen =>
    rw [blockCount_append_of_partial hpartial]
    exact htotlen
  case buflen =>
    rw [List.length_append, List.length_singleton]
    show (c.buflen + 1).toNat = _
    bv_omega
  case waiting =>
    rw [lastBytes_append_of_partial hpartial, hbuflen, ← hlast]
    exact startsWith_setBlockByte hwaiting (by omega) b
  case X => rw [completeBlocks_append_of_partial hpartial, hX]
  case ivmode =>
    rw [List.length_append, List.length_singleton, Bool.or_eq_true, decide_eq_true_iff, hivmode]
    bv_omega

theorem ivAbsorbed_last_byte {H : Block} {iv : List Byte} {c : Context} (h : IvAbsorbed H iv c)
    (hmult : ∀ V, multH c V = gfMult V H) (hfull : iv.length % 16 = 15) (b : Byte) :
    IvAbsorbed H (iv ++ [b]) (absorbIvByte c b) := by
  obtain ⟨htotlen, hbuflen, hwaiting, hX, hivmode⟩ := h
  have hend : c.buflen = 15 := by bv_omega
  have hlast : (lastBytes iv).length = 15 := (length_lastBytes iv).trans hfull
  have hblock : setBlockByte c.buf 15 b = blockOfBytes (lastBytes iv ++ [b]) := by
    refine eq_blockOfBytes_of_startsWith ?_ (by rw [List.length_append, List.length_singleton, hlast])
    rw [← hlast]
    exact startsWith_setBlockByte hwaiting (by omega) b
  have hnone : (lastBytes (iv ++ [b])).length = 0 := by
    rw [length_lastBytes, List.length_append, List.length_singleton]
    omega
  rw [absorbIvByte_of_last hend]
  constructor
  case totlen =>
    rw [blockCount_append_of_last hfull, Nat.mul_succ, BitVec.ofNat_add, htotlen]
    rfl
  case buflen => exact ((length_lastBytes _).symm.trans hnone).symm
  case waiting =>
    intro j hj
    omega
  case X => rw [completeBlocks_append_of_last hfull, ghashFrom_append_block, hX, hblock, hmult]
  case ivmode =>
    rw [List.length_append, List.length_singleton]
    exact iff_of_true rfl (by omega)

/-- One more IV byte, whether or not it completes a block. -/
theorem ivAbsorbed_byte {H : Block} {iv : List Byte} {c : Context} (h : IvAbsorbed H iv c)
    (hmult : ∀ V, multH c V = gfMult V H) (b : Byte) : IvAbsorbed H (iv ++ [b]) (absorbIvByte c b) := by
  by_cases hfull : iv.length % 16 = 15
  · exact ivAbsorbed_last_byte h hmult hfull b
  · exact ivAbsorbed_partial_byte h hfull b

/-- A string absorbed from the session's start, its last byte at a time. -/
theorem ivAbsorbed_absorbIv {c : Context} (hstart : zeroSession c = c) (hmult : c.multipliesByH) (iv : List Byte) :
    IvAbsorbed c.H iv (absorbIv c iv) := by
  induction iv using List.reverseRecOn with
  | nil => exact ivAbsorbed_of_zeroSession hstart
  | append_singleton iv b ih =>
    rw [absorbIv_append, absorbIv_singleton]
    refine ivAbsorbed_byte ih (fun V => ?_) b
    rw [multH_eq_gfMult ((blind_absorbIv iv).multipliesByH hmult), absorbIv_H]

/-- Settles O20: the commands absorb the concatenation of their chunks, byte by byte from the session's start. -/
theorem ivPhaseLaw : Obligations.IvPhaseLaw := by
  rintro s chunks hwait hs ⟨hlife, hstart⟩
  have hmode : s.ctx.mode = .iv := by rw [← hstart, zeroSession_mode]
  have hmult := contextInv_multipliesByH hs (by rw [hlife]; rfl)
  obtain ⟨datas, rsp, hperform⟩ :=
    performAll_addIv hwait hlife hmode (ivPhase_of_zeroSession hstart).buflen chunks
  obtain ⟨htotlen, hbuflen, hwaiting, hX, hivmode⟩ := ivAbsorbed_absorbIv hstart hmult chunks.flatten
  refine ⟨datas, _, hperform, by simp [hlife], by simp [hmode], htotlen, hbuflen, fun j hj => ?_, hX, hivmode⟩
  exact hwaiting j (by rwa [length_lastBytes, ← hbuflen])

end Sys2Proof.Machine
end

section
/-! ADD_AAD (`43_add_aad.md`): its effect byte by byte, and the law of phase AAD by appending one byte at a time to the
AAD absorbed so far. -/

namespace Sys2Proof.Machine

/-! ### ADD_AAD as one write of the context (R165, R28) -/

theorem addAadBody_of_legal {s : State} (hlife : s.ctx.life = .live) (hmode : s.ctx.mode ≠ .text)
    (hlen : s.ctx.buflen ≤ 16) (chunk : List Byte) :
    addAadBody chunk s = .done [] (s.setCtx (absorbAad (closeIvPhase s.ctx) chunk)) := by
  rw [addAadBody, (addAadLegal_iff _).mpr ⟨hlife, hmode⟩, checkState_ok hlen, Result.done_andThen]

theorem State.respond_of_live_aad {s : State} (hlife : s.ctx.life = .live) (hmode : s.ctx.mode = .aad) :
    s.respond okCode [] = { s with rsp := s.rsp ++ [0x05, 0, 0, 0, 0] } := by
  rw [State.respond, response_nil, hlife, hmode, statusByte_ok_live_aad]

/-- The whole next state of a legal ADD_AAD: phase IV closed, the chunk absorbed, and the response. -/
theorem exec_addAad {s : State} (hlife : s.ctx.life = .live) (hmode : s.ctx.mode ≠ .text) (hlen : s.ctx.buflen ≤ 16)
    (chunk : List Byte) :
    exec (.addAad chunk) s = .next { s with
      ctx := absorbAad (closeIvPhase s.ctx) chunk, rsp := s.rsp ++ [0x05, 0, 0, 0, 0] } := by
  rw [exec_eq, commandBody, addAadBody_of_legal hlife hmode hlen, concludeCommand_done,
    State.respond_of_live_aad (by simp [hlife]) (by simp [closeIvPhase_mode_of_ne_text hmode])]
  rfl

/-- The three registers a chunk may write. -/
theorem absorbAad_frame (c : Context) (chunk : List Byte) :
    absorbAad c chunk = { c with
      X := (absorbAad c chunk).X, buflen := (absorbAad c chunk).buflen, totlen := (absorbAad c chunk).totlen } := by
  have hfields : absorbAad c chunk = { absorbAad c chunk with life := (absorbAad c chunk).life } := rfl
  refine hfields.trans ?_
  simp

/-- Settles O22: in phase AAD the chunk's own frame, in phase IV that of IvClose before it. -/
theorem addAadCompletesAndFrame : Obligations.AddAadCompletesAndFrame := by
  refine ⟨fun s chunk hlife hmode hlen => ?_, fun s chunk hlife hmode hlen => ?_⟩
  · refine ⟨(absorbAad s.ctx chunk).X, (absorbAad s.ctx chunk).buflen, (absorbAad s.ctx chunk).totlen, ?_, ?_⟩
    · rw [exec_addAad hlife (by simp [hmode]) hlen, closeIvPhase_of_ne_iv (by simp [hmode]), ← absorbAad_frame]
    · rintro rfl
      exact ⟨rfl, rfl, rfl⟩
  · refine ⟨(absorbAad (ivClose s.ctx) chunk).X, (ivClose s.ctx).Y, (absorbAad (ivClose s.ctx) chunk).buflen,
      (absorbAad (ivClose s.ctx) chunk).totlen, ?_⟩
    rw [exec_addAad hlife (by simp [hmode]) hlen, closeIvPhase_of_iv hmode, absorbAad_frame]
    rfl

/-! ### One byte of AAD (R165) -/

theorem absorbAad_singleton (c : Context) (b : Byte) : absorbAad c [b] = absorbAadByte c b := rfl

theorem absorbAad_append (c : Context) (aad chunk : List Byte) :
    absorbAad c (aad ++ chunk) = absorbAad (absorbAad c aad) chunk := List.foldl_append

/-- A byte that does not complete its block waits in `X` itself. -/
theorem absorbAadByte_of_partial {c : Context} (hpartial : c.buflen ≠ 15) (b : Byte) :
    absorbAadByte c b = { c with X := xorBlockByte c.X c.buflen.toNat b, buflen := c.buflen + 1 } := by
  have hroom : c.buflen + 1 ≠ 16 := by bv_omega
  rw [absorbAadByte, foldAadBlock_of_partial hroom]

/-- The sixteenth byte of a block multiplies `X` by H. -/
theorem absorbAadByte_of_last {c : Context} (hlast : c.buflen = 15) (b : Byte) :
    absorbAadByte c b = { c with
      X := multH c (xorBlockByte c.X 15 b), buflen := 0, totlen := c.totlen + 128 } := by
  have hfull : c.buflen + 1 = 16 := by rw [hlast]; rfl
  rw [absorbAadByte, foldAadBlock_of_full hfull, hlast]
  rfl

/-- Settles O23: the byte that completes a block, and the byte that does not. -/
theorem addAadOneByte : Obligations.AddAadOneByte := by
  intro s b hlife hmode hlen
  rw [exec_addAad hlife (by simp [hmode]) (BitVec.le_trans hlen (by decide)), closeIvPhase_of_ne_iv (by simp [hmode]),
    absorbAad_singleton]
  split
  · rename_i hlast
    rw [absorbAadByte_of_last hlast]
  · rename_i hpartial
    rw [absorbAadByte_of_partial hpartial]

theorem buflen_absorbAadByte_le {c : Context} (h : c.buflen ≤ 15) (b : Byte) : (absorbAadByte c b).buflen ≤ 15 := by
  by_cases hlast : c.buflen = 15
  · rw [absorbAadByte_of_last hlast]
    exact zero_le_buflen _
  · rw [absorbAadByte_of_partial hlast]
    exact buflen_succ_le h (by bv_omega)

/-- R16: the fill count rests at 15 or less in phase AAD. -/
theorem buflen_absorbAad_le {c : Context} (h : c.buflen ≤ 15) (chunk : List Byte) :
    (absorbAad c chunk).buflen ≤ 15 := by
  induction chunk generalizing c with
  | nil => exact h
  | cons b chunk ih => exact ih (buflen_absorbAadByte_le h b)

/-! ### ADD_AAD commands performed one after another -/

theorem perform_addAad {s : State} (hwait : s.waiting = false) (hlife : s.ctx.life = .live)
    (hmode : s.ctx.mode ≠ .text) (hlen : s.ctx.buflen ≤ 15) (chunk : List Byte) :
    perform (.addAad chunk) s =
      some ([], (s.setCtx (absorbAad (closeIvPhase s.ctx) chunk)).respond okCode []) :=
  perform_of_done (i := .addAad chunk) hwait
    (addAadBody_of_legal hlife hmode (BitVec.le_trans hlen (by decide)) chunk)

theorem buflen_closeIvPhase_le {c : Context} (h : c.buflen ≤ 15) : (closeIvPhase c).buflen ≤ 15 := by
  by_cases hmode : c.mode = .iv
  · rw [closeIvPhase_of_iv hmode]
    exact zero_le_buflen _
  · rwa [closeIvPhase_of_ne_iv hmode]

/-- Any ADD_AAD commands in phase AAD: they all succeed, and of the context only their concatenation counts. -/
theorem performAll_addAad_of_aad {s : State} (hwait : s.waiting = false) (hlife : s.ctx.life = .live)
    (hmode : s.ctx.mode = .aad) (hlen : s.ctx.buflen ≤ 15) (chunks : List (List Byte)) :
    ∃ datas rsp, performAll (chunks.map .addAad) s =
      some (datas, { s with ctx := absorbAad s.ctx chunks.flatten, rsp := rsp }) := by
  induction chunks generalizing s with
  | nil => exact ⟨[], s.rsp, rfl⟩
  | cons chunk chunks ih =>
    have hfirst := perform_addAad hwait hlife (by simp [hmode]) hlen chunk
    rw [closeIvPhase_of_ne_iv (by simp [hmode])] at hfirst
    obtain ⟨datas, rsp, hrest⟩ := ih (s := (s.setCtx (absorbAad s.ctx chunk)).respond okCode [])
      hwait (by simp [hlife]) (by simp [hmode]) (buflen_absorbAad_le hlen chunk)
    refine ⟨[] :: datas, rsp, ?_⟩
    rw [List.map_cons, performAll_cons hfirst, hrest, List.flatten_cons, absorbAad_append]
    rfl

/-- At least one ADD_AAD command before phase TEXT: the first closes phase IV where it is open. -/
theorem performAll_addAad {s : State} (hwait : s.waiting = false) (hlife : s.ctx.life = .live)
    (hmode : s.ctx.mode ≠ .text) (hlen : s.ctx.buflen ≤ 15) {chunks : List (List Byte)} (hsome : chunks ≠ []) :
    ∃ datas rsp, performAll (chunks.map .addAad) s =
      some (datas, { s with ctx := absorbAad (closeIvPhase s.ctx) chunks.flatten, rsp := rsp }) := by
  cases chunks with
  | nil => exact absurd rfl hsome
  | cons chunk chunks =>
    have hfirst := perform_addAad hwait hlife hmode hlen chunk
    obtain ⟨datas, rsp, hrest⟩ := performAll_addAad_of_aad
      (s := (s.setCtx (absorbAad (closeIvPhase s.ctx) chunk)).respond okCode [])
      hwait (by simp [hlife]) (by simp [closeIvPhase_mode_of_ne_text hmode])
      (buflen_absorbAad_le (buflen_closeIvPhase_le hlen) chunk) chunks
    refine ⟨[] :: datas, rsp, ?_⟩
    rw [List.map_cons, performAll_cons hfirst, hrest, List.flatten_cons, absorbAad_append]
    rfl

/-! ### A byte XORed in behind the waiting ones -/

theorem blockOfBytes_nil : blockOfBytes [] = 0 :=
  block_ext_bytes fun j hj => by rw [blockByte_blockOfBytes _ hj, blockByte_zero, List.getD_nil]

/-- A padded block with one byte more. -/
theorem blockOfBytes_append_byte (bytes : List Byte) (b : Byte) :
    blockOfBytes (bytes ++ [b]) = xorBlockByte (blockOfBytes bytes) bytes.length b := by
  refine block_ext_bytes fun j hj => ?_
  rw [blockByte_blockOfBytes _ hj, blockByte_xorBlockByte _ _ _ _ hj, blockByte_blockOfBytes _ hj]
  split
  · rename_i hend
    rw [hend, List.getD_append_right _ _ _ _ (Nat.le_refl _), Nat.sub_self, List.getD_eq_default _ _ (Nat.le_refl _)]
    exact BitVec.zero_xor.symm
  · rename_i hother
    obtain hlt | hgt := Nat.lt_or_gt_of_ne hother
    · rw [List.getD_append _ _ _ _ hlt]
    · rw [List.getD_eq_default _ _ (by rw [List.length_append, List.length_singleton]; omega),
        List.getD_eq_default _ _ (by omega)]

theorem xorBlockByte_xor (A B : Block) (j : Nat) (v : Byte) :
    xorBlockByte (A ^^^ B) j v = A ^^^ xorBlockByte B j v := BitVec.xor_assoc ..

/-- After the sixteenth byte of a block no byte waits. -/
theorem lastBytes_append_of_last {bytes : List Byte} (h : bytes.length % 16 = 15) (b : Byte) :
    lastBytes (bytes ++ [b]) = [] := by
  rw [← List.length_eq_zero_iff, length_lastBytes, List.length_append, List.length_singleton]
  omega

/-- The count of whole blocks in bits, with one block more (R18). -/
theorem blockBits_append_of_last {bytes : List Byte} (h : bytes.length % 16 = 15) (b : Byte) :
    BitVec.ofNat 64 (128 * ((bytes ++ [b]).length / 16)) = BitVec.ofNat 64 (128 * (bytes.length / 16)) + 128 := by
  rw [blockCount_append_of_last h, Nat.mul_succ, BitVec.ofNat_add]
  rfl

/-! ### The law of phase AAD (R170) -/

/-- The registers of phase AAD are those of the AAD bytes `aad` absorbed since phase IV was closed, under the subkey
`H`. -/
structure AadAbsorbed (H : Block) (aad : List Byte) (c : Context) : Prop where
  totlen : c.totlen = BitVec.ofNat 64 (128 * (aad.length / 16))
  buflen : c.buflen.toNat = aad.length % 16
  X : c.X = ghashFrom H 0 (completeBlocks aad) ^^^ blockOfBytes (lastBytes aad)

theorem takesGhashPath_eq_false (c : Context) : takesGhashPath c = false ↔ c.ivmode = false ∧ c.buflen = 12 := by
  simp [takesGhashPath]

/-- IvClose leaves `X` zero on both paths (R166 point 3). -/
theorem ivClose_X_of_ivPhase {c : Context} (h : IvPhase c) : (ivClose c).X = 0 := by
  rw [ivClose_X]
  split
  · rfl
  · rename_i hdirect
    obtain ⟨hivmode, -⟩ := (takesGhashPath_eq_false c).mp (Bool.eq_false_iff.mpr hdirect)
    exact (h.direct hivmode).1

/-- The close of phase IV: no AAD byte has arrived. -/
theorem aadAbsorbed_ivClose {c : Context} (h : IvPhase c) (H : Block) : AadAbsorbed H [] (ivClose c) :=
  ⟨rfl, rfl, (ivClose_X_of_ivPhase h).trans (BitVec.zero_xor.trans blockOfBytes_nil).symm⟩

theorem aadAbsorbed_partial_byte {H : Block} {aad : List Byte} {c : Context} (h : AadAbsorbed H aad c)
    (hpartial : aad.length % 16 ≠ 15) (b : Byte) : AadAbsorbed H (aad ++ [b]) (absorbAadByte c b) := by
  obtain ⟨htotlen, hbuflen, hX⟩ := h
  have hroom : c.buflen ≠ 15 := by bv_omega
  have hlast := length_lastBytes aad
  rw [absorbAadByte_of_partial hroom]
  constructor
  case totlen =>
    rw [blockCount_append_of_partial hpartial]
    exact htotlen
  case buflen =>
    rw [List.length_append, List.length_singleton]
    show (c.buflen + 1).toNat = _
    bv_omega
  case X =>
    rw [completeBlocks_append_of_partial hpartial, lastBytes_append_of_partial hpartial,
      blockOfBytes_append_byte, ← xorBlockByte_xor, hX, hlast, hbuflen]

theorem aadAbsorbed_last_byte {H : Block} {aad : List Byte} {c : Context} (h : AadAbsorbed H aad c)
    (hmult : ∀ V, multH c V = gfMult V H) (hfull : aad.length % 16 = 15) (b : Byte) :
    AadAbsorbed H (aad ++ [b]) (absorbAadByte c b) := by
  obtain ⟨htotlen, hbuflen, hX⟩ := h
  have hend : c.buflen = 15 := by bv_omega
  have hlast : (lastBytes aad).length = 15 := (length_lastBytes aad).trans hfull
  rw [absorbAadByte_of_last hend]
  constructor
  case totlen => rw [blockBits_append_of_last hfull, htotlen]
  case buflen => exact ((length_lastBytes _).symm.trans (congrArg List.length (lastBytes_append_of_last hfull b))).symm
  case X =>
    rw [completeBlocks_append_of_last hfull, lastBytes_append_of_last hfull, ghashFrom_append_block,
      blockOfBytes_append_byte, ← xorBlockByte_xor, hlast, ← hX, blockOfBytes_nil]
    exact (hmult _).trans BitVec.xor_zero.symm

/-- One more AAD byte, whether or not it completes a block. -/
theorem aadAbsorbed_byte {H : Block} {aad : List Byte} {c : Context} (h : AadAbsorbed H aad c)
    (hmult : ∀ V, multH c V = gfMult V H) (b : Byte) : AadAbsorbed H (aad ++ [b]) (absorbAadByte c b) := by
  by_cases hfull : aad.length % 16 = 15
  · exact aadAbsorbed_last_byte h hmult hfull b
  · exact aadAbsorbed_partial_byte h hfull b

/-- A string absorbed where no AAD byte has arrived, its last byte at a time. -/
theorem aadAbsorbed_absorbAad {c : Context} (hstart : AadAbsorbed c.H [] c) (hmult : c.multipliesByH)
    (aad : List Byte) : AadAbsorbed c.H aad (absorbAad c aad) := by
  induction aad using List.reverseRecOn with
  | nil => exact hstart
  | append_singleton aad b ih =>
    rw [absorbAad_append, absorbAad_singleton]
    refine aadAbsorbed_byte ih (fun V => ?_) b
    rw [multH_eq_gfMult ((blind_absorbAad aad).multipliesByH hmult), absorbAad_H]

/-- Settles O27: the commands close phase IV and absorb the concatenation of their chunks, byte by byte. -/
theorem aadPhaseLaw : Obligations.AadPhaseLaw := by
  intro s chunks hwait hs hlife hmode hsome
  have hholds : s.ctx.life.holds = true := by rw [hlife]; rfl
  have hphase := (phaseInv_iv hmode).mp (contextInv_phaseInv hs hholds)
  have hmult := blind_ivClose.multipliesByH (contextInv_multipliesByH hs hholds)
  obtain ⟨datas, rsp, hperform⟩ := performAll_addAad hwait hlife (by simp [hmode]) hphase.buflen hsome
  rw [closeIvPhase_of_iv hmode] at hperform
  obtain ⟨htotlen, hbuflen, hX⟩ := aadAbsorbed_absorbAad (aadAbsorbed_ivClose hphase _) hmult chunks.flatten
  exact ⟨datas, _, hperform, by simp [hlife], by simp, htotlen, hbuflen, hX⟩

end Sys2Proof.Machine
end

section
/-! The close of phase IV (`43_add_aad.md`, R166): the counter it derives from the IV absorbed, on both paths. -/

namespace Sys2Proof.Machine

/-! ### Bytes 0 to 11 of a block -/

/-- Bytes 0 to 11 are field bits 0 to 95. -/
theorem samePrefix_of_bytes {A B : Block} (h : ∀ j, j < 12 → blockByte A j = blockByte B j) : samePrefix A B := by
  refine BitVec.eq_of_getMsbD_eq fun i hi => ?_
  have hbyte := congrArg (fun b : Byte => b.getMsbD (i % 8)) (h (i / 8) (by omega))
  simp only [getMsbD_blockByte _ _ _ (Nat.mod_lt i (by decide)), Nat.div_add_mod] at hbyte
  have hback : 128 - (128 - i) = i := by omega
  simpa [BitVec.getMsbD_extractLsb', hi, hback] using hbyte

/-- A counter block reads its first twelve bytes alone. -/
theorem withCounter_congr {A B : Block} (h : samePrefix A B) (n : BitVec 32) : withCounter A n = withCounter B n :=
  congrArg (· ++ n) h

/-! ### A byte string as padded blocks (R168) -/

/-- Whole blocks need no padding. -/
theorem paddedBlocks_of_whole {bytes : List Byte} (h : bytes.length % 16 = 0) :
    paddedBlocks bytes = completeBlocks bytes := by
  have hcount : (bytes.length + 15) / 16 = bytes.length / 16 := by omega
  rw [paddedBlocks, hcount, completeBlocks]

/-- The bytes after the last complete block are one padded block more. -/
theorem paddedBlocks_of_partial {bytes : List Byte} (h : bytes.length % 16 ≠ 0) :
    paddedBlocks bytes = completeBlocks bytes ++ [blockOfBytes (lastBytes bytes)] := by
  have hcount : (bytes.length + 15) / 16 = bytes.length / 16 + 1 := by omega
  rw [paddedBlocks, hcount, List.range_succ, List.map_append]
  rfl

/-- The waiting bytes of a block, zero-padded on the right (R166). -/
theorem firstBytes_of_startsWith {B : Block} {bytes : List Byte} (h : startsWith B bytes) :
    firstBytes B bytes.length = blockOfBytes bytes := by
  refine block_ext_bytes fun j hj => ?_
  rw [blockByte_firstBytes _ _ _ hj, blockByte_blockOfBytes _ hj]
  split
  · rename_i hlt
    exact h j hlt
  · rename_i hge
    rw [List.getD_eq_default _ _ (by omega)]

/-! ### The partial block folded (R166 point 1) -/

theorem foldPartialIv_of_empty {c : Context} (h : c.buflen = 0) : foldPartialIv c = c :=
  if_neg (by rw [h]; decide)

theorem foldPartialIv_of_some {c : Context} (h : c.buflen ≠ 0) :
    foldPartialIv c = { c with
      X := multH c (c.X ^^^ firstBytes c.buf c.buflen.toNat), totlen := c.totlen + partialBits c.buflen } :=
  if_pos (by bv_omega)

section AbsorbedIv

variable {H : Block} {iv : List Byte} {c : Context}

/-- Once the partial block is folded, `X` is the GHASH of the padded IV and `totlen` its bit length. -/
theorem IvAbsorbed.foldPartialIv (h : IvAbsorbed H iv c) (hmult : ∀ V, multH c V = gfMult V H) :
    (foldPartialIv c).X = ghashFrom H 0 (paddedBlocks iv) ∧ (foldPartialIv c).totlen = bitLength iv := by
  obtain ⟨htotlen, hbuflen, hwaiting, hX, -⟩ := h
  by_cases hwhole : iv.length % 16 = 0
  · have hbits : 128 * (iv.length / 16) = 8 * iv.length := by omega
    rw [foldPartialIv_of_empty (by bv_omega), paddedBlocks_of_whole hwhole, htotlen, hbits]
    exact ⟨hX, rfl⟩
  · have hlast : c.buflen.toNat = (lastBytes iv).length := hbuflen.trans (length_lastBytes iv).symm
    rw [foldPartialIv_of_some (by bv_omega), paddedBlocks_of_partial hwhole, ghashFrom_append_block, hmult, hX, hlast,
      firstBytes_of_startsWith hwaiting]
    refine ⟨rfl, ?_⟩
    show c.totlen + partialBits c.buflen = bitLength iv
    rw [htotlen, partialBits, bitLength]
    bv_omega

theorem IvAbsorbed.ghashCounter (h : IvAbsorbed H iv c) (hmult : ∀ V, multH c V = gfMult V H) :
    ghashCounter c = ghashFrom H 0 (paddedBlocks iv ++ [lengthBlock 0 (bitLength iv)]) := by
  obtain ⟨hX, htotlen⟩ := h.foldPartialIv hmult
  rw [Machine.ghashCounter, hX, htotlen, hmult, ghashFrom_append_block]

/-- The path is chosen by the length of the IV alone (R168). -/
theorem IvAbsorbed.takesGhashPath_iff (h : IvAbsorbed H iv c) : takesGhashPath c = true ↔ iv.length ≠ 12 := by
  obtain ⟨-, hbuflen, -, -, hivmode⟩ := h
  rw [takesGhashPath, Bool.or_eq_true, hivmode, bne_iff_ne]
  bv_omega

/-- Twelve waiting bytes are those of the IV. -/
theorem IvAbsorbed.directCounter (h : IvAbsorbed H iv c) (hlen : iv.length = 12) :
    directCounter c = withCounter (blockOfBytes iv) 1 := by
  have hall : lastBytes iv = iv := by rw [lastBytes, hlen]; rfl
  refine withCounter_congr (samePrefix_of_bytes fun j hj => ?_) 1
  rw [blockByte_blockOfBytes _ (by omega), h.waiting j (by rw [hall]; omega), hall]

/-- R167 and R168 together: IvClose writes `Y_0` as a function of H and the IV bytes. -/
theorem IvAbsorbed.ivClose_Y (h : IvAbsorbed H iv c) (hmult : ∀ V, multH c V = gfMult V H) :
    (ivClose c).Y = initialCounter H iv := by
  rw [Machine.ivClose_Y, initialCounter]
  by_cases hlen : iv.length = 12
  · rw [if_pos hlen, if_neg (by simp [h.takesGhashPath_iff, hlen]), h.directCounter hlen]
  · rw [if_neg hlen, if_pos (h.takesGhashPath_iff.mpr hlen), h.ghashCounter hmult]

end AbsorbedIv

/-! ### A session's IV, closed -/

theorem performAll_append {is js : List Instr} {s t u : State} {datas datas' : List (List Byte)}
    (h : performAll is s = some (datas, t)) (h' : performAll js t = some (datas', u)) :
    performAll (is ++ js) s = some (datas ++ datas', u) := by
  induction is generalizing s datas with
  | nil =>
    cases h
    exact h'
  | cons i is ih =>
    obtain ⟨⟨data, s1⟩, hfirst, hrest⟩ := Option.bind_eq_some_iff.mp h
    obtain ⟨⟨datas1, t1⟩, hlater, hend⟩ := Option.map_eq_some_iff.mp hrest
    cases hend
    rw [List.cons_append, performAll_cons hfirst, ih hlater]
    rfl

/-- What closing phase IV leaves of a session that has absorbed `iv` and nothing else. -/
structure IvClosed (H : Block) (iv : List Byte) (c : Context) : Prop where
  Y : c.Y = initialCounter H iv
  Y0 : c.Y0 = c.Y
  X : c.X = 0
  buf : c.buf = 0
  buflen : c.buflen = 0
  totlen : c.totlen = 0
  mode : c.mode = .aad

/-- The IV absorbed from the session's start, and phase IV closed. -/
theorem ivClosed_of_zeroSession {c : Context} (hstart : zeroSession c = c) (hmult : c.multipliesByH)
    (iv : List Byte) : IvClosed c.H iv (ivClose (absorbIv c iv)) where
  Y := (ivAbsorbed_absorbIv hstart hmult iv).ivClose_Y fun V => by
    rw [multH_eq_gfMult ((blind_absorbIv iv).multipliesByH hmult), absorbIv_H]
  Y0 := rfl
  X := ivClose_X_of_ivPhase (ivPhase_absorbIv (ivPhase_of_zeroSession hstart) iv)
  buf := rfl
  buflen := rfl
  totlen := rfl
  mode := rfl

/-- A session's ADD_IV commands and the ADD_AAD of no bytes that closes the phase. -/
theorem performAll_ivClose {s : State} (hwait : s.waiting = false) (hs : ContextInv s) (hstart : atSessionStart s.ctx)
    (chunks : List (List Byte)) :
    ∃ datas t, performAll (chunks.map .addIv ++ [.addAad []]) s = some (datas, t) ∧
      IvClosed s.ctx.H chunks.flatten t.ctx := by
  obtain ⟨hlife, hzero⟩ := hstart
  have hmode : s.ctx.mode = .iv := by rw [← hzero, zeroSession_mode]
  have hlen := (ivPhase_of_zeroSession hzero).buflen
  obtain ⟨datas, rsp, habsorbed⟩ := performAll_addIv hwait hlife hmode hlen chunks
  obtain ⟨datas', rsp', hclosed⟩ := performAll_addAad (chunks := [[]])
    (s := { s with ctx := absorbIv s.ctx chunks.flatten, rsp := rsp })
    hwait (by simp [hlife]) (by simp [hmode]) (buflen_absorbIv_le hlen _) (List.cons_ne_nil _ _)
  rw [closeIvPhase_of_iv (by simp [hmode])] at hclosed
  exact ⟨_, _, performAll_append habsorbed hclosed,
    ivClosed_of_zeroSession hzero (contextInv_multipliesByH hs (by rw [hlife]; rfl)) chunks.flatten⟩

/-- Settles O24: the direct case of the counter. -/
theorem directCounterPath : Obligations.DirectCounterPath := by
  intro s chunks hwait hs hstart hlen
  obtain ⟨datas, t, hperform, hY, hY0, hX, hbuf, hbuflen, htotlen, hmode⟩ := performAll_ivClose hwait hs hstart chunks
  rw [initialCounter, if_pos hlen] at hY
  exact ⟨datas, t, hperform, hY, hY0, hX, hbuf, hbuflen, htotlen, hmode⟩

/-- Settles O25: the GHASH case of the counter. -/
theorem ghashCounterPath : Obligations.GhashCounterPath := by
  intro s chunks hwait hs hstart hlen
  obtain ⟨datas, t, hperform, hY, hY0, hX, hbuf, hbuflen, htotlen, hmode⟩ := performAll_ivClose hwait hs hstart chunks
  rw [initialCounter, if_neg hlen] at hY
  exact ⟨datas, t, hperform, hY, hY0, hX, hbuf, hbuflen, htotlen, hmode⟩

/-- R169: the one block of the empty IV is its length block, zero, and so is the product. -/
theorem initialCounter_nil (H : Block) : initialCounter H [] = 0 := (fieldLinear_gfMult H).zero

/-- Settles O26: the counter of no IV bytes. -/
theorem emptyIvGivesZeroCounter : Obligations.EmptyIvGivesZeroCounter := by
  rintro s hs ⟨hlife, hzero⟩
  have hmode : s.ctx.mode = .iv := by rw [← hzero, zeroSession_mode]
  have hlen := BitVec.le_trans (ivPhase_of_zeroSession hzero).buflen (by decide : (15 : BitVec 5) ≤ 16)
  have hclosed := ivClosed_of_zeroSession hzero (contextInv_multipliesByH hs (by rw [hlife]; rfl)) []
  have hY := hclosed.Y.trans (initialCounter_nil _)
  refine ⟨_, exec_addAad hlife (by simp [hmode]) hlen [], ?_⟩
  rw [closeIvPhase_of_iv hmode]
  exact ⟨hY, hclosed.Y0.trans hY, hclosed.mode, rfl⟩

end Sys2Proof.Machine
end

section
/-! The implicit close of phase IV (R171): a command of a later phase runs as from the context in which phase IV is
closed, and reads nothing of the responses already on RSP. -/

namespace Sys2Proof.Machine

/-! ### What stands on RSP is not read (R25) -/

/-- The machine with other bytes written on RSP. -/
def State.withRsp (s : State) (rsp : List Byte) : State := { s with rsp := rsp }

/-- The same end, on a machine with other bytes written on RSP. -/
def Result.withRsp {α : Type} (r : Result α) (rsp : List Byte) : Result α :=
  match r with
  | .done a s => .done a (s.withRsp rsp)
  | .raised k s => .raised k (s.withRsp rsp)
  | .waiting s => .waiting (s.withRsp rsp)

/-- A pseudocode does not read RSP: on a machine with other bytes there it ends the same way. -/
def IgnoresRsp {α : Type} (m : State → Result α) : Prop := ∀ s rsp, m (s.withRsp rsp) = (m s).withRsp rsp

theorem IgnoresRsp.andThen {α β : Type} {m : State → Result α} {k : α → State → Result β} (hm : IgnoresRsp m)
    (hk : ∀ a, IgnoresRsp (k a)) : IgnoresRsp fun s => (m s).andThen k := by
  intro s rsp
  show (m (s.withRsp rsp)).andThen k = ((m s).andThen k).withRsp rsp
  rw [hm s rsp]
  cases m s with
  | done a t => exact hk a t rsp
  | raised e t => rfl
  | waiting t => rfl

/-- A write of the context, and then `m`. -/
theorem IgnoresRsp.setCtx {α : Type} {m : State → Result α} (hm : IgnoresRsp m) (f : Context → Context) :
    IgnoresRsp fun s => m (s.setCtx (f s.ctx)) := fun s rsp => hm (s.setCtx (f s.ctx)) rsp

theorem ignoresRsp_done {α : Type} (read : Context → α) (f : Context → Context) :
    IgnoresRsp fun s => .done (read s.ctx) (s.setCtx (f s.ctx)) := fun _ _ => rfl

theorem ignoresRsp_finished {α : Type} (a : α) : IgnoresRsp (Result.done a) := fun _ _ => rfl

/-- A test of the context. -/
theorem IgnoresRsp.ite {α : Type} {m n : State → Result α} (p : Context → Prop) [DecidablePred p] (hm : IgnoresRsp m)
    (hn : IgnoresRsp n) : IgnoresRsp fun s => if p s.ctx then m s else n s := by
  intro s rsp
  show (if p s.ctx then m (s.withRsp rsp) else n (s.withRsp rsp)) = (if p s.ctx then m s else n s).withRsp rsp
  by_cases hp : p s.ctx
  · rw [if_pos hp, if_pos hp, hm]
  · rw [if_neg hp, if_neg hp, hn]

theorem ignoresRsp_refuseIf (bad : Context → Bool) (e : ErrorKind) :
    IgnoresRsp fun s => Result.refuseIf (bad s.ctx) e s := by
  intro s rsp
  show Result.refuseIf (bad s.ctx) e (s.withRsp rsp) = (Result.refuseIf (bad s.ctx) e s).withRsp rsp
  cases bad s.ctx with
  | false => rfl
  | true => rfl

theorem ignoresRsp_checkState (legal : Context → Bool) : IgnoresRsp fun s => checkState (legal s.ctx) s :=
  (ignoresRsp_refuseIf (fun c => !legal c) .invalidState).andThen fun _ =>
    ignoresRsp_refuseIf (fun c => decide (16 < c.buflen)) .invalidArgument

theorem ignoresRsp_enc (read : Context → Block) : IgnoresRsp fun s => enc (read s.ctx) s := by
  intro s rsp
  show enc (read s.ctx) (s.withRsp rsp) = (enc (read s.ctx) s).withRsp rsp
  cases hreply : (s.adapter.encrypt s.ctx.sched (read s.ctx)).1 with
  | ok out =>
    rw [enc_ok hreply, enc_ok (s := s.withRsp rsp) hreply]
    rfl
  | notOk =>
    rw [enc_notOk hreply, enc_notOk (s := s.withRsp rsp) hreply]
    rfl
  | silent =>
    rw [enc_silent hreply, enc_silent (s := s.withRsp rsp) hreply]
    rfl

theorem ignoresRsp_fetchKeystream : IgnoresRsp fetchKeystream :=
  (ignoresRsp_enc Context.Y).andThen fun keystream =>
    ignoresRsp_done (fun _ => ()) fun c => { c with buf := keystream, buflen := 0 }

theorem ignoresRsp_aadClose : IgnoresRsp aadClose :=
  (ignoresRsp_fetchKeystream.setCtx fun c => advanceCounter (foldPartialAad c)).andThen fun _ =>
    ignoresRsp_done (fun _ => ()) fun c => { c with mode := .text }

theorem ignoresRsp_closeAadPhase : IgnoresRsp closeAadPhase :=
  .ite (fun c => c.mode = .aad) ignoresRsp_aadClose (ignoresRsp_finished ())

theorem ignoresRsp_crossBoundary : IgnoresRsp crossBoundary :=
  .ite (fun c => c.buflen = 16) (ignoresRsp_fetchKeystream.setCtx foldTextBlock) (ignoresRsp_finished ())

theorem ignoresRsp_processByte (dir : Direction) (b : Byte) : IgnoresRsp (processByte dir b) :=
  ignoresRsp_crossBoundary.andThen fun _ => ignoresRsp_done (outputByte · b) (absorbTextByte dir · b)

theorem ignoresRsp_processBytes (dir : Direction) (chunk : List Byte) : IgnoresRsp (processBytes dir chunk) := by
  induction chunk with
  | nil => exact ignoresRsp_finished []
  | cons b chunk ih =>
    exact (ignoresRsp_processByte dir b).andThen fun out => ih.andThen fun outs => ignoresRsp_finished (out :: outs)

theorem ignoresRsp_processBody (dir : Direction) (chunk : List Byte) : IgnoresRsp (processBody dir chunk) :=
  (ignoresRsp_checkState processLegal).andThen fun _ =>
    (ignoresRsp_closeAadPhase.setCtx closeIvPhase).andThen fun _ => ignoresRsp_processBytes dir chunk

theorem ignoresRsp_addAadBody (chunk : List Byte) : IgnoresRsp (addAadBody chunk) :=
  (ignoresRsp_checkState addAadLegal).andThen fun _ =>
    ignoresRsp_done (fun _ => []) fun c => absorbAad (closeIvPhase c) chunk

/-- Neither command that can close phase IV reads RSP. -/
theorem ignoresRsp_commandBody {i : Instr} (hi : entersLaterPhase i = true) : IgnoresRsp (commandBody i) := by
  cases i with
  | addAad chunk => exact ignoresRsp_addAadBody chunk
  | process dir chunk => exact ignoresRsp_processBody dir chunk
  | init tbl blockLen sched => cases hi
  | addIv chunk => cases hi
  | finish tagLen => cases hi
  | reset => cases hi
  | oneShot dir tbl tagLen key iv aad payload => cases hi

/-! ### A command of a later phase closes phase IV first -/

theorem closeIvPhase_ivClose (c : Context) : closeIvPhase (ivClose c) = ivClose c :=
  closeIvPhase_of_ne_iv (by rw [ivClose_mode]; decide)

theorem processBody_of_legal {s : State} (hlife : s.ctx.life = .live) (hlen : s.ctx.buflen ≤ 16) (dir : Direction)
    (chunk : List Byte) :
    processBody dir chunk s =
      (closeAadPhase (s.setCtx (closeIvPhase s.ctx))).andThen fun _ s => processBytes dir chunk s := by
  rw [processBody, (processLegal_iff _).mpr hlife, checkState_ok hlen, Result.done_andThen]

/-- In phase IV the command runs as from the context that IvClose leaves. -/
theorem commandBody_eq_after_ivClose {i : Instr} (hi : entersLaterPhase i = true) {s : State}
    (hlife : s.ctx.life = .live) (hmode : s.ctx.mode = .iv) (hlen : s.ctx.buflen ≤ 15) :
    commandBody i s = commandBody i (s.setCtx (ivClose s.ctx)) := by
  have hlen : s.ctx.buflen ≤ 16 := BitVec.le_trans hlen (by decide)
  have hclosed : (s.setCtx (ivClose s.ctx)).ctx.buflen ≤ 16 := zero_le_buflen _
  cases i with
  | addAad chunk =>
    rw [commandBody, addAadBody_of_legal hlife (by simp [hmode]) hlen,
      addAadBody_of_legal (by simp [hlife]) (by simp) hclosed, State.setCtx_ctx, closeIvPhase_ivClose,
      closeIvPhase_of_iv hmode]
    rfl
  | process dir chunk =>
    rw [commandBody, processBody_of_legal hlife hlen, processBody_of_legal (by simp [hlife]) hclosed,
      State.setCtx_ctx, closeIvPhase_ivClose, closeIvPhase_of_iv hmode]
    rfl
  | init tbl blockLen sched => cases hi
  | addIv chunk => cases hi
  | finish tagLen => cases hi
  | reset => cases hi
  | oneShot dir tbl tagLen key iv aad payload => cases hi

/-- CLOSE_IV in phase IV: the context of IvClose, and one response more. -/
theorem exec_closeIv {s : State} (hlife : s.ctx.life = .live) (hmode : s.ctx.mode = .iv) (hlen : s.ctx.buflen ≤ 15) :
    exec (.addAad []) s =
      .next ((s.setCtx (ivClose s.ctx)).withRsp (s.rsp ++ [0x05, 0, 0, 0, 0])) := by
  rw [exec_addAad hlife (by simp [hmode]) (BitVec.le_trans hlen (by decide)), closeIvPhase_of_iv hmode]
  rfl

/-- Two ends of a pseudocode that differ on RSP alone, concluded: the same answer, and with an answer the same
context. -/
theorem concludeCommand_withRsp (creates : Bool) (before before' : Context) (r : Result (List Byte))
    (rsp : List Byte) :
    let t := concludeCommand creates before r
    let t' := concludeCommand creates before' (r.withRsp rsp)
    ∃ answer, t'.ciph = t.ciph ∧ t'.adapter = t.adapter ∧ t'.waiting = t.waiting ∧ t.rsp = r.state.rsp ++ answer ∧
      t'.rsp = rsp ++ answer ∧ (answer ≠ [] → t'.ctx = t.ctx) ∧ (answer = [] → t.ctx = before ∧ t'.ctx = before') := by
  cases r with
  | done data t =>
    exact ⟨response okCode t.ctx data, rfl, rfl, rfl, rfl, rfl, fun _ => rfl, fun h => absurd h (response_ne_nil _ _ _)⟩
  | raised k t =>
    exact ⟨response k.code (t.takeError creates k).ctx [], rfl, rfl, rfl, rfl, rfl, fun _ => rfl,
      fun h => absurd h (response_ne_nil _ _ _)⟩
  | waiting t =>
    exact ⟨[], rfl, rfl, rfl, (List.append_nil _).symm, (List.append_nil _).symm, fun h => absurd rfl h,
      fun _ => ⟨rfl, rfl⟩⟩

/-- Settles O28: after CLOSE_IV the command runs the same pseudocode, with one response more already on RSP. -/
theorem implicitIvClose : Obligations.ImplicitIvClose := by
  intro i s u hi hlife hmode hlen hclose
  rw [exec_closeIv hlife hmode hlen] at hclose
  cases hclose
  obtain ⟨-, -, hrsp, -⟩ := commandBody_sameFrame i s
  obtain ⟨answer, hanswer⟩ := concludeCommand_withRsp (createsContext i) s.ctx (ivClose s.ctx) (commandBody i s)
    (s.rsp ++ [0x05, 0, 0, 0, 0])
  refine ⟨_, _, answer, exec_eq i s, exec_eq i _, ?_⟩
  rw [ignoresRsp_commandBody hi, ← commandBody_eq_after_ivClose hi hlife hmode hlen, ← hrsp]
  rw [← hrsp] at hanswer
  exact hanswer

end Sys2Proof.Machine
end

section
/-! PROCESS commands that succeed (`44_process.md`, R190): what a success says of the pseudocode behind it, and the law
of phase TEXT by appending one ciphertext byte at a time. -/

namespace Sys2Proof.Machine

/-! ### A command that succeeded, inverted -/

/-- A response that carries an error's code is no success. -/
theorem answerData_of_error {s t : State} (k : ErrorKind) (h : t.rsp = s.rsp ++ response k.code t.ctx []) :
    answerData s t = none := by
  refine if_neg fun hok => ?_
  have hcode := response_code_inj (List.append_cancel_left (h.symm.trans hok))
  cases k <;> cases hcode

/-- A command succeeds exactly where the machine is not waiting and the pseudocode runs to its end. -/
theorem perform_eq_some {i : Instr} {s t : State} {data : List Byte} :
    perform i s = some (data, t) ↔
      s.waiting = false ∧ ∃ u, commandBody i s = .done data u ∧ t = u.respond okCode data := by
  constructor
  · intro h
    have hframe := commandBody_sameFrame i s
    rw [perform, exec_eq] at h
    dsimp only at h
    split at h
    · cases h
    · rename_i hwait
      obtain ⟨data', hanswer, hend⟩ := Option.map_eq_some_iff.mp h
      cases hend
      cases hbody : commandBody i s with
      | done data' u =>
        rw [hbody] at hframe hwait hanswer
        obtain ⟨-, -, hrsp, hkept⟩ := hframe
        have hdata := answerData_of_response (s := s) (t := u.respond okCode data') (data := data')
          (by rw [State.respond_rsp, State.respond_ctx, ← hrsp]; rfl)
        cases hdata.symm.trans hanswer
        exact ⟨hkept.symm.trans (Bool.not_eq_true _ ▸ hwait), u, rfl, rfl⟩
      | raised k u =>
        rw [hbody] at hframe hanswer
        obtain ⟨-, -, hrsp, -⟩ := hframe
        cases (answerData_of_error k (by rw [← hrsp]; rfl)).symm.trans hanswer
      | waiting u =>
        rw [hbody] at hwait
        exact absurd rfl hwait
  · rintro ⟨hwait, u, hbody, rfl⟩
    exact perform_of_done hwait hbody

/-- PROCESS that succeeds ran its pseudocode to the end, and wrote one response. -/
theorem processBody_of_perform {dir : Direction} {chunk data : List Byte} {s t : State}
    (h : perform (.process dir chunk) s = some (data, t)) :
    ∃ u, processBody dir chunk s = .done data u ∧ t = u.respond okCode data := (perform_eq_some.mp h).2

theorem performAll_cons_eq_some {i : Instr} {is : List Instr} {s u : State} {datas : List (List Byte)} :
    performAll (i :: is) s = some (datas, u) ↔
      ∃ data t rest, perform i s = some (data, t) ∧ performAll is t = some (rest, u) ∧ datas = data :: rest := by
  constructor
  · intro h
    obtain ⟨⟨data, t⟩, hfirst, hlater⟩ := Option.bind_eq_some_iff.mp h
    obtain ⟨⟨rest, u⟩, hrest, hend⟩ := Option.map_eq_some_iff.mp hlater
    cases hend
    exact ⟨data, t, rest, hfirst, hrest, rfl⟩
  · rintro ⟨data, t, rest, hfirst, hrest, rfl⟩
    rw [performAll_cons hfirst, hrest]
    rfl

/-! ### The context through PROCESS -/

/-- What INIT set up decides the multiplier (R132). -/
theorem Context.sameSetup.multipliesByH {c d : Context} (h : c.sameSetup d) (hmult : c.multipliesByH) :
    d.multipliesByH := by
  obtain ⟨-, hH, hsel, htable⟩ := h
  unfold Context.multipliesByH
  rwa [hH, hsel, htable]

theorem Context.sameSetup.subkey {c d : Context} (h : c.sameSetup d) : d.H = c.H := by
  obtain ⟨-, hH, -⟩ := h
  exact hH

theorem foldPartialAad_of_empty {c : Context} (h : c.buflen = 0) : foldPartialAad c = c :=
  if_neg (by rw [h]; decide)

theorem foldPartialAad_of_some {c : Context} (h : c.buflen ≠ 0) :
    foldPartialAad c = { c with X := multH c c.X, totlen := c.totlen + partialBits c.buflen } :=
  if_pos (by bv_omega)

/-- The accumulator AadClose leaves: the partial AAD block multiplied in, if there is one (R188). -/
theorem foldPartialAad_X (c : Context) : (foldPartialAad c).X = if c.buflen = 0 then c.X else multH c c.X := by
  split
  · rename_i hempty
    rw [foldPartialAad_of_empty hempty]
  · rename_i hsome
    rw [foldPartialAad_of_some hsome]

/-! ### The payload's ciphertext -/

/-- The ciphertext byte of an input byte and its output byte (R190). -/
def cipherOf (dir : Direction) (b out : Byte) : Byte :=
  match dir with
  | .encrypt => out
  | .decrypt => b

theorem cipherByte_eq (dir : Direction) (c : Context) (b : Byte) :
    cipherByte dir c b = cipherOf dir b (outputByte c b) := by
  cases dir with
  | encrypt => rfl
  | decrypt => rfl

/-- One byte's ciphertext, and then that of the bytes behind it. -/
theorem cipherBytes_cons (dir : Direction) (b out : Byte) (chunk outs : List Byte) :
    cipherBytes (payloadOf [(dir, b :: chunk)]) (out :: outs) =
      cipherOf dir b out :: cipherBytes (payloadOf [(dir, chunk)]) outs := by
  cases dir with
  | encrypt => rfl
  | decrypt => rfl

/-- The payload of a command and of those behind it. -/
theorem payloadOf_cons (dir : Direction) (chunk : List Byte) (texts : List (Direction × List Byte)) :
    payloadOf ((dir, chunk) :: texts) = payloadOf [(dir, chunk)] ++ payloadOf texts := by
  simp [payloadOf]

theorem length_payloadOf_cons (dir : Direction) (chunk : List Byte) (texts : List (Direction × List Byte)) :
    (payloadOf ((dir, chunk) :: texts)).length = chunk.length + (payloadOf texts).length := by
  simp [payloadOf]

/-- The ciphertext of a command's chunk, and then that of the commands behind it. -/
theorem cipherBytes_payloadOf_cons {dir : Direction} {chunk data : List Byte} (h : data.length = chunk.length)
    (texts : List (Direction × List Byte)) (outs : List Byte) :
    cipherBytes (payloadOf ((dir, chunk) :: texts)) (data ++ outs) =
      cipherBytes (payloadOf [(dir, chunk)]) data ++ cipherBytes (payloadOf texts) outs := by
  rw [payloadOf_cons]
  exact List.zipWith_append (by simp [payloadOf, h])

theorem length_cipherBytes {payload : Payload} {outs : List Byte} (h : outs.length = payload.length) :
    (cipherBytes payload outs).length = payload.length := by
  rw [cipherBytes, List.length_zipWith, h, Nat.min_self]

/-! ### The law of phase TEXT (R190)

Between commands the last 1 to 16 ciphertext bytes are held in `X` unmultiplied, a complete block among them (R27).  The
boundary test before a byte brings the registers to where no complete block is held. -/

/-- How many blocks of a string are folded: all but the last, which holds 1 to 16 bytes (R190). -/
def foldedCount (bytes : List Byte) : Nat := (bytes.length - 1) / 16

/-- The registers at rest in phase TEXT, the ciphertext `C` absorbed from the accumulator `XA` (R190). -/
structure TextHeld (H XA : Block) (C : List Byte) (c : Context) : Prop where
  buflen : c.buflen.toNat = C.length - 16 * foldedCount C
  pttotlen : c.pttotlen = BitVec.ofNat 64 (128 * foldedCount C)
  X : c.X = ghashFrom H XA ((completeBlocks C).take (foldedCount C)) ^^^ blockOfBytes (C.drop (16 * foldedCount C))

/-- The registers before a payload byte: every complete block of the ciphertext `C` is folded (R185). -/
structure TextReady (H XA : Block) (C : List Byte) (c : Context) : Prop where
  buflen : c.buflen.toNat = C.length % 16
  pttotlen : c.pttotlen = BitVec.ofNat 64 (128 * (C.length / 16))
  X : c.X = ghashFrom H XA (completeBlocks C) ^^^ blockOfBytes (lastBytes C)

theorem length_completeBlocks (bytes : List Byte) : (completeBlocks bytes).length = bytes.length / 16 := by
  rw [completeBlocks, List.length_map, List.length_range]

/-- Where the string does not end with a complete block, nothing is held back. -/
theorem foldedCount_of_partial {bytes : List Byte} (h : bytes = [] ∨ bytes.length % 16 ≠ 0) :
    foldedCount bytes = bytes.length / 16 := by
  unfold foldedCount
  obtain rfl | h := h
  · rfl
  · omega

/-- Where it does, that block is held back. -/
theorem foldedCount_of_full {bytes : List Byte} (hne : bytes ≠ []) (h : bytes.length % 16 = 0) :
    bytes.length / 16 = foldedCount bytes + 1 := by
  have hpos := List.length_pos_iff.mpr hne
  unfold foldedCount
  omega

theorem foldedCount_append_byte (bytes : List Byte) (b : Byte) : foldedCount (bytes ++ [b]) = bytes.length / 16 := by
  rw [foldedCount, List.length_append, List.length_singleton, Nat.add_sub_cancel]

/-- A string that ends with a complete block: the blocks before it, and that block. -/
theorem completeBlocks_of_full {bytes : List Byte} (hne : bytes ≠ []) (h : bytes.length % 16 = 0) :
    completeBlocks bytes =
      (completeBlocks bytes).take (foldedCount bytes) ++ [blockOfBytes (bytes.drop (16 * foldedCount bytes))] := by
  have hcount := foldedCount_of_full hne h
  rw [completeBlocks, hcount, List.range_succ, List.map_append, List.map_singleton,
    List.take_left' (by rw [List.length_map, List.length_range])]

theorem completeBlocks_append_take (bytes : List Byte) (b : Byte) :
    (completeBlocks (bytes ++ [b])).take (bytes.length / 16) = completeBlocks bytes := by
  by_cases hfull : bytes.length % 16 = 15
  · rw [completeBlocks_append_of_last hfull, List.take_left' (length_completeBlocks bytes)]
  · rw [completeBlocks_append_of_partial hfull, List.take_of_length_le (length_completeBlocks bytes).le]

theorem textHeld_nil {H XA : Block} {c : Context} (hbuflen : c.buflen = 0) (hcount : c.pttotlen = 0) (hX : c.X = XA) :
    TextHeld H XA [] c := by
  refine ⟨by rw [hbuflen]; rfl, hcount, ?_⟩
  rw [hX, List.drop_nil, blockOfBytes_nil]
  exact BitVec.xor_zero.symm

/-- No boundary is crossed: no complete block was held. -/
theorem textReady_of_partial {H XA : Block} {C : List Byte} {c : Context} (h : TextHeld H XA C c)
    (hlen : c.buflen ≠ 16) : TextReady H XA C c := by
  obtain ⟨hbuflen, hcount, hX⟩ := h
  have hpartial : C = [] ∨ C.length % 16 ≠ 0 := by
    refine or_iff_not_imp_left.mpr fun hne hfull => hlen ?_
    have hfolded := foldedCount_of_full hne hfull
    bv_omega
  rw [foldedCount_of_partial hpartial] at hbuflen hcount hX
  rw [List.take_of_length_le (length_completeBlocks C).le] at hX
  exact ⟨by omega, hcount, hX⟩

/-- A boundary crossed: the complete block that was held is folded and counted. -/
theorem textReady_of_boundary {H XA : Block} {C : List Byte} {c : Context} (h : TextHeld H XA C c)
    (hmult : ∀ V, multH c V = gfMult V H) (hlen : c.buflen = 16) (keystream : Block) :
    TextReady H XA C { foldTextBlock c with buf := keystream, buflen := 0 } := by
  obtain ⟨hbuflen, hcount, hX⟩ := h
  have hheld : C.length - 16 * foldedCount C = 16 := by rw [← hbuflen, hlen]; rfl
  have hne : C ≠ [] := by rintro rfl; cases hheld
  have hfull : C.length % 16 = 0 := by omega
  have hfolded := foldedCount_of_full hne hfull
  have hnone : lastBytes C = [] := by rw [← List.length_eq_zero_iff, length_lastBytes, hfull]
  constructor
  case buflen => exact hfull.symm
  case pttotlen =>
    rw [hfolded, Nat.mul_succ, BitVec.ofNat_add, ← hcount]
    rfl
  case X =>
    rw [completeBlocks_of_full hne hfull, ghashFrom_append_block, ← hX, hnone, blockOfBytes_nil]
    exact (hmult c.X).trans BitVec.xor_zero.symm

/-- A byte absorbed where no complete block is held. -/
theorem textHeld_absorbTextByte {H XA : Block} {C : List Byte} {c : Context} (h : TextReady H XA C c) (dir : Direction)
    (b : Byte) : TextHeld H XA (C ++ [cipherOf dir b (outputByte c b)]) (absorbTextByte dir c b) := by
  obtain ⟨hbuflen, hcount, hX⟩ := h
  constructor <;> rw [foldedCount_append_byte]
  case buflen =>
    rw [List.length_append, List.length_singleton, absorbTextByte_buflen]
    bv_omega
  case pttotlen => exact hcount
  case X =>
    rw [completeBlocks_append_take, List.drop_append_of_le_length (by omega), absorbTextByte_X, cipherByte_eq, hX,
      xorBlockByte_xor, hbuflen, ← length_lastBytes, ← blockOfBytes_append_byte, lastBytes]

/-- One payload byte, whether or not a boundary stands before it. -/
theorem textHeld_processByte {H XA : Block} {C : List Byte} {dir : Direction} {b out : Byte} {s t : State}
    (hs : TextHeld H XA C s.ctx) (hmult : ∀ V, multH s.ctx V = gfMult V H)
    (h : processByte dir b s = .done out t) : TextHeld H XA (C ++ [cipherOf dir b out]) t.ctx := by
  obtain ⟨s1, hcross, rfl, rfl⟩ := processByte_done h
  refine textHeld_absorbTextByte ?_ dir b
  obtain ⟨hlen, rfl⟩ | ⟨hlen, keystream, -, hs1⟩ := crossBoundary_done hcross
  · exact textReady_of_partial hs hlen
  · rw [hs1]
    exact textReady_of_boundary hs hmult hlen keystream

theorem processByte_sameSetup {dir : Direction} {b out : Byte} {s t : State} (h : processByte dir b s = .done out t) :
    s.ctx.sameSetup t.ctx := by
  have hkept := (KeptBySessionWrites.sameSetup s.ctx).processByte dir b (s := s) ⟨rfl, rfl, rfl, rfl⟩
  rwa [h] at hkept

/-- A chunk's bytes, from their first to their last. -/
theorem textHeld_processBytes {H XA : Block} {dir : Direction} {chunk : List Byte} {C outs : List Byte} {s t : State}
    (hs : TextHeld H XA C s.ctx) (hmult : s.ctx.multipliesByH) (hH : s.ctx.H = H)
    (h : processBytes dir chunk s = .done outs t) :
    outs.length = chunk.length ∧ TextHeld H XA (C ++ cipherBytes (payloadOf [(dir, chunk)]) outs) t.ctx := by
  induction chunk generalizing C s outs with
  | nil =>
    cases h
    exact ⟨rfl, (List.append_nil C).symm ▸ hs⟩
  | cons b chunk ih =>
    obtain ⟨out, s1, hfirst, hrest⟩ := Result.andThen_eq_done.mp h
    obtain ⟨outs1, t1, hbytes, hend⟩ := Result.andThen_eq_done.mp hrest
    cases hend
    have hsetup := processByte_sameSetup hfirst
    have hbyte := textHeld_processByte hs (fun V => hH ▸ multH_eq_gfMult hmult V) hfirst
    obtain ⟨hlen, hheld⟩ := ih hbyte (hsetup.multipliesByH hmult) (hsetup.subkey.trans hH) hbytes
    rw [List.append_assoc, List.singleton_append, ← cipherBytes_cons] at hheld
    exact ⟨congrArg (· + 1) hlen, hheld⟩

/-! ### PROCESS commands performed one after another -/

/-- A context in phase TEXT that multiplies by the subkey `H`. -/
structure TextUnder (H : Block) (c : Context) : Prop where
  life : c.life = .live
  mode : c.mode = .text
  subkey : c.H = H
  multiplies : c.multipliesByH

/-- PROCESS that succeeds leaves phase TEXT under the subkey it found. -/
theorem textUnder_processBody {dir : Direction} {chunk data : List Byte} {s t : State} (hmult : s.ctx.multipliesByH)
    (h : processBody dir chunk s = .done data t) : TextUnder s.ctx.H t.ctx := by
  obtain ⟨hlive, -⟩ := processBody_done h
  have hlife := (KeptBySessionWrites.life s.ctx.life).processBody dir chunk (s := s) rfl
  have hsetup := (KeptBySessionWrites.sameSetup s.ctx).processBody dir chunk (s := s) ⟨rfl, rfl, rfl, rfl⟩
  rw [h] at hlife hsetup
  exact ⟨hlife.trans hlive, processBody_done_mode h, hsetup.subkey, hsetup.multipliesByH hmult⟩

/-- In phase TEXT there is no phase to close. -/
theorem closePhases_of_text {s : State} (hmode : s.ctx.mode = .text) :
    closeAadPhase (s.setCtx (closeIvPhase s.ctx)) = .done () s := by
  rw [closeIvPhase_of_ne_iv (by simp [hmode])]
  exact if_neg (by simp [hmode])

/-- In phase AAD there is that phase to close. -/
theorem closePhases_of_aad {s : State} (hmode : s.ctx.mode = .aad) :
    closeAadPhase (s.setCtx (closeIvPhase s.ctx)) = aadClose s := by
  rw [closeIvPhase_of_ne_iv (by simp [hmode])]
  exact if_pos hmode

/-- AadClose begins phase TEXT: no payload byte has arrived. -/
theorem textHeld_aadClose {s t : State} {u : Unit} (hcount : s.ctx.pttotlen = 0) (h : aadClose s = .done u t)
    (H : Block) : TextHeld H (foldPartialAad s.ctx).X [] t.ctx := by
  obtain ⟨keystream, -, ht⟩ := aadClose_done h
  rw [ht]
  exact textHeld_nil rfl (by simp [hcount]) rfl

theorem aadClose_sameSetup {s t : State} {u : Unit} (h : aadClose s = .done u t) : s.ctx.sameSetup t.ctx := by
  obtain ⟨keystream, -, ht⟩ := aadClose_done h
  rw [ht]
  exact sameSetup_foldPartialAad s.ctx

/-- PROCESS that succeeds in phase TEXT. -/
theorem textHeld_processBody_of_text {H XA : Block} {dir : Direction} {chunk C data : List Byte} {s t : State}
    (hs : TextUnder H s.ctx) (hheld : TextHeld H XA C s.ctx) (h : processBody dir chunk s = .done data t) :
    data.length = chunk.length ∧ TextHeld H XA (C ++ cipherBytes (payloadOf [(dir, chunk)]) data) t.ctx := by
  obtain ⟨-, -, s1, hclose, hbytes⟩ := processBody_done h
  rw [closePhases_of_text hs.mode] at hclose
  cases hclose
  exact textHeld_processBytes hheld hs.multiplies hs.subkey hbytes

/-- PROCESS that succeeds in phase AAD: AadClose, and then the first payload bytes. -/
theorem textHeld_processBody_of_aad {dir : Direction} {chunk data : List Byte} {s t : State} (hmode : s.ctx.mode = .aad)
    (hcount : s.ctx.pttotlen = 0) (hmult : s.ctx.multipliesByH) (h : processBody dir chunk s = .done data t) :
    data.length = chunk.length ∧
      TextHeld s.ctx.H (foldPartialAad s.ctx).X (cipherBytes (payloadOf [(dir, chunk)]) data) t.ctx := by
  obtain ⟨-, -, s1, hclose, hbytes⟩ := processBody_done h
  rw [closePhases_of_aad hmode] at hclose
  have hsetup := aadClose_sameSetup hclose
  exact textHeld_processBytes (C := []) (textHeld_aadClose hcount hclose _) (hsetup.multipliesByH hmult) hsetup.subkey
    hbytes

/-- PROCESS commands in phase TEXT: of the ciphertext only the concatenation counts. -/
theorem textHeld_performAll {H XA : Block} {texts : List (Direction × List Byte)} {C : List Byte}
    {datas : List (List Byte)} {s t : State} (hs : TextUnder H s.ctx) (hheld : TextHeld H XA C s.ctx)
    (h : performAll (texts.map fun c => .process c.1 c.2) s = some (datas, t)) :
    datas.flatten.length = (payloadOf texts).length ∧ TextUnder H t.ctx ∧
      TextHeld H XA (C ++ cipherBytes (payloadOf texts) datas.flatten) t.ctx := by
  induction texts generalizing C s datas with
  | nil =>
    cases h
    exact ⟨rfl, hs, (List.append_nil C).symm ▸ hheld⟩
  | cons text texts ih =>
    obtain ⟨dir, chunk⟩ := text
    obtain ⟨data, s1, rest, hfirst, hrest, rfl⟩ := performAll_cons_eq_some.mp h
    obtain ⟨u, hbody, rfl⟩ := processBody_of_perform hfirst
    obtain ⟨hlen, hu⟩ := textHeld_processBody_of_text hs hheld hbody
    have hunder : TextUnder H u.ctx := hs.subkey ▸ textUnder_processBody hs.multiplies hbody
    obtain ⟨hlens, ht, hlast⟩ := ih (s := u.respond okCode data) hunder hu hrest
    rw [List.flatten_cons, cipherBytes_payloadOf_cons hlen, ← List.append_assoc, length_payloadOf_cons,
      List.length_append, hlens, hlen]
    exact ⟨rfl, ht, hlast⟩

/-- The registers of phase TEXT where no payload byte has arrived. -/
theorem TextHeld.of_nil {H XA : Block} {c : Context} (h : TextHeld H XA [] c) :
    c.buflen = 0 ∧ c.pttotlen = 0 ∧ c.X = XA := by
  obtain ⟨hbuflen, hcount, hX⟩ := h
  refine ⟨BitVec.eq_of_toNat_eq hbuflen, hcount, hX.trans ?_⟩
  rw [List.drop_nil, blockOfBytes_nil]
  exact BitVec.xor_zero

/-- The fill count where some have: 1 to 16 bytes are held. -/
theorem TextHeld.buflen_of_ne_nil {H XA : Block} {C : List Byte} {c : Context} (h : TextHeld H XA C c)
    (hne : C ≠ []) : c.buflen.toNat = (C.length - 1) % 16 + 1 := by
  have hpos := List.length_pos_iff.mpr hne
  have hbuflen := h.buflen
  unfold foldedCount at hbuflen
  omega

/-- Settles O35: the first command closes phase AAD, and each byte after that extends the ciphertext held. -/
theorem textPhaseLaw : Obligations.TextPhaseLaw := by
  intro s t texts datas hs hlife hmode hsome h
  have hholds : s.ctx.life.holds = true := by rw [hlife]; rfl
  have hmult := contextInv_multipliesByH hs hholds
  cases texts with
  | nil => exact absurd rfl hsome
  | cons text texts =>
    obtain ⟨dir, chunk⟩ := text
    obtain ⟨data, s1, rest, hfirst, hrest, rfl⟩ := performAll_cons_eq_some.mp h
    obtain ⟨u, hbody, rfl⟩ := processBody_of_perform hfirst
    obtain ⟨hlen, hu⟩ := textHeld_processBody_of_aad hmode (hs.aadPhase hholds hmode) hmult hbody
    have hunder : TextUnder s.ctx.H u.ctx := textUnder_processBody hmult hbody
    obtain ⟨hlens, ht, hlast⟩ := textHeld_performAll (s := u.respond okCode data) hunder hu hrest
    rw [← cipherBytes_payloadOf_cons hlen, ← List.flatten_cons, foldPartialAad_X, multH_eq_gfMult hmult] at hlast
    have hall : (data :: rest).flatten.length = (payloadOf ((dir, chunk) :: texts)).length := by
      rw [length_payloadOf_cons, List.flatten_cons, List.length_append, hlens, hlen]
    refine ⟨ht.life, ht.mode, length_cipherBytes hall, fun hnil => ?_, fun hne => ?_⟩
    · exact (hnil ▸ hlast).of_nil
    · exact ⟨hlast.buflen_of_ne_nil hne, hlast.pttotlen, hlast.X⟩

end Sys2Proof.Machine
end

section
/-! The counter and the keystream (`44_process.md`, R185 to R188): what Inc32 writes, AadClose whose request is
answered, and a chunk in phase TEXT whose boundaries' requests are answered. -/

namespace Sys2Proof.Machine

/-! ### The counter (R186) -/

/-- Blocks that agree on bytes 0 to 11 agree on each of them. -/
theorem blockByte_of_samePrefix {A B : Block} (h : samePrefix A B) {j : Nat} (hj : j < 12) :
    blockByte A j = blockByte B j := by
  refine byte_ext fun k hk => ?_
  have hbit := congrArg (fun P : BitVec 96 => P.getMsbD (8 * j + k)) h
  have hlt : 8 * j + k < 96 := by omega
  have hback : 128 - (128 - (8 * j + k)) = 8 * j + k := by omega
  rw [getMsbD_blockByte _ _ _ hk, getMsbD_blockByte _ _ _ hk]
  simpa [BitVec.getMsbD_extractLsb', hlt, hback] using hbit

/-- Settles O29: the first twelve bytes are those `Inc32` copies, the rest is the counter it writes. -/
theorem inc32Counts : Obligations.Inc32Counts := by
  refine fun B => ⟨fun j hj => blockByte_of_samePrefix (samePrefix_withCounter B _) hj, ?_⟩
  rw [inc32, counterOf_withCounter, BitVec.toNat_add]
  rfl

/-- The first counter block behind `Y` (R187). -/
theorem ctrBlock_zero (Y : Block) : ctrBlock Y 0 = inc32 Y := congrArg (withCounter Y) (BitVec.add_zero _)

/-- The counter blocks behind `Inc32(Y)` are those behind `Y` from the second on. -/
theorem ctrBlock_inc32 (Y : Block) (j : Nat) : ctrBlock (inc32 Y) j = ctrBlock Y (j + 1) := by
  have hcounter : counterOf (inc32 Y) + 1 + BitVec.ofNat 32 j = counterOf Y + 1 + BitVec.ofNat 32 (j + 1) := by
    rw [inc32, counterOf_withCounter, BitVec.ofNat_add, BitVec.add_assoc _ 1, BitVec.add_comm 1]
    rfl
  rw [ctrBlock, ctrBlock, hcounter, withCounter_congr (samePrefix_inc32 (rfl : samePrefix Y Y))]

/-! ### One keystream block that arrives (R185, R188) -/

/-- The request of `Y`'s keystream block, answered. -/
theorem fetchKeystream_of_answer {s : State} {keystream : Block} {a : Adapter}
    (h : s.adapter.encrypt s.ctx.sched s.ctx.Y = (.ok keystream, a)) :
    fetchKeystream s = .done () ((s.transact (.encrypt s.ctx.sched s.ctx.Y (.ok keystream)) a).setCtx
      { s.ctx with buf := keystream, buflen := 0 }) := by
  rw [fetchKeystream_ok (congrArg Prod.fst h), State.encrypted, h]

/-- The two registers that the fold of the partial AAD block writes, also where there is none. -/
theorem foldPartialAad_eq (c : Context) :
    foldPartialAad c = { c with
      X := if c.buflen = 0 then c.X else multH c c.X, totlen := c.totlen + 8 * c.buflen.setWidth 64 } := by
  by_cases hempty : c.buflen = 0
  · have hnone : c.totlen + 8 * (0 : BitVec 5).setWidth 64 = c.totlen := BitVec.add_zero _
    rw [foldPartialAad_of_empty hempty, hempty, hnone, if_pos rfl, ← hempty]
  · rw [foldPartialAad_of_some hempty, if_neg hempty, partialBits, BitVec.mul_comm]

theorem aadClose_of_answer {s : State} {keystream : Block} {a : Adapter}
    (h : s.adapter.encrypt s.ctx.sched (inc32 s.ctx.Y) = (.ok keystream, a)) :
    aadClose s = .done () ((s.transact (.encrypt s.ctx.sched (inc32 s.ctx.Y) (.ok keystream)) a).setCtx
      { advanceCounter (foldPartialAad s.ctx) with buf := keystream, buflen := 0, mode := .text }) := by
  rw [aadClose, fetchKeystream_of_answer (keystream := keystream) (a := a) (by simpa using h)]
  simp only [State.setCtx_ctx, advanceCounter_sched, advanceCounter_Y, foldPartialAad_sched, foldPartialAad_Y]
  rfl

theorem State.respond_of_live_text {s : State} (hlife : s.ctx.life = .live) (hmode : s.ctx.mode = .text)
    (data : List Byte) :
    s.respond okCode data = { s with rsp := s.rsp ++ 0x06 :: (be32 (dlenField data.length) ++ data) } := by
  rw [State.respond, response, hlife, hmode, statusByte_ok_live_text]

/-- Settles O30: no byte follows the close of phase AAD. -/
theorem processEntersText : Obligations.ProcessEntersText := by
  intro s dir keystream a hlife hmode hlen hanswer
  rw [exec_eq, commandBody, processBody_of_legal hlife hlen, closePhases_of_aad hmode, aadClose_of_answer hanswer,
    Result.done_andThen, processBytes, concludeCommand_done, State.respond_of_live_text (by simp [hlife]) rfl,
    foldPartialAad_eq]
  rfl

/-- The context past a boundary: the complete block folded, the keystream block that arrived in `buf` (R185). -/
def Context.pastBoundary (c : Context) (keystream : Block) : Context :=
  { foldTextBlock c with buf := keystream, buflen := 0 }

/-- The machine past a boundary whose request the adapter answered. -/
def State.pastBoundary (s : State) (keystream : Block) (a : Adapter) : State :=
  (s.transact (.encrypt s.ctx.sched (inc32 s.ctx.Y) (.ok keystream)) a).setCtx (s.ctx.pastBoundary keystream)

theorem crossBoundary_of_answer {s : State} {keystream : Block} {a : Adapter} (hlen : s.ctx.buflen = 16)
    (h : s.adapter.encrypt s.ctx.sched (inc32 s.ctx.Y) = (.ok keystream, a)) :
    crossBoundary s = .done () (s.pastBoundary keystream a) :=
  (if_pos hlen).trans (fetchKeystream_of_answer (s := s.setCtx (foldTextBlock s.ctx)) h)

theorem crossBoundary_of_room {s : State} (hlen : s.ctx.buflen ≠ 16) : crossBoundary s = .done () s := if_neg hlen

/-! ### Several requests answered -/

theorem Adapter.encryptAll_cons_eq_some {h : Handle} {B : Block} {Bs outs : List Block} {a a' : Adapter} :
    Adapter.encryptAll h (B :: Bs) a = some (outs, a') ↔
      ∃ out a1 rest, a.encrypt h B = (.ok out, a1) ∧ Adapter.encryptAll h Bs a1 = some (rest, a') ∧
        outs = out :: rest := by
  constructor
  · intro hall
    unfold Adapter.encryptAll at hall
    split at hall
    · rename_i out a1 hfirst
      obtain ⟨⟨rest, a2⟩, hrest, hend⟩ := Option.map_eq_some_iff.mp hall
      cases hend
      exact ⟨out, a1, rest, hfirst, hrest, rfl⟩
    · cases hall
  · rintro ⟨out, a1, rest, hfirst, hrest, rfl⟩
    rw [Adapter.encryptAll, hfirst]
    simp [hrest]

/-- The boundaries that `n` more bytes cross from a fill count of `buflen` (R185: the test stands before the byte). -/
def boundaries (buflen n : Nat) : Nat := (buflen + n - 1) / 16

/-- The counter blocks of those boundaries, in the order of their requests (R187). -/
def boundaryCounters (c : Context) (n : Nat) : List Block :=
  (List.range (boundaries c.buflen.toNat n)).map (ctrBlock c.Y)

/-- A byte absorbed leaves the boundaries behind it. -/
theorem boundaryCounters_succ {c : Context} (hlen : c.buflen ≤ 16) (dir : Direction) (b : Byte) (n : Nat) :
    boundaryCounters c (n + 1) = boundaryCounters (absorbTextByte dir c b) n := by
  have hsucc : (c.buflen + 1).toNat = c.buflen.toNat + 1 := by bv_omega
  simp only [boundaryCounters, absorbTextByte_buflen, absorbTextByte_Y, hsucc, boundaries]
  rw [Nat.add_right_comm c.buflen.toNat 1 n, Nat.add_assoc]

/-- A boundary crossed leaves those behind it. -/
theorem boundaryCounters_of_full {c : Context} (hfull : c.buflen = 16) (keystream : Block) (n : Nat) :
    boundaryCounters c (n + 1) =
      inc32 c.Y :: boundaryCounters (c.pastBoundary keystream) (n + 1) := by
  have hcount : boundaries c.buflen.toNat (n + 1) = boundaries 0 (n + 1) + 1 := by
    rw [hfull]
    show (16 + (n + 1) - 1) / 16 = (0 + (n + 1) - 1) / 16 + 1
    omega
  rw [boundaryCounters, hcount, List.range_succ_eq_map, List.map_cons, List.map_map, ctrBlock_zero]
  exact congrArg _ (List.map_congr_left fun j _ => (ctrBlock_inc32 c.Y j).symm)

/-! ### PROCESS in phase TEXT, its requests answered (R185, R187) -/

theorem keystreamByte_of_lt {p : Nat} (h : p < 16) (B : Block) (Bs : List Block) :
    keystreamByte (B :: Bs) p = blockByte B p := by
  rw [keystreamByte, Nat.div_eq_of_lt h, Nat.mod_eq_of_lt h]
  rfl

theorem keystreamByte_cons (B : Block) (Bs : List Block) (p : Nat) :
    keystreamByte (B :: Bs) (16 + p) = keystreamByte Bs p := by
  rw [keystreamByte, keystreamByte, Nat.add_div_left p (by decide), Nat.add_mod_left, List.getD_cons_succ]

/-- The output of a chunk whose first byte meets byte `p` of the keystream (R187). -/
def xorKeystreamFrom (keystream : List Block) (p : Nat) (chunk : List Byte) : List Byte :=
  chunk.mapIdx fun k b => b ^^^ keystreamByte keystream (p + k)

theorem xorKeystreamFrom_cons (keystream : List Block) (p : Nat) (b : Byte) (chunk : List Byte) :
    xorKeystreamFrom keystream p (b :: chunk) =
      (b ^^^ keystreamByte keystream p) :: xorKeystreamFrom keystream (p + 1) chunk := by
  simp [xorKeystreamFrom, List.mapIdx_cons, Nat.add_assoc, Nat.add_comm 1]

theorem xorKeystreamFrom_cons_block (B : Block) (Bs : List Block) (p : Nat) (chunk : List Byte) :
    xorKeystreamFrom (B :: Bs) (16 + p) chunk = xorKeystreamFrom Bs p chunk := by
  simp only [xorKeystreamFrom, Nat.add_assoc, keystreamByte_cons]

/-- The context after bytes of phase TEXT for which the keystream blocks `outs` arrived. -/
def Context.afterKeystream (c : Context) (outs : List Block) (X : Block) (buflen : BitVec 5) : Context :=
  { c with
    X := X, Y := withCounter c.Y (counterOf c.Y + BitVec.ofNat 32 outs.length),
    buf := (c.buf :: outs).getLast (by simp), buflen := buflen,
    pttotlen := c.pttotlen + 128 * BitVec.ofNat 64 outs.length }

theorem withCounter_counterOf (B : Block) : withCounter B (counterOf B) = B := by
  refine BitVec.eq_of_getLsbD_eq fun i hi => ?_
  rw [withCounter, BitVec.getLsbD_append, counterOf]
  by_cases h : i < 32
  · simp [h]
  · have hback : 32 + (i - 32) = i := by omega
    have hlt : i - 32 < 96 := by omega
    simp [h, hback, hlt]

/-- No keystream block arrived: `Y`, `buf` and `pttotlen` are as they were. -/
theorem Context.afterKeystream_nil (c : Context) (X : Block) (buflen : BitVec 5) :
    c.afterKeystream [] X buflen = { c with X := X, buflen := buflen } := by
  have hY : withCounter c.Y (counterOf c.Y + BitVec.ofNat 32 0) = c.Y := by
    exact (congrArg _ (BitVec.add_zero _)).trans (withCounter_counterOf c.Y)
  have hcount : c.pttotlen + 128 * BitVec.ofNat 64 0 = c.pttotlen := BitVec.add_zero _
  rw [Context.afterKeystream, List.length_nil, hY, hcount]
  rfl

/-- A keystream block that arrives at a boundary, and those behind it. -/
theorem Context.afterKeystream_cons (c : Context) (out : Block) (outs : List Block) (X : Block) (buflen : BitVec 5) :
    (c.pastBoundary out).afterKeystream outs X buflen = c.afterKeystream (out :: outs) X buflen := by
  have hY : withCounter (inc32 c.Y) (counterOf (inc32 c.Y) + BitVec.ofNat 32 outs.length) =
      withCounter c.Y (counterOf c.Y + BitVec.ofNat 32 (outs.length + 1)) := by
    rw [inc32, counterOf_withCounter, BitVec.ofNat_add, BitVec.add_assoc, BitVec.add_comm 1]
    exact withCounter_congr (samePrefix_withCounter c.Y _) _
  have hcount : c.pttotlen + 128 + 128 * BitVec.ofNat 64 outs.length =
      c.pttotlen + 128 * BitVec.ofNat 64 (outs.length + 1) := by
    rw [BitVec.ofNat_add, BitVec.mul_add, BitVec.add_assoc, BitVec.add_comm 128]
    rfl
  have hbuf : (c.buf :: out :: outs).getLast (by simp) = (out :: outs).getLast (by simp) := List.getLast_cons _
  simp only [Context.afterKeystream, Context.pastBoundary, foldTextBlock_Y, foldTextBlock_pttotlen, List.length_cons,
    hY, hcount, hbuf]
  rfl

/-- The machine after them, the blocks `Bs` asked for and the adapter left as `a`. -/
def State.afterKeystream (s : State) (Bs outs : List Block) (a : Adapter) (X : Block) (buflen : BitVec 5) : State :=
  { s with
    ctx := s.ctx.afterKeystream outs X buflen, adapter := a,
    ciph := s.ciph ++ encryptTransactions s.ctx.sched Bs outs }

/-- If the requests of its boundaries are answered, the chunk runs to its end: the output is the chunk XORed with the
keystream from its place on, and exactly those requests are sent (R185, R187). -/
def CompletesText (dir : Direction) (chunk : List Byte) (s : State) : Prop :=
  ∀ outs a, Adapter.encryptAll s.ctx.sched (boundaryCounters s.ctx chunk.length) s.adapter = some (outs, a) →
    ∃ X buflen, processBytes dir chunk s =
      .done (xorKeystreamFrom (s.ctx.buf :: outs) s.ctx.buflen.toNat chunk)
        (s.afterKeystream (boundaryCounters s.ctx chunk.length) outs a X buflen)

theorem completesText_nil {s : State} (hlen : s.ctx.buflen ≤ 16) (dir : Direction) : CompletesText dir [] s := by
  intro outs a hanswer
  have hcount : boundaries s.ctx.buflen.toNat 0 = 0 := Nat.div_eq_of_lt (by bv_omega)
  have hnone : boundaryCounters s.ctx ([] : List Byte).length = [] := by
    rw [boundaryCounters, List.length_nil, hcount]
    rfl
  rw [hnone] at hanswer ⊢
  cases hanswer
  refine ⟨s.ctx.X, s.ctx.buflen, ?_⟩
  rw [State.afterKeystream, Context.afterKeystream_nil, encryptTransactions, List.zipWith_nil_left, List.append_nil]
  rfl

/-- A byte that fits its block, and then the others. -/
theorem completesText_of_room {dir : Direction} {b : Byte} {chunk : List Byte} {s : State} (hlen : s.ctx.buflen ≤ 16)
    (hroom : s.ctx.buflen ≠ 16) (hrest : CompletesText dir chunk (s.setCtx (absorbTextByte dir s.ctx b))) :
    CompletesText dir (b :: chunk) s := by
  intro outs a hanswer
  have hsucc : (s.ctx.buflen + 1).toNat = s.ctx.buflen.toNat + 1 := by bv_omega
  have hfits : s.ctx.buflen.toNat < 16 := by bv_omega
  rw [List.length_cons, boundaryCounters_succ hlen dir b] at hanswer ⊢
  obtain ⟨X, buflen, hbytes⟩ := hrest outs a hanswer
  refine ⟨X, buflen, ?_⟩
  rw [processBytes, processByte, crossBoundary_of_room hroom, Result.done_andThen, Result.done_andThen, hbytes,
    xorKeystreamFrom_cons, keystreamByte_of_lt hfits, State.setCtx_ctx, absorbTextByte_buflen, hsucc]
  rfl

/-- The same, from the machine past a boundary. -/
theorem State.afterKeystream_cons (s : State) (keystream : Block) (a a' : Adapter) (Bs outs : List Block) (X : Block)
    (buflen : BitVec 5) :
    (s.pastBoundary keystream a).afterKeystream Bs outs a' X buflen =
      s.afterKeystream (inc32 s.ctx.Y :: Bs) (keystream :: outs) a' X buflen := by
  have hciph : s.ciph ++ [.encrypt s.ctx.sched (inc32 s.ctx.Y) (.ok keystream)] ++
        encryptTransactions s.ctx.sched Bs outs =
      s.ciph ++ encryptTransactions s.ctx.sched (inc32 s.ctx.Y :: Bs) (keystream :: outs) := List.append_assoc ..
  rw [State.afterKeystream, State.afterKeystream, ← Context.afterKeystream_cons, ← hciph]
  rfl

/-- A byte with a boundary before it is the same byte past the boundary. -/
theorem processByte_of_boundary {s t : State} (hcross : crossBoundary s = .done () t) (hroom : t.ctx.buflen ≠ 16)
    (dir : Direction) (b : Byte) : processByte dir b s = processByte dir b t := by
  rw [processByte, processByte, hcross, crossBoundary_of_room hroom]

/-- A boundary crossed, and then the chunk from there. -/
theorem completesText_of_full {dir : Direction} {b : Byte} {chunk : List Byte} {s : State} (hfull : s.ctx.buflen = 16)
    (hrest : ∀ t : State, t.ctx.buflen = 0 → CompletesText dir (b :: chunk) t) :
    CompletesText dir (b :: chunk) s := by
  intro outs a hanswer
  rw [List.length_cons, boundaryCounters_of_full hfull s.ctx.buf] at hanswer
  obtain ⟨out, a1, later, hfirst, hlater, rfl⟩ := Adapter.encryptAll_cons_eq_some.mp hanswer
  obtain ⟨X, buflen, hbytes⟩ := hrest (s.pastBoundary out a1) rfl later a hlater
  refine ⟨X, buflen, ?_⟩
  have hbyte := processByte_of_boundary (crossBoundary_of_answer hfull hfirst) (by decide : (0 : BitVec 5) ≠ 16) dir b
  rw [processBytes, hbyte, ← processBytes, hbytes, State.afterKeystream_cons, List.length_cons,
    boundaryCounters_of_full hfull out, hfull]
  exact congrArg (Result.done · _) (xorKeystreamFrom_cons_block s.ctx.buf (out :: later) 0 (b :: chunk)).symm

/-- PROCESS in phase TEXT, byte by byte. -/
theorem completesText {s : State} (hlen : s.ctx.buflen ≤ 16) (dir : Direction) (chunk : List Byte) :
    CompletesText dir chunk s := by
  induction chunk generalizing s with
  | nil => exact completesText_nil hlen dir
  | cons b chunk ih =>
    have hroom : ∀ t : State, t.ctx.buflen ≤ 16 → t.ctx.buflen ≠ 16 → CompletesText dir (b :: chunk) t := by
      intro t htlen htroom
      refine completesText_of_room htlen htroom (ih ?_)
      rw [State.setCtx_ctx, absorbTextByte_buflen]
      bv_omega
    by_cases hfull : s.ctx.buflen = 16
    · exact completesText_of_full hfull fun t hempty => hroom t (by rw [hempty]; decide) (by rw [hempty]; decide)
    · exact hroom s hlen hfull

/-- Settles O31: the bytes run to their end, and nothing else of PROCESS has an effect in phase TEXT. -/
theorem processTextOutput : Obligations.ProcessTextOutput := by
  intro s dir chunk outs a hlife hmode hlen hanswer
  obtain ⟨X, buflen, hbytes⟩ := completesText hlen dir chunk outs a hanswer
  refine ⟨X, buflen, xorKeystreamFrom (s.ctx.buf :: outs) s.ctx.buflen.toNat chunk, ?_, List.length_mapIdx, ?_⟩
  · rw [exec_eq, commandBody, processBody_of_legal hlife hlen, closePhases_of_text hmode, Result.done_andThen, hbytes,
      concludeCommand_done,
      State.respond_of_live_text (s := s.afterKeystream _ outs a X buflen) hlife hmode, xorKeystreamFrom,
      List.length_mapIdx]
    rfl
  · intro k hk
    simp [xorKeystreamFrom, hk]

end Sys2Proof.Machine
end

section
/-! Equivalences of PROCESS (`44_process.md`): the implicit close of phase AAD (R185, R188) and the direction law
(R189). -/

namespace Sys2Proof.Machine

/-! ### The implicit close of phase AAD (R185, R188) -/

/-- AadClose leaves a state in which PROCESS is legal, in phase TEXT. -/
theorem aadClose_done_rest {s t : State} {u : Unit} (h : aadClose s = .done u t) :
    t.ctx.life = s.ctx.life ∧ t.ctx.mode = .text ∧ t.ctx.buflen = 0 := by
  obtain ⟨keystream, -, ht⟩ := aadClose_done h
  rw [ht]
  simp

/-- PROCESS of no bytes that succeeds in phase AAD is AadClose. -/
theorem aadClose_of_processBody_nil {dir : Direction} {s t : State} {data : List Byte} (hmode : s.ctx.mode = .aad)
    (h : processBody dir [] s = .done data t) : aadClose s = .done () t := by
  obtain ⟨-, -, s1, hclose, hbytes⟩ := processBody_done h
  rw [closePhases_of_aad hmode] at hclose
  cases hbytes
  exact hclose

/-- In phase AAD, AadClose answered, the command runs as from the state that AadClose leaves. -/
theorem processBody_eq_after_aadClose {s t : State} {u : Unit} (hlife : s.ctx.life = .live) (hmode : s.ctx.mode = .aad)
    (hlen : s.ctx.buflen ≤ 16) (h : aadClose s = .done u t) (dir : Direction) (chunk : List Byte) :
    processBody dir chunk s = processBody dir chunk t := by
  obtain ⟨htlife, htmode, htlen⟩ := aadClose_done_rest h
  have htle : t.ctx.buflen ≤ 16 := by rw [htlen]; exact zero_le_buflen _
  rw [processBody_of_legal hlife hlen, processBody_of_legal (htlife.trans hlife) htle, closePhases_of_aad hmode,
    closePhases_of_text htmode, h, Result.done_andThen]

/-- Settles O32: after ENTER_TEXT the command runs the same pseudocode, with one response more already on RSP. -/
theorem implicitAadClose : Obligations.ImplicitAadClose := by
  intro dir dir' chunk s u hlife hmode hperform
  obtain ⟨t, hbody, rfl⟩ := processBody_of_perform hperform
  obtain ⟨-, hlen, -⟩ := processBody_done hbody
  have hsame := processBody_eq_after_aadClose hlife hmode hlen (aadClose_of_processBody_nil hmode hbody) dir chunk
  have hrun : commandBody (.process dir chunk) (t.respond okCode []) =
      (commandBody (.process dir chunk) s).withRsp (t.respond okCode []).rsp :=
    (ignoresRsp_processBody dir chunk t _).trans (congrArg (Result.withRsp · _) hsame.symm)
  obtain ⟨-, -, hrsp, -⟩ := commandBody_sameFrame (.process dir chunk) s
  obtain ⟨answer, hanswer⟩ := concludeCommand_withRsp false s.ctx t.ctx (commandBody (.process dir chunk) s)
    (t.respond okCode []).rsp
  rw [hrsp] at hanswer
  refine ⟨_, _, answer, exec_eq _ s, exec_eq _ _, ?_⟩
  rw [hrun]
  exact hanswer

/-! ### The direction law (R189) -/

/-- The keystream XORed in twice gives the input back. -/
theorem outputByte_outputByte (c : Context) (b : Byte) : outputByte c (outputByte c b) = b := by
  rw [outputByte, outputByte, BitVec.xor_assoc, BitVec.xor_self, BitVec.xor_zero]

/-- A byte that Encrypt maps to its output: Decrypt maps that back, and absorbs the same ciphertext byte. -/
theorem processByte_decrypt {b out : Byte} {s t : State} (h : processByte .encrypt b s = .done out t) :
    processByte .decrypt out s = .done b t := by
  obtain ⟨s1, hcross, rfl, rfl⟩ := processByte_done h
  rw [processByte, hcross, Result.done_andThen, outputByte_outputByte]
  rfl

theorem processBytes_decrypt {plain cipher : List Byte} {s t : State}
    (h : processBytes .encrypt plain s = .done cipher t) : processBytes .decrypt cipher s = .done plain t := by
  induction plain generalizing s cipher with
  | nil =>
    cases h
    rfl
  | cons b plain ih =>
    obtain ⟨out, s1, hfirst, hrest⟩ := Result.andThen_eq_done.mp h
    obtain ⟨outs, s2, hbytes, hend⟩ := Result.andThen_eq_done.mp hrest
    cases hend
    rw [processBytes, processByte_decrypt hfirst, Result.done_andThen, ih hbytes, Result.done_andThen]

theorem processBody_decrypt {plain cipher : List Byte} {s t : State}
    (h : processBody .encrypt plain s = .done cipher t) : processBody .decrypt cipher s = .done plain t := by
  obtain ⟨hlife, hlen, s1, hclose, hbytes⟩ := processBody_done h
  rw [processBody_of_legal hlife hlen, hclose, Result.done_andThen, processBytes_decrypt hbytes]

/-- A command that does not read RSP succeeds with other bytes there too, and differs on RSP alone. -/
theorem perform_withRsp {i : Instr} (hi : IgnoresRsp (commandBody i)) {s t : State} {data : List Byte}
    (h : perform i s = some (data, t)) (rsp : List Byte) :
    ∃ rsp', perform i (s.withRsp rsp) = some (data, t.withRsp rsp') := by
  obtain ⟨hwait, u, hbody, rfl⟩ := perform_eq_some.mp h
  have hbody' : commandBody i (s.withRsp rsp) = .done data (u.withRsp rsp) := by
    rw [hi, hbody]
    rfl
  exact ⟨_, perform_eq_some.mpr ⟨hwait, u.withRsp rsp, hbody', rfl⟩⟩

/-- One command in direction Encrypt, and the same on its output in direction Decrypt. -/
theorem perform_decrypt {plain cipher : List Byte} {s t : State}
    (h : perform (.process .encrypt plain) s = some (cipher, t)) :
    ∃ rsp, perform (.process .decrypt cipher) s = some (plain, t.withRsp rsp) := by
  obtain ⟨hwait, u, hbody, rfl⟩ := perform_eq_some.mp h
  exact ⟨_, perform_eq_some.mpr ⟨hwait, u, processBody_decrypt hbody, rfl⟩⟩

theorem performAll_decrypt {plain cipher : List (List Byte)} {s t : State}
    (h : performAll (plain.map (.process .encrypt)) s = some (cipher, t)) (rsp : List Byte) :
    ∃ rsp', performAll (cipher.map (.process .decrypt)) (s.withRsp rsp) = some (plain, t.withRsp rsp') := by
  induction plain generalizing s cipher rsp with
  | nil =>
    cases h
    exact ⟨rsp, rfl⟩
  | cons chunk plain ih =>
    obtain ⟨data, s1, rest, hfirst, hlater, rfl⟩ := performAll_cons_eq_some.mp h
    obtain ⟨rsp1, hback⟩ := perform_decrypt hfirst
    obtain ⟨rsp2, hhere⟩ := perform_withRsp (i := .process .decrypt data) (ignoresRsp_processBody _ _) hback rsp
    obtain ⟨rsp3, hrest⟩ := ih hlater rsp2
    exact ⟨rsp3, performAll_cons_eq_some.mpr ⟨chunk, _, plain, hhere, hrest, rfl⟩⟩

theorem ignoresRsp_finishBody (tagLen : Byte) : IgnoresRsp (finishBody tagLen) := by
  have hmask : IgnoresRsp fun s => enc s.ctx.Y0 (s.setCtx (foldLengths (foldPartialText s.ctx))) := by
    simpa using (ignoresRsp_enc Context.Y0).setCtx fun c => foldLengths (foldPartialText c)
  exact (ignoresRsp_checkState finishLegal).andThen fun _ => hmask.andThen fun mask _ _ => rfl

/-- What stands on RSP does not change the data such a command answers. -/
theorem perform_data_withRsp {i : Instr} (hi : IgnoresRsp (commandBody i)) (s : State) (rsp : List Byte) :
    (perform i (s.withRsp rsp)).map Prod.fst = (perform i s).map Prod.fst := by
  refine Option.ext fun data => ?_
  rw [Option.map_eq_some_iff, Option.map_eq_some_iff]
  constructor
  · rintro ⟨⟨data, t⟩, h, rfl⟩
    obtain ⟨rsp', hback⟩ := perform_withRsp hi h s.rsp
    exact ⟨_, hback, rfl⟩
  · rintro ⟨⟨data, t⟩, h, rfl⟩
    obtain ⟨rsp', hthere⟩ := perform_withRsp hi h rsp
    exact ⟨_, hthere, rfl⟩

/-- Settles O34: byte for byte the second run absorbs the ciphertext of the first, and differs on RSP alone. -/
theorem directionLaw : Obligations.DirectionLaw := by
  intro s t plain cipher h
  obtain ⟨rsp, hback⟩ := performAll_decrypt h s.rsp
  refine ⟨t.withRsp rsp, hback, rfl, rfl, rfl, fun tagLen => ?_⟩
  exact perform_data_withRsp (i := .finish tagLen) (ignoresRsp_finishBody tagLen) t rsp

end Sys2Proof.Machine
end

section
/-! FINISH (`45_finish.md`): its effect when the adapter answers the ENCRYPT of `Y_0`, its error when the adapter
refuses it, and the length of the tag. -/

namespace Sys2Proof.Machine

/-! ### The folds of FINISH (R210, R211) -/

theorem foldPartialText_of_empty {c : Context} (h : c.buflen = 0) : foldPartialText c = c :=
  if_neg (by rw [h]; decide)

theorem foldPartialText_of_some {c : Context} (h : c.buflen ≠ 0) :
    foldPartialText c = { c with X := multH c c.X, pttotlen := c.pttotlen + partialBits c.buflen } :=
  if_pos (by bv_omega)

/-- The two registers that the fold of the last ciphertext bytes writes, also where there are none. -/
theorem foldPartialText_eq (c : Context) :
    foldPartialText c = { c with
      X := if c.buflen = 0 then c.X else multH c c.X, pttotlen := c.pttotlen + 8 * c.buflen.setWidth 64 } := by
  by_cases hempty : c.buflen = 0
  · have hnone : c.pttotlen + 8 * (0 : BitVec 5).setWidth 64 = c.pttotlen := BitVec.add_zero _
    rw [foldPartialText_of_empty hempty, hempty, hnone, if_pos rfl, ← hempty]
  · rw [foldPartialText_of_some hempty, if_neg hempty, partialBits, BitVec.mul_comm]

/-! ### The tag's bytes (R212) -/

theorem length_blockBytes (B : Block) : (blockBytes B).length = 16 := by simp [blockBytes]

theorem length_truncateTag (T : Block) (requested : Byte) :
    (truncateTag T requested).length = min 16 requested.toNat := by
  rw [truncateTag, List.length_take, length_blockBytes, tagBytes]
  omega

/-- The shorter of two tags of one block is cut from the longer. -/
theorem take_truncateTag (T : Block) {short long : Byte} (h : short ≤ long) :
    (truncateTag T long).take (min 16 short.toNat) = truncateTag T short := by
  have hle : short.toNat ≤ long.toNat := h
  have hcut : min (min 16 short.toNat) (tagBytes long) = tagBytes short := by
    unfold tagBytes
    omega
  rw [truncateTag, List.take_take, hcut, truncateTag]

/-! ### FINISH up to the answer of its ENCRYPT (R210) -/

/-- The state in which FINISH asks for the mask: everything folded. -/
def finishAsks (s : State) : State := s.setCtx (foldLengths (foldPartialText s.ctx))

/-- The state in which FINISH ends: the mask arrived, the handle released, `life` FINAL. -/
def finished (mask : Block) (a : Adapter) (s : State) : State :=
  (adapterRelease s.ctx.sched ((finishAsks s).transact (.encrypt s.ctx.sched s.ctx.Y0 (.ok mask)) a)).setLife .final

section Legal

variable {s : State} (hlife : s.ctx.life = .live) (hmode : s.ctx.mode = .text) (hlen : s.ctx.buflen ≤ 16)

include hlife hmode hlen

theorem finishBody_of_legal (tagLen : Byte) :
    finishBody tagLen s = (enc s.ctx.Y0 (finishAsks s)).andThen fun mask s =>
      .done (truncateTag (mask ^^^ s.ctx.X) tagLen) ((adapterRelease s.ctx.sched s).setLife .final) := by
  rw [finishBody, (finishLegal_iff _).mpr ⟨hlife, hmode⟩, checkState_ok hlen, Result.done_andThen]
  rfl

theorem finishBody_of_answer {mask : Block} {a : Adapter}
    (hanswer : s.adapter.encrypt s.ctx.sched s.ctx.Y0 = (.ok mask, a)) (tagLen : Byte) :
    finishBody tagLen s =
      .done (truncateTag (mask ^^^ (foldLengths (foldPartialText s.ctx)).X) tagLen) (finished mask a s) := by
  have hasked : (finishAsks s).adapter.encrypt (finishAsks s).ctx.sched s.ctx.Y0 = (.ok mask, a) := by
    simpa [finishAsks] using hanswer
  rw [finishBody_of_legal hlife hmode hlen, enc_ok (congrArg Prod.fst hasked), State.encrypted_of_answer hasked,
    Result.done_andThen]
  simp [finished, finishAsks]

theorem finishBody_of_notOk {a : Adapter} (hanswer : s.adapter.encrypt s.ctx.sched s.ctx.Y0 = (.notOk, a))
    (tagLen : Byte) :
    finishBody tagLen s =
      .raised .invalidCipher ((finishAsks s).transact (.encrypt s.ctx.sched s.ctx.Y0 .notOk) a) := by
  have hasked : (finishAsks s).adapter.encrypt (finishAsks s).ctx.sched s.ctx.Y0 = (.notOk, a) := by
    simpa [finishAsks] using hanswer
  rw [finishBody_of_legal hlife hmode hlen, enc_notOk (congrArg Prod.fst hasked), State.encrypted_of_answer hasked,
    Result.raised_andThen]
  simp [finishAsks]

end Legal

/-- A length that fits one byte, as the length field of a response (R83). -/
theorem be32_dlenField_of_lt {n : Nat} (h : n < 256) : be32 (dlenField n) = [0, 0, 0, BitVec.ofNat 8 n] := by
  rw [dlenField, if_pos (by omega)]
  simp only [be32, BitVec.ofNat_eq_ofNat, List.cons.injEq, ← BitVec.toNat_inj, BitVec.extractLsb'_toNat,
    BitVec.toNat_ofNat, Nat.reducePow, Nat.shiftRight_eq_div_pow, Nat.zero_mod, and_true]
  omega

theorem State.respond_of_final_text {s : State} (hlife : s.ctx.life = .final) (hmode : s.ctx.mode = .text)
    {data : List Byte} (hdata : data.length < 256) :
    s.respond okCode data = { s with
      rsp := s.rsp ++ [0x0A, 0, 0, 0, BitVec.ofNat 8 data.length] ++ data } := by
  rw [State.respond, response, hlife, hmode, statusByte_ok_final_text, be32_dlenField_of_lt hdata, List.append_assoc]
  rfl

/-- Settles O36: the mask arrives, and the response is written past the RELEASE. -/
theorem finishAnswersTag : Obligations.FinishAnswersTag := by
  intro s tagLen mask a hlife hmode hlen hanswer
  have hshort : ∀ T, (truncateTag T tagLen).length < 256 := fun T => by rw [length_truncateTag]; omega
  rw [exec_eq, commandBody, finishBody_of_answer hlife hmode hlen hanswer, concludeCommand_done,
    State.respond_of_final_text rfl (by simp [finished, finishAsks, hmode]) (hshort _), length_truncateTag,
    finished, finishAsks, foldPartialText_eq]
  simp only [adapterRelease, State.transact, State.setLife, State.setCtx, List.append_assoc, List.singleton_append]
  rfl

theorem State.takeError_of_live {s : State} (h : s.ctx.life = .live) (k : ErrorKind) :
    (s.takeError false k).rsp = s.rsp ++ [k.code ++ 0xC#4, 0, 0, 0, 0] ∧
      (s.takeError false k).ctx.life = .fault := by
  have hlife : (s.takeError false k).ctx.life = .fault := by
    rw [State.takeError_ctx, h]
    rfl
  rw [State.takeError_rsp, response_nil, hlife, statusByte_error_fault]
  exact ⟨rfl, rfl⟩

/-- Settles O37: the refused ENCRYPT raises before the RELEASE. -/
theorem finishCipherFailure : Obligations.FinishCipherFailure := by
  intro s tagLen a hlife hmode hlen hanswer
  refine ⟨_, exec_eq _ s, ?_⟩
  rw [commandBody, finishBody_of_notOk hlife hmode hlen hanswer, concludeCommand_raised]
  obtain ⟨hrsp, hfault⟩ := State.takeError_of_live
    (s := (finishAsks s).transact (.encrypt s.ctx.sched s.ctx.Y0 .notOk) a) (by simp [finishAsks, hlife]) .invalidCipher
  exact ⟨hfault, hrsp, rfl, rfl⟩

/-- Settles O38: both requests cut their tag from the same block. -/
theorem shorterTagIsPrefix : Obligations.ShorterTagIsPrefix := by
  intro s t short long tag hle h
  obtain ⟨hwait, u, hbody, -⟩ := perform_eq_some.mp h
  obtain ⟨hlife, hmode, hlen, mask, a, hanswer, rfl, -⟩ := finishBody_done hbody
  rw [length_truncateTag, take_truncateTag _ hle]
  exact ⟨rfl, _, perform_of_done hwait (finishBody_of_answer hlife hmode hlen hanswer short)⟩

end Sys2Proof.Machine
end

section
/-! PROCESS commands performed one after another, the requests of their boundaries answered (`44_process.md`, R185,
R187): together they do what one chunk does. -/

namespace Sys2Proof.Machine

/-! ### Requests answered in two parts -/

theorem Adapter.encryptAll_append_eq_some {h : Handle} {Bs Cs outs : List Block} {a a' : Adapter} :
    Adapter.encryptAll h (Bs ++ Cs) a = some (outs, a') ↔
      ∃ front a1 back, Adapter.encryptAll h Bs a = some (front, a1) ∧ Adapter.encryptAll h Cs a1 = some (back, a') ∧
        outs = front ++ back := by
  induction Bs generalizing a outs with
  | nil => simp [Adapter.encryptAll]
  | cons B Bs ih =>
    simp only [List.cons_append, Adapter.encryptAll_cons_eq_some, ih]
    constructor
    · rintro ⟨out, a1, rest, hfirst, ⟨front, a2, back, hfront, hback, rfl⟩, rfl⟩
      exact ⟨out :: front, a2, back, ⟨out, a1, front, hfirst, hfront, rfl⟩, hback, rfl⟩
    · rintro ⟨_, a2, back, ⟨out, a1, front, hfirst, hfront, rfl⟩, hback, rfl⟩
      exact ⟨out, a1, front ++ back, hfirst, ⟨front, a2, back, hfront, hback, rfl⟩, rfl⟩

/-- Each request answered has one output. -/
theorem Adapter.length_of_encryptAll {h : Handle} {Bs outs : List Block} {a a' : Adapter}
    (hall : Adapter.encryptAll h Bs a = some (outs, a')) : outs.length = Bs.length := by
  induction Bs generalizing a outs with
  | nil =>
    cases hall
    rfl
  | cons B Bs ih =>
    obtain ⟨out, a1, rest, -, hrest, rfl⟩ := Adapter.encryptAll_cons_eq_some.mp hall
    exact congrArg (· + 1) (ih hrest)

theorem encryptTransactions_append {Bs outs : List Block} (h : outs.length = Bs.length) (sched : Handle)
    (Cs outs' : List Block) :
    encryptTransactions sched (Bs ++ Cs) (outs ++ outs') =
      encryptTransactions sched Bs outs ++ encryptTransactions sched Cs outs' := List.zipWith_append h.symm

/-! ### The fill count over a chunk (R16, R185) -/

/-- From a fill count of `b`, the fill count `b'` after `n` bytes: each boundary crossed takes a block off. -/
def fills (b n b' : Nat) : Prop := b' + 16 * boundaries b n = b + n

theorem fills_zero {b : Nat} (h : b ≤ 16) : fills b 0 b := by
  unfold fills boundaries
  omega

/-- Behind the bytes at most one block is held. -/
theorem fills_le {b n b' : Nat} (h : fills b n b') : b' ≤ 16 := by
  unfold fills boundaries at h
  omega

theorem fills_succ {b b1 n b' : Nat} (hb : b ≤ 16) (hbyte : fills b 1 b1) (hrest : fills b1 n b') :
    fills b (n + 1) b' := by
  unfold fills boundaries at *
  omega

theorem fills_processByte {dir : Direction} {b out : Byte} {s t : State} (hlen : s.ctx.buflen ≤ 16)
    (h : processByte dir b s = .done out t) : fills s.ctx.buflen.toNat 1 t.ctx.buflen.toNat := by
  obtain ⟨s1, hcross, -, rfl⟩ := processByte_done h
  rw [State.setCtx_ctx, absorbTextByte_buflen]
  unfold fills boundaries
  obtain ⟨hroom, rfl⟩ | ⟨hfull, keystream, -, hs1⟩ := crossBoundary_done hcross
  · bv_omega
  · rw [hs1, State.setCtx_ctx, hfull]
    rfl

theorem fills_processBytes {dir : Direction} {chunk outs : List Byte} {s t : State} (hlen : s.ctx.buflen ≤ 16)
    (h : processBytes dir chunk s = .done outs t) : fills s.ctx.buflen.toNat chunk.length t.ctx.buflen.toNat := by
  induction chunk generalizing s outs with
  | nil =>
    cases h
    exact fills_zero hlen
  | cons b chunk ih =>
    obtain ⟨out, s1, hfirst, hrest⟩ := Result.andThen_eq_done.mp h
    obtain ⟨outs1, t1, hbytes, hend⟩ := Result.andThen_eq_done.mp hrest
    cases hend
    have hbyte := fills_processByte hlen hfirst
    exact fills_succ hlen hbyte (ih (fills_le hbyte) hbytes)

/-! ### The boundaries of two chunks -/

theorem boundaries_add {b m n b' : Nat} (h : fills b m b') :
    boundaries b (m + n) = boundaries b m + boundaries b' n := by
  unfold fills boundaries at *
  omega

/-- The counter blocks behind the counter advanced `k` times. -/
theorem ctrBlock_advanced (Y : Block) (k j : Nat) :
    ctrBlock (withCounter Y (counterOf Y + BitVec.ofNat 32 k)) j = ctrBlock Y (k + j) := by
  have hcounter : counterOf Y + BitVec.ofNat 32 k + 1 + BitVec.ofNat 32 j =
      counterOf Y + 1 + BitVec.ofNat 32 (k + j) := by
    rw [BitVec.ofNat_add]
    ac_rfl
  rw [ctrBlock, ctrBlock, counterOf_withCounter, hcounter, withCounter_congr (samePrefix_withCounter Y _)]

theorem boundaryCounters_zero {c : Context} (h : c.buflen ≤ 16) : boundaryCounters c 0 = [] := by
  have hnone : boundaries c.buflen.toNat 0 = 0 := Nat.div_eq_of_lt (by bv_omega)
  rw [boundaryCounters, hnone]
  rfl

/-- The counter blocks of `m + n` bytes: those of the first `m`, and those of the `n` bytes behind them, whatever
blocks have answered the first. -/
theorem boundaryCounters_add (c : Context) (m n : Nat) :
    ∃ later, boundaryCounters c (m + n) = boundaryCounters c m ++ later ∧
      ∀ outs X (buflen : BitVec 5), outs.length = boundaries c.buflen.toNat m →
        fills c.buflen.toNat m buflen.toNat → later = boundaryCounters (c.afterKeystream outs X buflen) n := by
  have hle : boundaries c.buflen.toNat m ≤ boundaries c.buflen.toNat (m + n) := by
    unfold boundaries
    omega
  obtain ⟨between, hbetween⟩ := Nat.exists_eq_add_of_le hle
  refine ⟨(List.range between).map fun j => ctrBlock c.Y (boundaries c.buflen.toNat m + j), ?_, ?_⟩
  · rw [boundaryCounters, hbetween, List.range_add, List.map_append, List.map_map]
    rfl
  · intro outs X buflen hcount hfills
    have hrest : between = boundaries buflen.toNat n :=
      Nat.add_left_cancel (hbetween.symm.trans (boundaries_add hfills))
    rw [hrest, ← hcount]
    exact List.map_congr_left fun j _ => (ctrBlock_advanced c.Y outs.length j).symm

/-! ### The machine after two chunks -/

theorem getLast_cons_append {α : Type} (x : α) (xs ys : List α) :
    ((x :: xs).getLast (by simp) :: ys).getLast (by simp) = (x :: (xs ++ ys)).getLast (by simp) := by
  cases ys with
  | nil => simp
  | cons y ys => simp [List.getLast_cons]

theorem Context.afterKeystream_append (c : Context) (outs outs' : List Block) (X X' : Block)
    (buflen buflen' : BitVec 5) :
    (c.afterKeystream outs X buflen).afterKeystream outs' X' buflen' =
      c.afterKeystream (outs ++ outs') X' buflen' := by
  have hY : ∀ k l : Nat, withCounter (withCounter c.Y (counterOf c.Y + BitVec.ofNat 32 k))
        (counterOf (withCounter c.Y (counterOf c.Y + BitVec.ofNat 32 k)) + BitVec.ofNat 32 l) =
      withCounter c.Y (counterOf c.Y + BitVec.ofNat 32 (k + l)) := fun k l => by
    rw [counterOf_withCounter, BitVec.ofNat_add, BitVec.add_assoc]
    exact withCounter_congr (samePrefix_withCounter c.Y _) _
  have hcount : ∀ k l : Nat, c.pttotlen + 128 * BitVec.ofNat 64 k + 128 * BitVec.ofNat 64 l =
      c.pttotlen + 128 * BitVec.ofNat 64 (k + l) := fun k l => by
    rw [BitVec.ofNat_add, BitVec.mul_add, BitVec.add_assoc]
  simp only [Context.afterKeystream, List.length_append, hY, hcount, getLast_cons_append]

theorem State.afterKeystream_append (s : State) {Bs outs : List Block} (h : outs.length = Bs.length)
    (Cs outs' : List Block) (a a' : Adapter) (X X' : Block) (buflen buflen' : BitVec 5) :
    (s.afterKeystream Bs outs a X buflen).afterKeystream Cs outs' a' X' buflen' =
      s.afterKeystream (Bs ++ Cs) (outs ++ outs') a' X' buflen' := by
  simp only [State.afterKeystream, Context.afterKeystream_append, encryptTransactions_append h, List.append_assoc]
  rfl

/-! ### The output of two chunks (R187) -/

theorem xorKeystreamFrom_append (keystream : List Block) (p : Nat) (chunk rest : List Byte) :
    xorKeystreamFrom keystream p (chunk ++ rest) =
      xorKeystreamFrom keystream p chunk ++ xorKeystreamFrom keystream (p + chunk.length) rest := by
  simp [xorKeystreamFrom, List.mapIdx_append, Nat.add_assoc, Nat.add_comm chunk.length]

/-- The blocks behind the last byte are not read. -/
theorem xorKeystreamFrom_append_left {keystream : List Block} {p : Nat} {chunk : List Byte}
    (h : boundaries p chunk.length < keystream.length) (later : List Block) :
    xorKeystreamFrom (keystream ++ later) p chunk = xorKeystreamFrom keystream p chunk := by
  refine List.mapIdx_eq_mapIdx_iff.mpr fun k hk => ?_
  unfold boundaries at h
  rw [keystreamByte, List.getD_append _ _ _ _ (by omega), keystreamByte]

/-- The blocks before the first byte are not read. -/
theorem xorKeystreamFrom_append_right (front keystream : List Block) (p : Nat) (chunk : List Byte) :
    xorKeystreamFrom (front ++ keystream) (p + 16 * front.length) chunk = xorKeystreamFrom keystream p chunk := by
  induction front generalizing p with
  | nil => rfl
  | cons B front ih =>
    have hplace : p + 16 * (B :: front).length = 16 + (p + 16 * front.length) := by
      rw [List.length_cons]
      omega
    rw [List.cons_append, hplace, xorKeystreamFrom_cons_block, ih]

/-- A chunk reads the keystream to the block that is in `buf` behind it, and the bytes after it read on from there. -/
theorem xorKeystreamFrom_two_chunks {B : Block} {outs : List Block} {b b' : Nat} {chunk : List Byte}
    (hfills : fills b chunk.length b') (hcount : outs.length = boundaries b chunk.length) (outs' : List Block)
    (rest : List Byte) :
    xorKeystreamFrom (B :: (outs ++ outs')) b (chunk ++ rest) =
      xorKeystreamFrom (B :: outs) b chunk ++
        xorKeystreamFrom ((B :: outs).getLast (by simp) :: outs') b' rest := by
  have hcut : B :: (outs ++ outs') = (B :: outs).dropLast ++ ((B :: outs).getLast (by simp) :: outs') := by
    rw [List.append_cons, List.dropLast_append_getLast]
    rfl
  have hplace : b + chunk.length = b' + 16 * (B :: outs).dropLast.length := by
    rw [List.length_dropLast, List.length_cons, Nat.add_sub_cancel, hcount]
    exact hfills.symm
  rw [xorKeystreamFrom_append, ← List.cons_append, xorKeystreamFrom_append_left (by simp [← hcount])]
  rw [List.cons_append, hcut, hplace, xorKeystreamFrom_append_right]

/-! ### PROCESS commands in phase TEXT -/

/-- One PROCESS in phase TEXT whose boundaries' requests are answered. -/
theorem perform_process_of_text {s : State} (hwait : s.waiting = false) (hlife : s.ctx.life = .live)
    (hmode : s.ctx.mode = .text) (hlen : s.ctx.buflen ≤ 16) (dir : Direction) (chunk : List Byte) {outs : List Block}
    {a : Adapter}
    (hanswer : Adapter.encryptAll s.ctx.sched (boundaryCounters s.ctx chunk.length) s.adapter = some (outs, a)) :
    ∃ X buflen rsp, fills s.ctx.buflen.toNat chunk.length buflen.toNat ∧ perform (.process dir chunk) s =
      some (xorKeystreamFrom (s.ctx.buf :: outs) s.ctx.buflen.toNat chunk,
        (s.afterKeystream (boundaryCounters s.ctx chunk.length) outs a X buflen).withRsp rsp) := by
  obtain ⟨X, buflen, hbytes⟩ := completesText hlen dir chunk outs a hanswer
  have hbody : commandBody (.process dir chunk) s = processBytes dir chunk s := by
    rw [commandBody, processBody_of_legal hlife hlen, closePhases_of_text hmode, Result.done_andThen]
  exact ⟨X, buflen, _, fills_processBytes hlen hbytes, perform_of_done hwait (hbody.trans hbytes)⟩

/-- The bytes of a command's chunk, and then those of the commands behind it. -/
theorem map_snd_payloadOf_cons (dir : Direction) (chunk : List Byte) (texts : List (Direction × List Byte)) :
    (payloadOf ((dir, chunk) :: texts)).map Prod.snd = chunk ++ (payloadOf texts).map Prod.snd := by
  simp [payloadOf, Function.comp_def]

/-- Any PROCESS commands in phase TEXT, whatever their directions: the payload is XORed with the keystream from its
place on, and exactly the requests of its boundaries are sent. -/
theorem performAll_process_of_text {s : State} (hwait : s.waiting = false) (hlife : s.ctx.life = .live)
    (hmode : s.ctx.mode = .text) (hlen : s.ctx.buflen ≤ 16) (texts : List (Direction × List Byte)) {outs : List Block}
    {a : Adapter}
    (hanswer : Adapter.encryptAll s.ctx.sched (boundaryCounters s.ctx (payloadOf texts).length) s.adapter =
      some (outs, a)) :
    ∃ datas X buflen rsp, performAll (texts.map fun c => .process c.1 c.2) s =
        some (datas,
          (s.afterKeystream (boundaryCounters s.ctx (payloadOf texts).length) outs a X buflen).withRsp rsp) ∧
      datas.flatten = xorKeystreamFrom (s.ctx.buf :: outs) s.ctx.buflen.toNat ((payloadOf texts).map Prod.snd) := by
  induction texts generalizing s outs with
  | nil =>
    have hnone : boundaryCounters s.ctx (payloadOf []).length = [] := boundaryCounters_zero hlen
    rw [hnone] at hanswer ⊢
    cases hanswer
    refine ⟨[], s.ctx.X, s.ctx.buflen, s.rsp, ?_, rfl⟩
    rw [State.afterKeystream, Context.afterKeystream_nil, encryptTransactions, List.zipWith_nil_left, List.append_nil]
    rfl
  | cons text texts ih =>
    obtain ⟨dir, chunk⟩ := text
    rw [length_payloadOf_cons] at hanswer ⊢
    obtain ⟨later, hsplit, hlater⟩ := boundaryCounters_add s.ctx chunk.length (payloadOf texts).length
    rw [hsplit] at hanswer ⊢
    obtain ⟨front, a1, back, hfront, hback, rfl⟩ := Adapter.encryptAll_append_eq_some.mp hanswer
    obtain ⟨X, buflen, rsp, hfills, hfirst⟩ := perform_process_of_text hwait hlife hmode hlen dir chunk hfront
    have hone := Adapter.length_of_encryptAll hfront
    have hlength : front.length = boundaries s.ctx.buflen.toNat chunk.length := by
      rw [hone, boundaryCounters, List.length_map, List.length_range]
    rw [hlater front X buflen hlength hfills] at hback ⊢
    obtain ⟨datas, X', buflen', rsp', hrest, hout⟩ := ih
      (s := (s.afterKeystream (boundaryCounters s.ctx chunk.length) front a1 X buflen).withRsp rsp)
      hwait hlife hmode (fills_le hfills) hback
    refine ⟨xorKeystreamFrom (s.ctx.buf :: front) s.ctx.buflen.toNat chunk :: datas, X', buflen', rsp', ?_, ?_⟩
    · rw [List.map_cons, performAll_cons hfirst, hrest,
        ← State.afterKeystream_append s hone _ back a1 a X X' buflen buflen']
      rfl
    · rw [List.flatten_cons, hout, map_snd_payloadOf_cons, xorKeystreamFrom_two_chunks hfills hlength]
      rfl

end Sys2Proof.Machine
end

section
/-! A whole session in closed form (`70_reset_and_hazards.md`, R213, R187, R192): the registers at each close as
functions of the bytes absorbed, and the commands of a session chained from INIT to FINISH. -/

namespace Sys2Proof.Machine

/-! ### The accumulator at each close -/

theorem ghashFrom_append (H X : Block) (front back : List Block) :
    ghashFrom H X (front ++ back) = ghashFrom H (ghashFrom H X front) back := List.foldl_append

/-- Once the partial AAD block is folded, `X` is the GHASH of the padded AAD and `totlen` its bit length (R188). -/
theorem AadAbsorbed.foldPartialAad {H : Block} {aad : List Byte} {c : Context} (h : AadAbsorbed H aad c)
    (hmult : ∀ V, multH c V = gfMult V H) :
    (foldPartialAad c).X = ghashFrom H 0 (paddedBlocks aad) ∧ (foldPartialAad c).totlen = bitLength aad := by
  obtain ⟨htotlen, hbuflen, hX⟩ := h
  have hlast := length_lastBytes aad
  by_cases hwhole : aad.length % 16 = 0
  · have hbits : 128 * (aad.length / 16) = 8 * aad.length := by omega
    have hnone : lastBytes aad = [] := List.eq_nil_of_length_eq_zero (hlast.trans hwhole)
    rw [foldPartialAad_of_empty (by bv_omega), paddedBlocks_of_whole hwhole, htotlen, hbits, hX, hnone,
      blockOfBytes_nil]
    exact ⟨BitVec.xor_zero, rfl⟩
  · rw [foldPartialAad_of_some (by bv_omega), paddedBlocks_of_partial hwhole, ghashFrom_append_block, ← hX]
    refine ⟨hmult c.X, ?_⟩
    show c.totlen + partialBits c.buflen = bitLength aad
    rw [htotlen, partialBits, bitLength]
    bv_omega

/-- The padded blocks of a string: those that are folded at rest, and the one that is held (R190). -/
theorem paddedBlocks_of_ne_nil {bytes : List Byte} (h : bytes ≠ []) :
    paddedBlocks bytes =
      (completeBlocks bytes).take (foldedCount bytes) ++ [blockOfBytes (bytes.drop (16 * foldedCount bytes))] := by
  have hpos := List.length_pos_iff.mpr h
  have hcount : (bytes.length + 15) / 16 = foldedCount bytes + 1 := by
    unfold foldedCount
    omega
  have hfolded : min (foldedCount bytes) (bytes.length / 16) = foldedCount bytes := by
    unfold foldedCount
    omega
  rw [paddedBlocks, hcount, List.range_succ, List.map_append, List.map_singleton, completeBlocks, ← List.map_take,
    List.take_range, hfolded]

/-- Once FINISH has folded the last bytes, `X` is the GHASH of the padded ciphertext and `pttotlen` its bit length
(R210). -/
theorem TextHeld.foldPartialText {H XA : Block} {C : List Byte} {c : Context} (h : TextHeld H XA C c)
    (hmult : ∀ V, multH c V = gfMult V H) :
    (foldPartialText c).X = ghashFrom H XA (paddedBlocks C) ∧ (foldPartialText c).pttotlen = bitLength C := by
  by_cases hne : C = []
  · subst hne
    obtain ⟨hbuflen, hcount, hX⟩ := h.of_nil
    rw [foldPartialText_of_empty hbuflen]
    exact ⟨hX, hcount⟩
  · obtain ⟨hbuflen, hcount, hX⟩ := h
    have hpos := List.length_pos_iff.mpr hne
    have hheld : 0 < C.length - 16 * foldedCount C ∧ 16 * foldedCount C < C.length := by
      unfold foldedCount
      omega
    rw [foldPartialText_of_some (by bv_omega), paddedBlocks_of_ne_nil hne, ghashFrom_append_block, ← hX]
    refine ⟨hmult c.X, ?_⟩
    show c.pttotlen + partialBits c.buflen = bitLength C
    rw [hcount, partialBits, bitLength]
    bv_omega

theorem TextHeld.buflen_le {H XA : Block} {C : List Byte} {c : Context} (h : TextHeld H XA C c) : c.buflen ≤ 16 := by
  have hbuflen := h.buflen
  unfold foldedCount at hbuflen
  bv_omega

/-- The registers of phase TEXT in a session under the subkey `H`, the IV `iv`, the AAD `aad` and the ciphertext `C`
absorbed. -/
structure SessionAbsorbed (H : Block) (iv aad C : List Byte) (c : Context) : Prop where
  under : TextUnder H c
  held : TextHeld H (ghashFrom H 0 (paddedBlocks aad)) C c
  totlen : c.totlen = bitLength aad
  Y0 : c.Y0 = initialCounter H iv

section Absorbed

variable {H : Block} {iv aad C : List Byte}

/-- The tag's block is that of R213. -/
theorem SessionAbsorbed.tag {c : Context} (h : SessionAbsorbed H iv aad C c) (mask : Block) :
    mask ^^^ (foldLengths (foldPartialText c)).X = closedTag H mask aad C := by
  have hmult : ∀ V, multH c V = gfMult V H := fun V => h.under.subkey ▸ multH_eq_gfMult h.under.multiplies V
  obtain ⟨hX, hcount⟩ := h.held.foldPartialText hmult
  have hlast : multH (foldPartialText c) = multH c := by rw [foldPartialText_eq]; rfl
  rw [foldLengths_X, hlast, hmult, hX, hcount, foldPartialText_totlen, h.totlen, closedTag, ghashFrom_append_block,
    ghashFrom_append]

/-- FINISH of a session whose `Y_0` is answered. -/
theorem SessionAbsorbed.perform_finish {s : State} (h : SessionAbsorbed H iv aad C s.ctx) (hwait : s.waiting = false)
    {mask : Block} {a : Adapter} (hanswer : s.adapter.encrypt s.ctx.sched (initialCounter H iv) = (.ok mask, a))
    (tagLen : Byte) :
    ∃ t, perform (.finish tagLen) s = some (truncateTag (closedTag H mask aad C) tagLen, t) ∧
      t.ciph = s.ciph ++ [.encrypt s.ctx.sched (initialCounter H iv) (.ok mask), .release s.ctx.sched] ∧
      t.adapter = a.release s.ctx.sched ∧ t.ctx.life = .final := by
  have hmask : s.adapter.encrypt s.ctx.sched s.ctx.Y0 = (.ok mask, a) := by rw [h.Y0, hanswer]
  have hbody := finishBody_of_answer h.under.life h.under.mode h.held.buflen_le hmask tagLen
  rw [h.tag] at hbody
  refine ⟨_, perform_of_done (i := .finish tagLen) hwait hbody, ?_, rfl, rfl⟩
  rw [← h.Y0]
  exact List.append_assoc ..

end Absorbed

/-! ### IV and AAD (R151, R170) -/

/-- The context in which phase AAD ends, wherever its commands stand: the IV absorbed, phase IV closed, the AAD
absorbed. -/
def headerContext (c : Context) (iv aad : List Byte) : Context := absorbAad (ivClose (absorbIv c iv)) aad

/-- The registers there, from the start of a session under the subkey `H`. -/
structure HeaderAbsorbed (H : Block) (iv aad : List Byte) (c : Context) : Prop where
  Y : c.Y = initialCounter H iv
  Y0 : c.Y0 = initialCounter H iv
  aad : AadAbsorbed H aad c
  pttotlen : c.pttotlen = 0
  subkey : c.H = H
  multiplies : c.multipliesByH
  mode : c.mode = .aad

theorem headerAbsorbed_of_zeroSession {c : Context} (hstart : zeroSession c = c) (hmult : c.multipliesByH)
    (iv aad : List Byte) : HeaderAbsorbed c.H iv aad (headerContext c iv aad) := by
  have hclosed := ivClosed_of_zeroSession hstart hmult iv
  have hclosedMult := blind_ivClose.multipliesByH ((blind_absorbIv iv).multipliesByH hmult)
  have hcounter := (absorbAad_Y (ivClose (absorbIv c iv)) aad).trans hclosed.Y
  have hphase := ivPhase_absorbIv (ivPhase_of_zeroSession hstart) iv
  constructor
  case Y => exact hcounter
  case Y0 => rw [headerContext, absorbAad_Y0, hclosed.Y0, hclosed.Y]
  case aad =>
    have habsorbed := aadAbsorbed_absorbAad (aadAbsorbed_ivClose hphase _) hclosedMult aad
    rwa [ivClose_H, absorbIv_H] at habsorbed
  case pttotlen =>
    rw [headerContext, absorbAad_pttotlen, ivClose_pttotlen, absorbIv_pttotlen, ← hstart, zeroSession_pttotlen]
  case subkey => rw [headerContext, absorbAad_H, ivClose_H, absorbIv_H]
  case multiplies => exact (blind_absorbAad aad).multipliesByH hclosedMult
  case mode => rw [headerContext, absorbAad_mode, ivClose_mode]

/-- Commands whose responses carry no data. -/
theorem flatten_of_performAll {is : List Instr} {s t : State} {datas : List (List Byte)}
    (hsilent : ∀ i ∈ is, ∀ s t data, commandBody i s = .done data t → data = [])
    (h : performAll is s = some (datas, t)) : datas.flatten = [] := by
  induction is generalizing s datas with
  | nil =>
    cases h
    rfl
  | cons i is ih =>
    obtain ⟨data, s1, rest, hfirst, hrest, rfl⟩ := performAll_cons_eq_some.mp h
    obtain ⟨-, u, hbody, -⟩ := perform_eq_some.mp hfirst
    have hnone := hsilent i List.mem_cons_self s u data hbody
    rw [List.flatten_cons, hnone, ih (fun j hj => hsilent j (List.mem_cons_of_mem i hj)) hrest, List.nil_append]

theorem flatten_of_performAll_addIv {chunks : List (List Byte)} {s t : State} {datas : List (List Byte)}
    (h : performAll (chunks.map .addIv) s = some (datas, t)) : datas.flatten = [] := by
  refine flatten_of_performAll (fun i hi s t data hbody => ?_) h
  obtain ⟨chunk, -, rfl⟩ := List.mem_map.mp hi
  obtain ⟨-, -, -, hdata, -⟩ := addIvBody_done hbody
  exact hdata

theorem flatten_of_performAll_addAad {chunks : List (List Byte)} {s t : State} {datas : List (List Byte)}
    (h : performAll (chunks.map .addAad) s = some (datas, t)) : datas.flatten = [] := by
  refine flatten_of_performAll (fun i hi s t data hbody => ?_) h
  obtain ⟨chunk, -, rfl⟩ := List.mem_map.mp hi
  obtain ⟨-, -, -, hdata, -⟩ := addAadBody_done hbody
  exact hdata

/-- Any ADD_AAD commands in phase IV, none included: the next PROCESS finds or makes the same context of phase AAD. -/
theorem performAll_addAad_of_iv {s : State} (hwait : s.waiting = false) (hlife : s.ctx.life = .live)
    (hmode : s.ctx.mode = .iv) (hlen : s.ctx.buflen ≤ 15) (chunks : List (List Byte)) :
    ∃ datas c rsp, performAll (chunks.map .addAad) s = some (datas, { s with ctx := c, rsp := rsp }) ∧
      c.life = .live ∧ c.buflen ≤ 15 ∧ closeIvPhase c = absorbAad (ivClose s.ctx) chunks.flatten := by
  by_cases hnone : chunks = []
  · subst hnone
    exact ⟨[], s.ctx, s.rsp, rfl, hlife, hlen, closeIvPhase_of_iv hmode⟩
  · obtain ⟨datas, rsp, hperform⟩ := performAll_addAad hwait hlife (by simp [hmode]) hlen hnone
    rw [closeIvPhase_of_iv hmode] at hperform
    refine ⟨datas, _, rsp, hperform, by simp [hlife], buflen_absorbAad_le (zero_le_buflen _) _, ?_⟩
    exact closeIvPhase_of_ne_iv (by simp)

/-- The ADD_IV and ADD_AAD commands of a session, any of them missing. -/
theorem performAll_header {s : State} (hwait : s.waiting = false) (hlife : s.ctx.life = .live)
    (hmode : s.ctx.mode = .iv) (hlen : s.ctx.buflen ≤ 15) (ivs aads : List (List Byte)) :
    ∃ datas c rsp, performAll (ivs.map .addIv ++ aads.map .addAad) s = some (datas, { s with ctx := c, rsp := rsp }) ∧
      datas.flatten = [] ∧ c.life = .live ∧ c.buflen ≤ 15 ∧
      closeIvPhase c = headerContext s.ctx ivs.flatten aads.flatten := by
  obtain ⟨datas, rsp, hiv⟩ := performAll_addIv hwait hlife hmode hlen ivs
  obtain ⟨datas', c, rsp', haad, hclife, hclen, hclosed⟩ := performAll_addAad_of_iv
    (s := { s with ctx := absorbIv s.ctx ivs.flatten, rsp := rsp }) hwait (by simp [hlife]) (by simp [hmode])
    (buflen_absorbIv_le hlen _) aads
  refine ⟨_, c, rsp', performAll_append hiv haad, ?_, hclife, hclen, hclosed⟩
  rw [List.flatten_append, flatten_of_performAll_addIv hiv, flatten_of_performAll_addAad haad, List.append_nil]

/-! ### From phase AAD to phase TEXT (R188) -/

/-- Commands whose pseudocode runs alike, on machines that wait alike, are performed alike. -/
theorem perform_congr {i : Instr} {s s' : State} (hwait : s'.waiting = s.waiting)
    (hbody : commandBody i s' = commandBody i s) : perform i s' = perform i s := by
  refine Option.ext fun ⟨data, t⟩ => ?_
  rw [perform_eq_some, perform_eq_some, hwait, hbody]

/-- PROCESS in phase IV runs as from the context that IvClose leaves; in another phase nothing is closed. -/
theorem processBody_closeIvPhase {s : State} (hlife : s.ctx.life = .live) (hlen : s.ctx.buflen ≤ 15) (dir : Direction)
    (chunk : List Byte) : processBody dir chunk (s.setCtx (closeIvPhase s.ctx)) = processBody dir chunk s := by
  by_cases hmode : s.ctx.mode = .iv
  · rw [closeIvPhase_of_iv hmode]
    exact (commandBody_eq_after_ivClose (i := .process dir chunk) rfl hlife hmode hlen).symm
  · rw [closeIvPhase_of_ne_iv hmode]
    rfl

/-- The machine that AadClose leaves when its request is answered. -/
def State.pastAadClose (s : State) (keystream : Block) (a : Adapter) : State :=
  (s.transact (.encrypt s.ctx.sched (inc32 s.ctx.Y) (.ok keystream)) a).setCtx
    { advanceCounter (foldPartialAad s.ctx) with buf := keystream, buflen := 0, mode := .text }

/-- The machine past both closes, phase IV's where it is open and then phase AAD's. -/
def State.pastCloses (s : State) (keystream : Block) (a : Adapter) : State :=
  (s.setCtx (closeIvPhase s.ctx)).pastAadClose keystream a

theorem State.pastCloses_sched (s : State) (keystream : Block) (a : Adapter) :
    (s.pastCloses keystream a).ctx.sched = s.ctx.sched := (foldPartialAad_sched _).trans (closeIvPhase_sched _)

theorem State.pastCloses_ciph (s : State) (keystream : Block) (a : Adapter) :
    (s.pastCloses keystream a).ciph =
      s.ciph ++ [.encrypt s.ctx.sched (inc32 (closeIvPhase s.ctx).Y) (.ok keystream)] := by
  rw [← closeIvPhase_sched s.ctx]
  rfl

/-- At least one PROCESS command where phase AAD is open or phase IV is: both closes, and then the same commands in
phase TEXT. -/
theorem performAll_process_eq_past_closes {s : State} (hlife : s.ctx.life = .live) (hlen : s.ctx.buflen ≤ 15)
    (hmode : (closeIvPhase s.ctx).mode = .aad) {keystream : Block} {a : Adapter}
    (hanswer : s.adapter.encrypt s.ctx.sched (inc32 (closeIvPhase s.ctx).Y) = (.ok keystream, a))
    {texts : List (Direction × List Byte)} (hsome : texts ≠ []) :
    performAll (texts.map fun c => .process c.1 c.2) s =
      performAll (texts.map fun c => .process c.1 c.2) (s.pastCloses keystream a) := by
  cases texts with
  | nil => exact absurd rfl hsome
  | cons text texts =>
    obtain ⟨dir, chunk⟩ := text
    rw [← closeIvPhase_sched s.ctx] at hanswer
    have hclose := aadClose_of_answer (s := s.setCtx (closeIvPhase s.ctx)) hanswer
    have hbody := processBody_eq_after_aadClose (s := s.setCtx (closeIvPhase s.ctx)) (by simp [hlife]) hmode
      (BitVec.le_trans (buflen_closeIvPhase_le hlen) (by decide)) hclose dir chunk
    rw [processBody_closeIvPhase hlife hlen] at hbody
    rw [List.map_cons, performAll, performAll]
    exact congrArg (Option.bind · _) (perform_congr (i := .process dir chunk) rfl hbody)

/-- The registers that AadClose leaves: no payload byte has arrived, the AAD is folded and counted. -/
theorem HeaderAbsorbed.pastAadClose {H : Block} {iv aad : List Byte} {s : State} (h : HeaderAbsorbed H iv aad s.ctx)
    (hlife : s.ctx.life = .live) (keystream : Block) (a : Adapter) :
    let c := (s.pastAadClose keystream a).ctx
    SessionAbsorbed H iv aad [] c ∧ c.Y = inc32 (initialCounter H iv) := by
  have hmult : ∀ V, multH s.ctx V = gfMult V H := fun V => h.subkey ▸ multH_eq_gfMult h.multiplies V
  obtain ⟨hX, htotlen⟩ := h.aad.foldPartialAad hmult
  refine ⟨⟨⟨?_, rfl, ?_, ?_⟩, textHeld_nil rfl ?_ hX, htotlen, ?_⟩, ?_⟩
  · exact (foldPartialAad_life s.ctx).trans hlife
  · exact (foldPartialAad_H s.ctx).trans h.subkey
  · exact blind_foldPartialAad.multipliesByH h.multiplies
  · exact (foldPartialAad_pttotlen s.ctx).trans h.pttotlen
  · exact (foldPartialAad_Y0 s.ctx).trans h.Y0
  · exact congrArg inc32 ((foldPartialAad_Y s.ctx).trans h.Y)

/-- The counter blocks of a payload: that of AadClose, and those of the boundaries behind it (R192). -/
theorem counterBlocks_eq (Y0 : Block) (n : Nat) :
    ∃ later, counterBlocks Y0 n = inc32 Y0 :: later ∧
      ∀ c : Context, c.Y = inc32 Y0 → c.buflen = 0 → later = boundaryCounters c n := by
  have hcount : keystreamBlocks n = boundaries 0 n + 1 := by
    unfold keystreamBlocks boundaries
    omega
  refine ⟨(List.range (boundaries 0 n)).map fun j => ctrBlock Y0 (j + 1), ?_, fun c hY hbuflen => ?_⟩
  · rw [counterBlocks, hcount, List.range_succ_eq_map, List.map_cons, List.map_map, ctrBlock_zero]
    rfl
  · rw [boundaryCounters, hY, hbuflen]
    exact List.map_congr_left fun j _ => (ctrBlock_inc32 Y0 j).symm

theorem xorKeystreamFrom_zero (keystream : List Block) (payload : List Byte) :
    xorKeystreamFrom keystream 0 payload = xorKeystream keystream payload := by
  simp [xorKeystreamFrom, xorKeystream]

/-! ### The PROCESS commands of a session (R187, R192) -/

/-- From the context the AAD leaves, the requests of R192 answered: the payload under the keystream, and the ciphertext
absorbed. -/
theorem performAll_process_of_header {H : Block} {iv aad : List Byte} {s : State} (hwait : s.waiting = false)
    (hlife : s.ctx.life = .live) (hlen : s.ctx.buflen ≤ 15)
    (hheader : HeaderAbsorbed H iv aad (closeIvPhase s.ctx)) {texts : List (Direction × List Byte)}
    (hsome : texts ≠ []) {keystream : List Block} {a : Adapter}
    (hanswer : Adapter.encryptAll s.ctx.sched (counterBlocks (initialCounter H iv) (payloadOf texts).length) s.adapter =
      some (keystream, a)) :
    ∃ datas t, performAll (texts.map fun c => .process c.1 c.2) s = some (datas, t) ∧
      datas.flatten = xorKeystream keystream ((payloadOf texts).map Prod.snd) ∧
      SessionAbsorbed H iv aad (cipherBytes (payloadOf texts) datas.flatten) t.ctx ∧
      t.waiting = false ∧ t.ctx.sched = s.ctx.sched ∧ t.adapter = a ∧
      t.ciph = s.ciph ++ encryptTransactions s.ctx.sched
        (counterBlocks (initialCounter H iv) (payloadOf texts).length) keystream := by
  obtain ⟨later, hsplit, hlater⟩ := counterBlocks_eq (initialCounter H iv) (payloadOf texts).length
  rw [hsplit] at hanswer ⊢
  obtain ⟨first, a1, back, hfirst, hback, rfl⟩ := Adapter.encryptAll_cons_eq_some.mp hanswer
  obtain ⟨habsorbed, hY⟩ := hheader.pastAadClose (s := s.setCtx (closeIvPhase s.ctx)) (by simp [hlife]) first a1
  rw [hlater (s.pastCloses first a1).ctx hY rfl] at hback ⊢
  rw [← State.pastCloses_sched s first a1] at hback
  obtain ⟨datas, X, buflen, rsp, hperform, hout⟩ := performAll_process_of_text (s := s.pastCloses first a1) hwait
    habsorbed.under.life habsorbed.under.mode (zero_le_buflen _) texts hback
  obtain ⟨-, hunder, hheld⟩ := textHeld_performAll habsorbed.under habsorbed.held hperform
  rw [← hheader.Y] at hfirst
  refine ⟨datas, _, (performAll_process_eq_past_closes hlife hlen hheader.mode hfirst hsome).trans hperform,
    hout.trans (xorKeystreamFrom_zero _ _), ⟨hunder, hheld, habsorbed.totlen, habsorbed.Y0⟩, hwait,
    s.pastCloses_sched first a1, rfl, ?_⟩
  show (s.pastCloses first a1).ciph ++ encryptTransactions (s.pastCloses first a1).ctx.sched _ _ = _
  rw [State.pastCloses_ciph, State.pastCloses_sched, hheader.Y, List.append_assoc]
  rfl

/-! ### The whole session (R213) -/

/-- A session after its opening command, the requests of R192 answered. -/
theorem performAll_sessionBody {s : State} (hwait : s.waiting = false) (hstart : atSessionStart s.ctx)
    (hmult : s.ctx.multipliesByH) (ivs aads : List (List Byte)) {texts : List (Direction × List Byte)}
    (hsome : texts ≠ []) (tagLen : Byte) {mask : Block} {keystream : List Block} {a a' : Adapter}
    (hkeystream : Adapter.encryptAll s.ctx.sched
      (counterBlocks (initialCounter s.ctx.H ivs.flatten) (payloadOf texts).length) s.adapter = some (keystream, a))
    (hmask : a.encrypt s.ctx.sched (initialCounter s.ctx.H ivs.flatten) = (.ok mask, a')) :
    let out := xorKeystream keystream ((payloadOf texts).map Prod.snd)
    let tag := closedTag s.ctx.H mask aads.flatten (cipherBytes (payloadOf texts) out)
    ∃ datas t, performAll (sessionBody ivs aads texts tagLen) s = some (datas ++ [truncateTag tag tagLen], t) ∧
      datas.flatten = out ∧
      t.ciph = s.ciph ++ encryptTransactions s.ctx.sched
          (counterBlocks (initialCounter s.ctx.H ivs.flatten) (payloadOf texts).length) keystream ++
        [.encrypt s.ctx.sched (initialCounter s.ctx.H ivs.flatten) (.ok mask), .release s.ctx.sched] ∧
      t.adapter = a'.release s.ctx.sched ∧ t.ctx.life = .final := by
  intro out tag
  obtain ⟨hlife, hzero⟩ := hstart
  have hmode : s.ctx.mode = .iv := by rw [← hzero, zeroSession_mode]
  have hlen := (ivPhase_of_zeroSession hzero).buflen
  obtain ⟨datas1, c, rsp, hfront, hsilent, hclife, hclen, hclosed⟩ := performAll_header hwait hlife hmode hlen ivs aads
  have hheader := headerAbsorbed_of_zeroSession hzero hmult ivs.flatten aads.flatten
  have hsched : c.sched = s.ctx.sched := by
    rw [← closeIvPhase_sched, hclosed, headerContext, absorbAad_sched, ivClose_sched, absorbIv_sched]
  rw [← hclosed] at hheader
  rw [← hsched] at hkeystream hmask ⊢
  obtain ⟨datas2, t, htexts, hout, habsorbed, htwait, htsched, rfl, hciph⟩ := performAll_process_of_header
    (s := { s with ctx := c, rsp := rsp }) hwait hclife hclen hheader hsome hkeystream
  obtain ⟨u, hfinish, huciph, hadapter, hfinal⟩ := habsorbed.perform_finish htwait (htsched ▸ hmask) tagLen
  rw [hout] at hfinish
  have hlast : performAll [.finish tagLen] t = some ([truncateTag tag tagLen], u) :=
    performAll_cons_eq_some.mpr ⟨_, u, [], hfinish, rfl, rfl⟩
  rw [htsched] at huciph hadapter
  refine ⟨datas1 ++ datas2, u, performAll_append (performAll_append hfront htexts) hlast, ?_, ?_, hadapter, hfinal⟩
  · rw [List.flatten_append, hsilent, hout, List.nil_append]
  · rw [huciph, hciph]

/-- INIT whose tests pass and whose zero block is answered. -/
theorem perform_init {s : State} (hwait : s.waiting = false) {tbl : Bool} (htable : tbl = true → s.hasTable = true)
    {sched : Handle} {H : Block} {a : Adapter} (hanswer : s.adapter.encrypt sched 0 = (.ok H, a)) :
    ∃ rsp, perform (.init tbl 16 sched) s = some ([], { s with
      ctx := openContext tbl H (initAsks sched s).ctx, adapter := a, ciph := s.ciph ++ [.encrypt sched 0 (.ok H)],
      rsp := rsp }) := by
  have hasked : (initAsks sched s).adapter.encrypt (initAsks sched s).ctx.sched 0 = (.ok H, a) := hanswer
  have hbody : commandBody (.init tbl 16 sched) s =
      .done [] (((initAsks sched s).transact (.encrypt sched 0 (.ok H)) a).setCtx
        (openContext tbl H (initAsks sched s).ctx)) := by
    rw [commandBody, initBody_of_tests htable, enc_ok (congrArg Prod.fst hasked), State.encrypted_of_answer hasked]
    rfl
  exact ⟨_, perform_of_done hwait hbody⟩

/-- INIT leaves the start of a session whose multiplier is that of its H (R100, R130). -/
theorem multipliesByH_openContext (tbl : Bool) (H : Block) (c : Context) : (openContext tbl H c).multipliesByH := by
  intro hsel
  rw [openContext_tblSel] at hsel
  rw [openContext_table, if_pos hsel, openContext_H]

/-- Settles O56: INIT opens the session, and its body follows in closed form. -/
theorem sessionClosedForm : Obligations.SessionClosedForm := by
  intro s tbl sched ivs aads texts tagLen H mask keystream a1 a2 a3 htable hwait hsome hH hkeystream hmask
  obtain ⟨rsp, hinit⟩ := perform_init hwait htable hH
  obtain ⟨datas, t, hbody, hout, hciph, hadapter, hlife⟩ := performAll_sessionBody
    (s := { s with
      ctx := openContext tbl H (initAsks sched s).ctx, adapter := a1, ciph := s.ciph ++ [.encrypt sched 0 (.ok H)],
      rsp := rsp })
    hwait ⟨rfl, rfl⟩ (multipliesByH_openContext tbl H _) ivs aads hsome tagLen hkeystream hmask
  refine ⟨_, t, performAll_cons_eq_some.mpr ⟨_, _, _, hinit, hbody, rfl⟩, ?_, ?_, hciph, hadapter, hlife⟩
  · rw [List.flatten_cons, List.flatten_concat, hout, List.nil_append]
    rfl
  · rw [← List.cons_append, List.getLast?_concat]
    rfl

end Sys2Proof.Machine
end

section
/-! ENCRYPT requests of which one is not answered with a block (`44_process.md`, `60_exceptions.md`, R262, R302): the
command that sends them stops there, with `InvalidCipher` or waiting, and sends nothing after that request. -/

namespace Sys2Proof.Machine

/-! ### Requests of which one gets no block -/

/-- The adapter answers some of the requests `Bs`, and then `reply`, which is no block: the transactions `sent` up to
and with that one, and the adapter `a'` after it. -/
inductive Adapter.StopsAt (h : Handle) (reply : Reply Block) :
    List Block → Adapter → List Transaction → Adapter → Prop
  | here {B : Block} {back : List Block} {a a' : Adapter} (hanswer : a.encrypt h B = (reply, a'))
      (hreply : ∀ out, reply ≠ .ok out) : StopsAt h reply (B :: back) a [.encrypt h B reply] a'
  | later {B out : Block} {back : List Block} {a a1 a' : Adapter} {sent : List Transaction}
      (hanswer : a.encrypt h B = (.ok out, a1)) (hrest : StopsAt h reply back a1 sent a') :
      StopsAt h reply (B :: back) a (.encrypt h B (.ok out) :: sent) a'

/-- Requests are all answered with blocks, or one of them is not. -/
theorem Adapter.answers_or_stops (h : Handle) (Bs : List Block) (a : Adapter) :
    (∃ outs a', Adapter.encryptAll h Bs a = some (outs, a')) ∨
      ∃ reply sent a', Adapter.StopsAt h reply Bs a sent a' := by
  induction Bs generalizing a with
  | nil => exact .inl ⟨[], a, rfl⟩
  | cons B Bs ih =>
    have hstop : (∀ out, (a.encrypt h B).1 ≠ .ok out) → ∃ reply sent a', Adapter.StopsAt h reply (B :: Bs) a sent a' :=
      fun hreply => ⟨_, _, _, .here rfl hreply⟩
    cases hreply : (a.encrypt h B).1 with
    | ok out =>
      have hanswer : a.encrypt h B = (.ok out, (a.encrypt h B).2) := Prod.ext hreply rfl
      obtain ⟨outs, a', hall⟩ | ⟨reply, sent, a', hrest⟩ := ih (a.encrypt h B).2
      · exact .inl ⟨_, a', Adapter.encryptAll_cons_eq_some.mpr ⟨out, _, outs, hanswer, hall, rfl⟩⟩
      · exact .inr ⟨reply, _, a', .later hanswer hrest⟩
    | notOk => exact .inr (hstop fun out hok => by cases hreply.symm.trans hok)
    | silent => exact .inr (hstop fun out hok => by cases hreply.symm.trans hok)

/-- The request that gets no block stands among the first or, those answered, among the others. -/
theorem Adapter.StopsAt.append {h : Handle} {reply : Reply Block} {Bs Cs : List Block} {a a' : Adapter}
    {sent : List Transaction} (hstop : Adapter.StopsAt h reply (Bs ++ Cs) a sent a') :
    Adapter.StopsAt h reply Bs a sent a' ∨ ∃ outs a1 rest, Adapter.encryptAll h Bs a = some (outs, a1) ∧
      Adapter.StopsAt h reply Cs a1 rest a' ∧ sent = encryptTransactions h Bs outs ++ rest := by
  induction Bs generalizing a sent with
  | nil => exact .inr ⟨[], a, sent, rfl, hstop, rfl⟩
  | cons B Bs ih =>
    cases hstop with
    | here hanswer hreply => exact .inl (.here hanswer hreply)
    | later hanswer hrest =>
      obtain hfront | ⟨outs, a1, rest, hall, hback, rfl⟩ := ih hrest
      · exact .inl (.later hanswer hfront)
      · exact .inr ⟨_, a1, rest, Adapter.encryptAll_cons_eq_some.mpr ⟨_, _, outs, hanswer, hall, rfl⟩, hback, rfl⟩

/-- The requests before it answered, and then the one that gets no block. -/
theorem Adapter.StopsAt.of_front {h : Handle} {reply : Reply Block} {front outs : List Block} {B : Block}
    {a a1 a' : Adapter} (hfront : Adapter.encryptAll h front a = some (outs, a1))
    (hanswer : a1.encrypt h B = (reply, a')) (hreply : ∀ out, reply ≠ .ok out) (back : List Block) :
    Adapter.StopsAt h reply (front ++ B :: back) a (encryptTransactions h front outs ++ [.encrypt h B reply]) a' := by
  induction front generalizing a outs with
  | nil =>
    cases hfront
    exact .here hanswer hreply
  | cons C front ih =>
    obtain ⟨out, a2, rest, hfirst, hrest, rfl⟩ := Adapter.encryptAll_cons_eq_some.mp hfront
    exact .later hfirst (ih hrest)

/-- The transactions are ENCRYPTs with that handle. -/
def encryptsOnly (h : Handle) (sent : List Transaction) : Prop := ∀ x, x ∈ sent → ∃ B answer, x = .encrypt h B answer

theorem encryptsOnly_nil (h : Handle) : encryptsOnly h [] := fun _ hx => absurd hx List.not_mem_nil

theorem encryptsOnly.cons {h : Handle} {sent : List Transaction} (hsent : encryptsOnly h sent) (B : Block)
    (answer : Reply Block) : encryptsOnly h (.encrypt h B answer :: sent) := by
  intro x hx
  obtain rfl | hx := List.mem_cons.mp hx
  · exact ⟨B, answer, rfl⟩
  · exact hsent x hx

theorem encryptsOnly.append {h : Handle} {front back : List Transaction} (hfront : encryptsOnly h front)
    (hback : encryptsOnly h back) : encryptsOnly h (front ++ back) := fun x hx =>
  (List.mem_append.mp hx).elim (hfront x) (hback x)

theorem encryptsOnly_encryptTransactions (h : Handle) (ins outs : List Block) :
    encryptsOnly h (encryptTransactions h ins outs) := by
  induction ins generalizing outs with
  | nil => exact encryptsOnly_nil h
  | cons B ins ih =>
    cases outs with
    | nil => exact encryptsOnly_nil h
    | cons out outs => exact (ih outs).cons B (.ok out)

theorem Adapter.StopsAt.encryptsOnly {h : Handle} {reply : Reply Block} {Bs : List Block} {a a' : Adapter}
    {sent : List Transaction} (hstop : Adapter.StopsAt h reply Bs a sent a') : encryptsOnly h sent := by
  induction hstop with
  | here hanswer hreply => exact (encryptsOnly_nil h).cons _ _
  | later hanswer hrest ih => exact ih.cons _ _

/-! ### A pseudocode stopped by such an answer -/

/-- The pseudocode stopped at a request that got `reply`: it raised `InvalidCipher` on not-ok and waits on silence. -/
inductive Result.StoppedBy {α : Type} : Reply Block → State → Result α → Prop
  | notOk (t : State) : StoppedBy .notOk t (.raised .invalidCipher t)
  | silent (t : State) : StoppedBy .silent t (.waiting t)

/-- It stopped so, having sent `sent` on CIPH since the state `s` and left the adapter as `a`. -/
def Result.StopsWith {α : Type} (r : Result α) (reply : Reply Block) (s : State) (sent : List Transaction)
    (a : Adapter) : Prop :=
  ∃ t, r.StoppedBy reply t ∧ t.ciph = s.ciph ++ sent ∧ t.adapter = a

/-- What follows the stop is not run. -/
theorem Result.StopsWith.andThen {α β : Type} {r : Result α} {reply : Reply Block} {s : State}
    {sent : List Transaction} {a : Adapter} (h : r.StopsWith reply s sent a) (k : α → State → Result β) :
    (r.andThen k).StopsWith reply s sent a := by
  obtain ⟨t, hstop, hend⟩ := h
  cases hstop with
  | notOk => exact ⟨t, .notOk t, hend⟩
  | silent => exact ⟨t, .silent t, hend⟩

/-- Requests answered before the part that stops. -/
theorem Result.StopsWith.after {α : Type} {r : Result α} {reply : Reply Block} {s t : State}
    {before sent : List Transaction} {a : Adapter} (h : r.StopsWith reply t sent a)
    (hciph : t.ciph = s.ciph ++ before) : r.StopsWith reply s (before ++ sent) a := by
  obtain ⟨u, hstop, hu, hadapter⟩ := h
  exact ⟨u, hstop, by rw [hu, hciph, List.append_assoc], hadapter⟩

/-- What stopped so did not run to its end. -/
theorem Result.StopsWith.ne_done {α : Type} {r : Result α} {reply : Reply Block} {s : State}
    {sent : List Transaction} {a : Adapter} (h : r.StopsWith reply s sent a) (x : α) (t : State) : r ≠ .done x t := by
  obtain ⟨u, hstop, -⟩ := h
  rintro rfl
  cases hstop

/-- Not-ok raises `InvalidCipher` (R262). -/
theorem Result.StopsWith.raised {α : Type} {r : Result α} {s : State} {sent : List Transaction} {a : Adapter}
    (h : r.StopsWith .notOk s sent a) :
    ∃ t, r = .raised .invalidCipher t ∧ t.ciph = s.ciph ++ sent ∧ t.adapter = a := by
  obtain ⟨t, hstop, hend⟩ := h
  cases hstop
  exact ⟨t, rfl, hend⟩

theorem enc_stopsWith {s : State} {B : Block} {reply : Reply Block} {a : Adapter}
    (hanswer : s.adapter.encrypt s.ctx.sched B = (reply, a)) (hreply : ∀ out, reply ≠ .ok out) :
    (enc B s).StopsWith reply s [.encrypt s.ctx.sched B reply] a := by
  refine ⟨s.encrypted B, ?_, by rw [State.encrypted_ciph, hanswer], by rw [State.encrypted_adapter, hanswer]⟩
  cases reply with
  | ok out => exact absurd rfl (hreply out)
  | notOk =>
    rw [enc_notOk (congrArg Prod.fst hanswer)]
    exact .notOk _
  | silent =>
    rw [enc_silent (congrArg Prod.fst hanswer)]
    exact .silent _

/-! ### PROCESS stopped at a keystream request (R262 cause 2) -/

/-- If one of the requests of its boundaries gets no block, the chunk stops there. -/
def StopsText (dir : Direction) (chunk : List Byte) (s : State) : Prop :=
  ∀ reply sent a, Adapter.StopsAt s.ctx.sched reply (boundaryCounters s.ctx chunk.length) s.adapter sent a →
    (processBytes dir chunk s).StopsWith reply s sent a

/-- A byte that fits its block sends nothing. -/
theorem stopsText_of_room {dir : Direction} {b : Byte} {chunk : List Byte} {s : State} (hlen : s.ctx.buflen ≤ 16)
    (hroom : s.ctx.buflen ≠ 16) (hrest : StopsText dir chunk (s.setCtx (absorbTextByte dir s.ctx b))) :
    StopsText dir (b :: chunk) s := by
  intro reply sent a hstop
  rw [List.length_cons, boundaryCounters_succ hlen dir b] at hstop
  rw [processBytes, processByte, crossBoundary_of_room hroom, Result.done_andThen, Result.done_andThen]
  exact Result.StopsWith.andThen (hrest reply sent a hstop) _

/-- A boundary's request gets no block, or one behind it. -/
theorem stopsText_of_full {dir : Direction} {b : Byte} {chunk : List Byte} {s : State} (hfull : s.ctx.buflen = 16)
    (hrest : ∀ t : State, t.ctx.buflen = 0 → StopsText dir (b :: chunk) t) : StopsText dir (b :: chunk) s := by
  intro reply sent a hstop
  rw [List.length_cons, boundaryCounters_of_full hfull s.ctx.buf] at hstop
  cases hstop with
  | here hanswer hreply =>
    have hfetch := enc_stopsWith (s := s.setCtx (foldTextBlock s.ctx)) hanswer hreply
    have hcross : (crossBoundary s).StopsWith reply s [.encrypt s.ctx.sched (inc32 s.ctx.Y) reply] a := by
      rw [crossBoundary, if_pos hfull]
      exact hfetch.andThen _
    exact (hcross.andThen _).andThen _
  | @later _ out _ _ a1 _ sent hanswer hback =>
    have hcross := crossBoundary_of_answer hfull hanswer
    have hbyte := processByte_of_boundary hcross (by decide : (0 : BitVec 5) ≠ 16) dir b
    have hpast := hrest (s.pastBoundary out a1) rfl reply sent a hback
    rw [processBytes, ← hbyte, ← processBytes] at hpast
    exact hpast.after (before := [_]) rfl

/-- PROCESS in phase TEXT, byte by byte. -/
theorem stopsText {s : State} (hlen : s.ctx.buflen ≤ 16) (dir : Direction) (chunk : List Byte) :
    StopsText dir chunk s := by
  induction chunk generalizing s with
  | nil =>
    intro reply sent a hstop
    rw [List.length_nil, boundaryCounters_zero hlen] at hstop
    cases hstop
  | cons b chunk ih =>
    have hroom : ∀ t : State, t.ctx.buflen ≤ 16 → t.ctx.buflen ≠ 16 → StopsText dir (b :: chunk) t := by
      intro t htlen htroom
      refine stopsText_of_room htlen htroom (ih ?_)
      rw [State.setCtx_ctx, absorbTextByte_buflen]
      bv_omega
    by_cases hfull : s.ctx.buflen = 16
    · exact stopsText_of_full hfull fun t hempty => hroom t (by rw [hempty]; decide) (by rw [hempty]; decide)
    · exact hroom s hlen hfull

theorem aadClose_stopsWith {s : State} {reply : Reply Block} {a : Adapter}
    (hanswer : s.adapter.encrypt s.ctx.sched (inc32 s.ctx.Y) = (reply, a)) (hreply : ∀ out, reply ≠ .ok out) :
    (aadClose s).StopsWith reply s [.encrypt s.ctx.sched (inc32 s.ctx.Y) reply] a := by
  have hfetch := enc_stopsWith (s := s.setCtx (advanceCounter (foldPartialAad s.ctx))) (B := inc32 s.ctx.Y)
    (by simpa using hanswer) hreply
  simp only [State.setCtx_ctx, advanceCounter_sched, foldPartialAad_sched] at hfetch
  rw [aadClose, fetchKeystream]
  simp only [State.setCtx_ctx, advanceCounter_Y, foldPartialAad_Y]
  exact (hfetch.andThen _).andThen _

/-! ### The payload of a session in one chunk (R187, R192) -/

section Payload

variable {H : Block} {iv aad : List Byte} {s : State}

/-- The ciphertext of a payload in one direction (R190). -/
def cipherText (dir : Direction) (payload out : List Byte) : List Byte :=
  match dir with
  | .encrypt => out
  | .decrypt => payload

theorem cipherBytes_of_chunk (dir : Direction) {payload out : List Byte} (h : out.length = payload.length) :
    cipherBytes (payloadOf [(dir, payload)]) out = cipherText dir payload out := by
  induction payload generalizing out with
  | nil =>
    cases List.eq_nil_of_length_eq_zero h
    cases dir <;> rfl
  | cons b payload ih =>
    cases out with
    | nil => cases h
    | cons o out =>
      rw [cipherBytes_cons, ih (Nat.succ.inj h)]
      cases dir <;> rfl

theorem length_xorKeystream (keystream : List Block) (payload : List Byte) :
    (xorKeystream keystream payload).length = payload.length := List.length_mapIdx

variable (hlife : s.ctx.life = .live) (hheader : HeaderAbsorbed H iv aad s.ctx)

include hlife hheader

/-- From the context the AAD leaves, PROCESS is AadClose and then its bytes. -/
theorem processBody_of_header (dir : Direction) (payload : List Byte) :
    processBody dir payload s = (aadClose s).andThen fun _ s => processBytes dir payload s := by
  have hlen := hheader.aad.buflen
  rw [processBody_of_legal hlife (by bv_omega), closePhases_of_aad hheader.mode]

/-- The requests of R192 answered: the payload under the keystream, and its ciphertext absorbed. -/
theorem processBody_of_header_answered (dir : Direction) (payload : List Byte) {keystream : List Block} {a : Adapter}
    (hanswer : Adapter.encryptAll s.ctx.sched (counterBlocks (initialCounter H iv) payload.length) s.adapter =
      some (keystream, a)) :
    ∃ t, processBody dir payload s = .done (xorKeystream keystream payload) t ∧
      SessionAbsorbed H iv aad (cipherText dir payload (xorKeystream keystream payload)) t.ctx ∧
      t.ctx.sched = s.ctx.sched ∧ t.adapter = a ∧
      t.ciph = s.ciph ++
        encryptTransactions s.ctx.sched (counterBlocks (initialCounter H iv) payload.length) keystream := by
  obtain ⟨later, hsplit, hlater⟩ := counterBlocks_eq (initialCounter H iv) payload.length
  rw [hsplit] at hanswer ⊢
  obtain ⟨first, a1, back, hfirst, hback, rfl⟩ := Adapter.encryptAll_cons_eq_some.mp hanswer
  obtain ⟨habsorbed, hY⟩ := hheader.pastAadClose hlife first a1
  have hsched : (s.pastAadClose first a1).ctx.sched = s.ctx.sched := foldPartialAad_sched s.ctx
  rw [hlater (s.pastAadClose first a1).ctx hY rfl] at hback ⊢
  rw [← hsched] at hback
  rw [← hheader.Y] at hfirst
  obtain ⟨X, buflen, hbytes⟩ := completesText (zero_le_buflen _) dir payload back a hback
  have hout : xorKeystreamFrom (first :: back) 0 payload = xorKeystream (first :: back) payload :=
    xorKeystreamFrom_zero _ _
  obtain ⟨hlen, hheld⟩ := textHeld_processBytes habsorbed.held habsorbed.under.multiplies habsorbed.under.subkey hbytes
  have hbody := processBody_of_header hlife hheader dir payload
  rw [aadClose_of_answer hfirst, Result.done_andThen] at hbody
  refine ⟨_, hbody.trans (hbytes.trans (congrArg (Result.done · _) hout)),
    ⟨?_, ?_, habsorbed.totlen, habsorbed.Y0⟩, hsched, rfl, ?_⟩
  · exact ⟨habsorbed.under.life, habsorbed.under.mode, habsorbed.under.subkey, habsorbed.under.multiplies⟩
  · rw [List.nil_append, cipherBytes_of_chunk dir hlen] at hheld
    rw [← hout]
    exact hheld
  · show (s.pastAadClose first a1).ciph ++ encryptTransactions (s.pastAadClose first a1).ctx.sched _ _ = _
    rw [hsched, ← hheader.Y]
    exact List.append_assoc ..

/-- One of them not answered: PROCESS stops there. -/
theorem processBody_of_header_stopped (dir : Direction) (payload : List Byte) {reply : Reply Block}
    {sent : List Transaction} {a : Adapter}
    (hstop : Adapter.StopsAt s.ctx.sched reply (counterBlocks (initialCounter H iv) payload.length) s.adapter sent a) :
    (processBody dir payload s).StopsWith reply s sent a := by
  obtain ⟨later, hsplit, hlater⟩ := counterBlocks_eq (initialCounter H iv) payload.length
  rw [processBody_of_header hlife hheader]
  rw [hsplit, ← hheader.Y] at hstop
  cases hstop with
  | here hanswer hreply => exact (aadClose_stopsWith hanswer hreply).andThen _
  | @later _ first _ _ a1 _ sent hanswer hback =>
    obtain ⟨-, hY⟩ := hheader.pastAadClose hlife first a1
    have hsched : (s.pastAadClose first a1).ctx.sched = s.ctx.sched := foldPartialAad_sched s.ctx
    rw [hlater (s.pastAadClose first a1).ctx hY rfl, ← hsched] at hback
    rw [aadClose_of_answer hanswer, Result.done_andThen]
    exact (stopsText (zero_le_buflen _) dir payload reply sent a hback).after (before := [_]) rfl

end Payload

/-- FINISH stopped at the ENCRYPT of `Y_0` (R210, R262). -/
theorem finishBody_stopsWith {s : State} (hlife : s.ctx.life = .live) (hmode : s.ctx.mode = .text)
    (hlen : s.ctx.buflen ≤ 16) {reply : Reply Block} {a : Adapter}
    (hanswer : s.adapter.encrypt s.ctx.sched s.ctx.Y0 = (reply, a)) (hreply : ∀ out, reply ≠ .ok out)
    (tagLen : Byte) : (finishBody tagLen s).StopsWith reply s [.encrypt s.ctx.sched s.ctx.Y0 reply] a := by
  have hmask := enc_stopsWith (s := finishAsks s) (B := s.ctx.Y0) (by simpa [finishAsks] using hanswer) hreply
  simp only [finishAsks, State.setCtx_ctx, foldLengths_sched, foldPartialText_sched] at hmask
  rw [finishBody_of_legal hlife hmode hlen]
  exact hmask.andThen _

end Sys2Proof.Machine
end

section
/-! ONE_SHOT (`46_one_shot.md`): its steps by the answers they get, its closed form, its errors, and the release law. -/

namespace Sys2Proof.Machine

/-! ### The five steps by the answers they get (R225) -/

/-- The machine after the SETUP of ONE_SHOT: EMPTY, the answer on CIPH. -/
def State.pastSetup (s : State) (key : List Byte) (reply : Reply (Handle × Byte)) (a : Adapter) : State :=
  (s.setLife .empty).transact (.setup key reply) a

/-- The machine past INIT, ADD_IV and ADD_AAD of ONE_SHOT: `H` arrived, and the context is that of its header. -/
def State.pastHeader (s : State) (tbl : Bool) (sched : Handle) (H : Block) (a : Adapter) (iv aad : List Byte) :
    State :=
  (s.transact (.encrypt sched 0 (.ok H)) a).setCtx
    (headerContext (openContext tbl H { s.ctx with sched := sched }) iv aad)

theorem headerContext_life (c : Context) (iv aad : List Byte) : (headerContext c iv aad).life = c.life :=
  (absorbAad_life _ aad).trans (absorbIv_life c iv)

theorem headerContext_sched (c : Context) (iv aad : List Byte) : (headerContext c iv aad).sched = c.sched :=
  (absorbAad_sched _ aad).trans (absorbIv_sched c iv)

/-- ADD_IV and ADD_AAD on the context that INIT opened: neither refuses, neither sends anything. -/
theorem header_of_openContext {α : Type} {s : State} {tbl : Bool} {H : Block} {c : Context}
    (hs : s.ctx = openContext tbl H c) (iv aad : List Byte) (k : State → Result α) :
    ((addIvBody iv s).andThen fun _ s => (addAadBody aad s).andThen fun _ s => k s) =
      k (s.setCtx (headerContext s.ctx iv aad)) := by
  have hlife : s.ctx.life = .live := by rw [hs, openContext_life]
  have hmode : s.ctx.mode = .iv := by rw [hs, openContext_mode]
  have hlen : s.ctx.buflen ≤ 15 := by rw [hs, openContext_buflen]; exact zero_le_buflen 15
  have habsorbed : (absorbIv s.ctx iv).mode = .iv := (absorbIv_mode _ iv).trans hmode
  rw [addIvBody_of_legal hlife hmode (BitVec.le_trans hlen (by decide)), Result.done_andThen,
    addAadBody_of_legal (by simp [hlife]) (by simp [hmode]) (BitVec.le_trans (buflen_absorbIv_le hlen iv) (by decide)),
    Result.done_andThen, State.setCtx_ctx, closeIvPhase_of_iv habsorbed]
  rfl

theorem finished_ciph (mask : Block) (a : Adapter) (s : State) :
    (finished mask a s).ciph =
      s.ciph ++ [.encrypt s.ctx.sched s.ctx.Y0 (.ok mask), .release s.ctx.sched] := List.append_assoc ..

section Steps

variable {s : State} {dir : Direction} {tbl : Bool} {tagLen : Byte} {handle : Handle} {iv aad payload : List Byte}

theorem oneShotSteps_of_ne_16 {blockLen : Byte} (h : blockLen ≠ 16) :
    oneShotSteps dir tbl tagLen blockLen handle iv aad payload s = .raised .invalidCipher (s.setLife .empty) := by
  rw [oneShotSteps, initBody_of_ne_16 h, Result.raised_andThen]

theorem oneShotSteps_of_no_table (h : s.hasTable = false) :
    oneShotSteps dir true tagLen 16 handle iv aad payload s = .raised .allocationFailure (s.setLife .empty) := by
  rw [oneShotSteps, initBody_of_no_table h, Result.raised_andThen]

/-- The registers past the header (R168, R170). -/
theorem headerAbsorbed_pastHeader {H : Block} {a : Adapter} :
    HeaderAbsorbed H iv aad (s.pastHeader tbl handle H a iv aad).ctx :=
  headerAbsorbed_of_zeroSession (c := openContext tbl H { s.ctx with sched := handle }) rfl
    (multipliesByH_openContext tbl H _) iv aad

variable (htable : tbl = true → s.hasTable = true)

include htable

/-- The ENCRYPT of the zero block gets no block. -/
theorem oneShotSteps_of_no_subkey {reply : Reply Block} {a : Adapter}
    (hanswer : s.adapter.encrypt handle 0 = (reply, a)) (hreply : ∀ out, reply ≠ .ok out) :
    (oneShotSteps dir tbl tagLen 16 handle iv aad payload s).StopsWith reply s [.encrypt handle 0 reply] a := by
  have hsubkey := enc_stopsWith (s := initAsks handle s) hanswer hreply
  rw [oneShotSteps, initBody_of_tests htable]
  exact Result.StopsWith.andThen (Result.StopsWith.andThen hsubkey _) _

variable {H : Block} {a : Adapter} (hH : s.adapter.encrypt handle 0 = (.ok H, a))

include hH

/-- `H` arrived: PROCESS and FINISH remain. -/
theorem oneShotSteps_of_subkey :
    oneShotSteps dir tbl tagLen 16 handle iv aad payload s =
      (processBody dir payload (s.pastHeader tbl handle H a iv aad)).andThen fun out s =>
        (finishBody tagLen s).andThen fun tag s => .done (out ++ tag) s := by
  have hasked : (initAsks handle s).adapter.encrypt (initAsks handle s).ctx.sched 0 = (.ok H, a) := hH
  rw [oneShotSteps, initBody_of_tests htable, enc_ok (congrArg Prod.fst hasked), State.encrypted_of_answer hasked,
    Result.done_andThen, Result.done_andThen]
  exact header_of_openContext rfl iv aad _

/-- All requests answered: the payload under the keystream and then the tag, the handle released (R213, R192). -/
theorem oneShotSteps_of_answers {keystream : List Block} {mask : Block} {a' a'' : Adapter}
    (hkeystream : Adapter.encryptAll handle (counterBlocks (initialCounter H iv) payload.length) a =
      some (keystream, a'))
    (hmask : a'.encrypt handle (initialCounter H iv) = (.ok mask, a'')) :
    let out := xorKeystream keystream payload
    ∃ t : State, oneShotSteps dir tbl tagLen 16 handle iv aad payload s =
        .done (out ++ truncateTag (closedTag H mask aad (cipherText dir payload out)) tagLen) t ∧
      t.ciph = s.ciph ++ [.encrypt handle 0 (.ok H)] ++
        encryptTransactions handle (counterBlocks (initialCounter H iv) payload.length) keystream ++
        [.encrypt handle (initialCounter H iv) (.ok mask), .release handle] ∧
      t.adapter = a''.release handle := by
  have hlife : (s.pastHeader tbl handle H a iv aad).ctx.life = .live := headerContext_life _ iv aad
  have hsched : (s.pastHeader tbl handle H a iv aad).ctx.sched = handle := headerContext_sched _ iv aad
  rw [← hsched] at hkeystream
  obtain ⟨t, hprocess, habsorbed, htsched, rfl, hciph⟩ :=
    processBody_of_header_answered hlife headerAbsorbed_pastHeader dir payload hkeystream
  rw [hsched] at htsched hciph
  rw [← htsched, ← habsorbed.Y0] at hmask
  have hfinish := finishBody_of_answer habsorbed.under.life habsorbed.under.mode habsorbed.held.buflen_le hmask tagLen
  rw [habsorbed.tag] at hfinish
  refine ⟨finished mask a'' t, ?_, ?_, congrArg a''.release htsched⟩
  · rw [oneShotSteps_of_subkey htable hH, hprocess, Result.done_andThen, hfinish, Result.done_andThen]
  · rw [finished_ciph, hciph, htsched, habsorbed.Y0]
    rfl

/-- One of the requests behind it gets no block. -/
theorem oneShotSteps_of_stop {reply : Reply Block} {sent : List Transaction} {a' : Adapter}
    (hstop : Adapter.StopsAt handle reply
      (counterBlocks (initialCounter H iv) payload.length ++ [initialCounter H iv]) a sent a') :
    (oneShotSteps dir tbl tagLen 16 handle iv aad payload s).StopsWith reply s (.encrypt handle 0 (.ok H) :: sent)
      a' := by
  have hlife : (s.pastHeader tbl handle H a iv aad).ctx.life = .live := headerContext_life _ iv aad
  have hsched : (s.pastHeader tbl handle H a iv aad).ctx.sched = handle := headerContext_sched _ iv aad
  rw [oneShotSteps_of_subkey htable hH]
  refine Result.StopsWith.after (t := s.pastHeader tbl handle H a iv aad) (before := [_]) ?_ rfl
  obtain hkeystream | ⟨outs, a1, rest, hall, hmask, rfl⟩ := hstop.append
  · rw [← hsched] at hkeystream
    exact (processBody_of_header_stopped hlife headerAbsorbed_pastHeader dir payload hkeystream).andThen _
  · rw [← hsched] at hall
    obtain ⟨t, hprocess, habsorbed, htsched, rfl, hciph⟩ :=
      processBody_of_header_answered hlife headerAbsorbed_pastHeader dir payload hall
    rw [hsched] at htsched hciph
    rw [hprocess, Result.done_andThen]
    cases hmask with
    | here hanswer hreply =>
      rw [← htsched, ← habsorbed.Y0] at hanswer
      have hfinish := finishBody_stopsWith habsorbed.under.life habsorbed.under.mode habsorbed.held.buflen_le hanswer
        hreply tagLen
      rw [htsched, habsorbed.Y0] at hfinish
      exact (hfinish.andThen _).after hciph
    | later hanswer hrest => cases hrest

end Steps

/-! ### SETUP and the way out (R225, R226) -/

section WayOut

variable {s t : State} {dir : Direction} {tbl : Bool} {tagLen : Byte} {key iv aad payload : List Byte}

theorem adapterSetup_of_answer {reply : Reply (Handle × Byte)} {a : Adapter} (h : s.adapter.setup key = (reply, a)) :
    (s.setLife .empty).afterSetup key = s.pastSetup key reply a := by
  rw [State.afterSetup, State.setLife_adapter, h]
  rfl

/-- What the steps send stands on CIPH behind the SETUP. -/
theorem pastSetup_ciph_append (s : State) (key : List Byte) (reply : Reply (Handle × Byte)) (a : Adapter)
    (front back : List Transaction) :
    (s.pastSetup key reply a).ciph ++ front ++ back = s.ciph ++ .setup key reply :: (front ++ back) := by
  simp [State.pastSetup]

theorem oneShotBody_of_setup {made : Handle × Byte} {a : Adapter} (h : s.adapter.setup key = (.ok made, a)) :
    oneShotBody dir tbl tagLen key iv aad payload s = releaseOnError made.1
      (oneShotSteps dir tbl tagLen made.2 made.1 iv aad payload (s.pastSetup key (.ok made) a)) := by
  rw [oneShotBody, adapterSetup_ok (s := s.setLife .empty) (congrArg Prod.fst h), adapterSetup_of_answer h,
    Result.done_andThen]

theorem oneShotBody_of_refused {a : Adapter} (h : s.adapter.setup key = (.notOk, a)) :
    oneShotBody dir tbl tagLen key iv aad payload s = .raised .invalidKey (s.pastSetup key .notOk a) := by
  rw [oneShotBody, adapterSetup_notOk (s := s.setLife .empty) (congrArg Prod.fst h), adapterSetup_of_answer h,
    Result.raised_andThen]

theorem oneShotBody_of_silent {a : Adapter} (h : s.adapter.setup key = (.silent, a)) :
    oneShotBody dir tbl tagLen key iv aad payload s = .waiting (s.pastSetup key .silent a) := by
  rw [oneShotBody, adapterSetup_silent (s := s.setLife .empty) (congrArg Prod.fst h), adapterSetup_of_answer h,
    Result.waiting_andThen]

theorem lifeAfterError_creates (l : Life) : lifeAfterError true l = .empty := by cases l <;> rfl

/-- An error of a command that makes a context of its own: the code, no data, EMPTY (R245). -/
theorem State.takeError_creates (s : State) (k : ErrorKind) :
    (s.takeError true k).rsp = s.rsp ++ [k.code ++ 0x0#4, 0, 0, 0, 0] ∧ (s.takeError true k).ctx.life = .empty := by
  have hlife : (s.takeError true k).ctx.life = .empty := lifeAfterError_creates _
  rw [State.takeError_rsp, response_nil, hlife, statusByte_error_empty]
  exact ⟨rfl, rfl⟩

/-- A ONE_SHOT whose pseudocode raised an error. -/
theorem exec_oneShot_of_raised {k : ErrorKind}
    (h : oneShotBody dir tbl tagLen key iv aad payload s = .raised k t) :
    ∃ u : State, exec (.oneShot dir tbl tagLen key iv aad payload) s = .next u ∧
      u.rsp = s.rsp ++ [k.code ++ 0x0#4, 0, 0, 0, 0] ∧ u.ciph = t.ciph ∧ u.adapter = t.adapter := by
  have hframe := commandBody_sameFrame (.oneShot dir tbl tagLen key iv aad payload) s
  rw [commandBody, h] at hframe
  obtain ⟨-, -, hrsp, -⟩ := hframe
  refine ⟨t.takeError true k, ?_, ?_, rfl, rfl⟩
  · rw [exec_eq, commandBody, h]
    rfl
  · rw [(t.takeError_creates k).1]
    exact congrArg (· ++ _) hrsp

/-- A ONE_SHOT whose steps raised an error: the owed RELEASE is the last transaction. -/
theorem exec_oneShot_of_raised_step {made : Handle × Byte} {a : Adapter} {k : ErrorKind}
    (hsetup : s.adapter.setup key = (.ok made, a))
    (h : oneShotSteps dir tbl tagLen made.2 made.1 iv aad payload (s.pastSetup key (.ok made) a) = .raised k t) :
    ∃ u : State, exec (.oneShot dir tbl tagLen key iv aad payload) s = .next u ∧
      u.rsp = s.rsp ++ [k.code ++ 0x0#4, 0, 0, 0, 0] ∧ u.ciph = t.ciph ++ [.release made.1] ∧
      u.adapter = t.adapter.release made.1 := by
  refine exec_oneShot_of_raised (t := adapterRelease made.1 t) ?_
  rw [oneShotBody_of_setup hsetup, h]
  rfl

/-- A ONE_SHOT that answers ended its pseudocode or raised an error: it did not wait. -/
theorem oneShot_answered (h : exec (.oneShot dir tbl tagLen key iv aad payload) s = .next t) (hrsp : t.rsp ≠ s.rsp) :
    (∃ data u, oneShotBody dir tbl tagLen key iv aad payload s = .done data u ∧ t = u.respond okCode data) ∨
      ∃ k u, oneShotBody dir tbl tagLen key iv aad payload s = .raised k u ∧ t = u.takeError true k := by
  have hframe := commandBody_sameFrame (.oneShot dir tbl tagLen key iv aad payload) s
  have ht := exec_next h
  rw [commandBody] at hframe ht
  cases hbody : oneShotBody dir tbl tagLen key iv aad payload s with
  | done data u => exact .inl ⟨data, u, rfl, by rw [ht, hbody]; rfl⟩
  | raised k u => exact .inr ⟨k, u, rfl, by rw [ht, hbody]; rfl⟩
  | waiting u =>
    rw [hbody] at hframe ht
    obtain ⟨-, -, hkept, -⟩ := hframe
    exact absurd (by rw [ht]; exact hkept) hrsp

/-- A ONE_SHOT that answers leaves no context (R225, R245). -/
theorem oneShot_answered_life (h : exec (.oneShot dir tbl tagLen key iv aad payload) s = .next t)
    (hrsp : t.rsp ≠ s.rsp) : t.ctx.life = .empty := by
  obtain ⟨data, u, hbody, rfl⟩ | ⟨k, u, -, rfl⟩ := oneShot_answered h hrsp
  · obtain ⟨made, s1, s2, -, -, rfl⟩ := oneShotBody_done hbody
    rfl
  · exact (u.takeError_creates k).2

/-- The requests of R192 answered: the data, the traffic and the adapter of the pseudocode that ends (R213). -/
theorem oneShotBody_of_answers {h : Handle} {H mask : Block} {keystream : List Block} {a1 a2 a3 a4 : Adapter}
    (htable : tbl = true → s.hasTable = true) (hsetup : s.adapter.setup key = (.ok (h, 16), a1))
    (hH : a1.encrypt h 0 = (.ok H, a2))
    (hkeystream : Adapter.encryptAll h (counterBlocks (initialCounter H iv) payload.length) a2 = some (keystream, a3))
    (hmask : a3.encrypt h (initialCounter H iv) = (.ok mask, a4)) :
    let out := xorKeystream keystream payload
    ∃ t : State, oneShotBody dir tbl tagLen key iv aad payload s =
        .done (out ++ truncateTag (closedTag H mask aad (cipherText dir payload out)) tagLen) (t.loseContext .empty) ∧
      t.ciph = s.ciph ++ [.setup key (.ok (h, 16)), .encrypt h 0 (.ok H)] ++
        encryptTransactions h (counterBlocks (initialCounter H iv) payload.length) keystream ++
        [.encrypt h (initialCounter H iv) (.ok mask), .release h] ∧
      t.adapter = a4.release h := by
  obtain ⟨t, hsteps, hciph, hadapter⟩ := oneShotSteps_of_answers (s := s.pastSetup key (.ok (h, 16)) a1) (dir := dir)
    (tagLen := tagLen) (aad := aad) htable hH hkeystream hmask
  refine ⟨t, ?_, ?_, hadapter⟩
  · rw [oneShotBody_of_setup hsetup, hsteps]
    rfl
  · rw [hciph]
    simp [State.pastSetup]

end WayOut

/-- Settles O40: SETUP and the steps with every request answered, and then the response from no context. -/
theorem oneShotClosedForm : Obligations.OneShotClosedForm := by
  intro s dir tbl tagLen key iv aad payload h H mask keystream a1 a2 a3 a4 htable hsetup hH hkeystream
    hmask out cipher tag
  obtain ⟨t, hbody, hciph, hadapter⟩ := oneShotBody_of_answers (dir := dir) (tagLen := tagLen) (aad := aad) htable
    hsetup hH hkeystream hmask
  have hframe := commandBody_sameFrame (.oneShot dir tbl tagLen key iv aad payload) s
  rw [commandBody, hbody] at hframe
  obtain ⟨hhas, hcmd, hrsp, hwaiting⟩ := hframe
  have hdata : (out ++ tag).length = payload.length + min 16 tagLen.toNat := by
    rw [List.length_append, length_xorKeystream]
    exact congrArg _ (length_truncateTag _ tagLen)
  refine ⟨(t.loseContext .empty).respond okCode (out ++ tag), ?_, ?_, hciph, hadapter, rfl, hcmd, hhas, hwaiting⟩
  · rw [exec_eq, commandBody, hbody]
    rfl
  · rw [State.respond_rsp, response, hdata, State.loseContext_ctx, statusByte_ok_empty, List.append_assoc]
    exact congrArg (· ++ _) hrsp

/-! ### The release law (R226) -/

/-- The steps sent ENCRYPTs with the handle alone, and, where they ended, RELEASE after them: where they raised an
error the RELEASE is owed. -/
def Result.OwesRelease {α : Type} (r : Result α) (handle : Handle) (s : State) : Prop :=
  match r with
  | .done _ t => ∃ sent, encryptsOnly handle sent ∧ t.ciph = s.ciph ++ sent ++ [.release handle]
  | .raised _ t => ∃ sent, encryptsOnly handle sent ∧ t.ciph = s.ciph ++ sent
  | .waiting _ => True

theorem Result.StopsWith.owesRelease {α : Type} {r : Result α} {reply : Reply Block} {handle : Handle} {s : State}
    {sent : List Transaction} {a : Adapter} (h : r.StopsWith reply s sent a) (hsent : encryptsOnly handle sent) :
    r.OwesRelease handle s := by
  obtain ⟨t, hstop, hciph, -⟩ := h
  cases hstop with
  | notOk => exact ⟨sent, hsent, hciph⟩
  | silent => trivial

theorem Result.OwesRelease.of_raised {α : Type} (k : ErrorKind) {handle : Handle} {s t : State}
    (hciph : t.ciph = s.ciph) : (Result.raised k t : Result α).OwesRelease handle s :=
  ⟨[], encryptsOnly_nil handle, by rw [hciph, List.append_nil]⟩

/-- Whatever the adapter answers: by the tests of INIT, the answer for the zero block, and those behind it. -/
theorem oneShotSteps_owesRelease (dir : Direction) (tbl : Bool) (tagLen blockLen : Byte) (handle : Handle)
    (iv aad payload : List Byte) (s : State) :
    (oneShotSteps dir tbl tagLen blockLen handle iv aad payload s).OwesRelease handle s := by
  by_cases hlen : blockLen = 16
  swap
  · rw [oneShotSteps_of_ne_16 hlen]
    exact .of_raised _ rfl
  subst hlen
  by_cases htable : tbl = true → s.hasTable = true
  swap
  · obtain ⟨rfl, hnone⟩ := Classical.not_imp.mp htable
    rw [oneShotSteps_of_no_table (Bool.not_eq_true _ ▸ hnone)]
    exact .of_raised _ rfl
  obtain ⟨outs, a, hsubkey⟩ | ⟨reply, sent, a, hstop⟩ := Adapter.answers_or_stops handle [0] s.adapter
  swap
  · cases hstop with
    | here hanswer hreply =>
      exact (oneShotSteps_of_no_subkey htable hanswer hreply).owesRelease ((encryptsOnly_nil handle).cons _ _)
    | later hanswer hrest => cases hrest
  obtain ⟨H, a1, _, hH, -, -⟩ := Adapter.encryptAll_cons_eq_some.mp hsubkey
  obtain ⟨outs, a', hall⟩ | ⟨reply, sent, a', hstop⟩ := Adapter.answers_or_stops handle
    (counterBlocks (initialCounter H iv) payload.length ++ [initialCounter H iv]) a1
  · obtain ⟨keystream, a2, last, hkeystream, hlast, -⟩ := Adapter.encryptAll_append_eq_some.mp hall
    obtain ⟨mask, a3, _, hmask, -, -⟩ := Adapter.encryptAll_cons_eq_some.mp hlast
    obtain ⟨t, hsteps, hciph, -⟩ := oneShotSteps_of_answers (dir := dir) (tagLen := tagLen) (aad := aad) htable hH
      hkeystream hmask
    rw [hsteps]
    refine ⟨.encrypt handle 0 (.ok H) ::
      (encryptTransactions handle (counterBlocks (initialCounter H iv) payload.length) keystream ++
        [.encrypt handle (initialCounter H iv) (.ok mask)]), ?_, ?_⟩
    · exact ((encryptsOnly_encryptTransactions handle _ _).append ((encryptsOnly_nil handle).cons _ _)).cons _ _
    · rw [hciph]
      simp
  · exact (oneShotSteps_of_stop htable hH hstop).owesRelease (hstop.encryptsOnly.cons _ _)

/-- Settles O41: with a successful SETUP the steps have sent the RELEASE or owe it to the way out. -/
theorem oneShotReleaseLaw : Obligations.OneShotReleaseLaw := by
  intro s t dir tbl tagLen key iv aad payload hexec hrsp
  have hanswered := oneShot_answered hexec hrsp
  obtain ⟨reply, a, hsetup⟩ : ∃ reply a, s.adapter.setup key = (reply, a) := ⟨_, _, rfl⟩
  cases reply with
  | notOk =>
    rw [oneShotBody_of_refused hsetup] at hanswered
    obtain ⟨data, u, hend, -⟩ | ⟨k, u, hend, rfl⟩ := hanswered
    · cases hend
    · cases hend
      exact .inl rfl
  | silent =>
    rw [oneShotBody_of_silent hsetup] at hanswered
    obtain ⟨data, u, hend, -⟩ | ⟨k, u, hend, -⟩ := hanswered
    · cases hend
    · cases hend
  | ok made =>
    obtain ⟨h, blockLen⟩ := made
    refine .inr ⟨h, blockLen, ?_⟩
    have howes := oneShotSteps_owesRelease dir tbl tagLen blockLen h iv aad payload
      (s.pastSetup key (.ok (h, blockLen)) a)
    rw [oneShotBody_of_setup hsetup] at hanswered
    dsimp only at hanswered
    cases hsteps : oneShotSteps dir tbl tagLen blockLen h iv aad payload (s.pastSetup key (.ok (h, blockLen)) a) with
    | done data u =>
      rw [hsteps] at howes hanswered
      obtain ⟨sent, hsent, hciph⟩ := howes
      obtain ⟨data, v, hend, rfl⟩ | ⟨k, v, hend, -⟩ := hanswered
      · cases hend
        exact ⟨sent, hciph.trans (pastSetup_ciph_append s key _ a sent _), hsent⟩
      · cases hend
    | raised k u =>
      rw [hsteps] at howes hanswered
      obtain ⟨sent, hsent, hciph⟩ := howes
      obtain ⟨data, v, hend, -⟩ | ⟨k, v, hend, rfl⟩ := hanswered
      · cases hend
      · cases hend
        exact ⟨sent, (congrArg (· ++ _) hciph).trans (pastSetup_ciph_append s key _ a sent _), hsent⟩
    | waiting u =>
      rw [hsteps] at hanswered
      obtain ⟨data, v, hend, -⟩ | ⟨k, v, hend, -⟩ := hanswered
      · cases hend
      · cases hend

/-! ### The errors, in the order they can arise (R225, R243, R244) -/

/-- A ONE_SHOT whose steps a not-ok answer stopped: `InvalidCipher`, and the owed RELEASE last. -/
theorem exec_oneShot_of_notOk {s : State} {dir : Direction} {tbl : Bool} {tagLen : Byte}
    {key iv aad payload : List Byte} {made : Handle × Byte} {a a' : Adapter} {sent : List Transaction}
    (hsetup : s.adapter.setup key = (.ok made, a))
    (hstop : (oneShotSteps dir tbl tagLen made.2 made.1 iv aad payload (s.pastSetup key (.ok made) a)).StopsWith .notOk
      (s.pastSetup key (.ok made) a) sent a') :
    ∃ t : State, exec (.oneShot dir tbl tagLen key iv aad payload) s = .next t ∧ t.rsp = s.rsp ++ [0x30, 0, 0, 0, 0] ∧
      t.ciph = s.ciph ++ .setup key (.ok made) :: (sent ++ [.release made.1]) ∧ t.adapter = a'.release made.1 := by
  obtain ⟨u, hsteps, hciph, rfl⟩ := hstop.raised
  obtain ⟨t, hexec, hrsp, htciph, hadapter⟩ := exec_oneShot_of_raised_step hsetup hsteps
  exact ⟨t, hexec, hrsp, by rw [htciph, hciph, pastSetup_ciph_append], hadapter⟩

/-- Settles O43, one error after the other. -/
theorem oneShotErrors : Obligations.OneShotErrors := by
  intro s dir tbl tagLen key iv aad payload i
  have hnotOk : ∀ out, (Reply.notOk : Reply Block) ≠ .ok out := fun _ h => by cases h
  refine ⟨?setup, ?blockLength, ?table, ?subkey, ?request, fun t => oneShot_answered_life⟩
  case setup =>
    intro a hsetup
    obtain ⟨t, hexec, hrsp, hciph, -⟩ := exec_oneShot_of_raised (oneShotBody_of_refused hsetup)
    exact ⟨t, hexec, hrsp, hciph⟩
  case blockLength =>
    intro h blockLen a hsetup hlen
    obtain ⟨t, hexec, hrsp, hciph, -⟩ := exec_oneShot_of_raised_step hsetup (oneShotSteps_of_ne_16 hlen)
    exact ⟨t, hexec, hrsp, hciph.trans (List.append_assoc ..)⟩
  case table =>
    rintro h a hsetup rfl hnone
    obtain ⟨t, hexec, hrsp, hciph, -⟩ := exec_oneShot_of_raised_step hsetup (oneShotSteps_of_no_table hnone)
    exact ⟨t, hexec, hrsp, hciph.trans (List.append_assoc ..)⟩
  case subkey =>
    intro h a a' hsetup htable hanswer
    obtain ⟨t, hexec, hrsp, hciph, -⟩ := exec_oneShot_of_notOk hsetup
      (oneShotSteps_of_no_subkey (s := s.pastSetup key (.ok (h, 16)) a) htable hanswer hnotOk)
    exact ⟨t, hexec, hrsp, hciph⟩
  case request =>
    intro h H B front back keystream a1 a2 a3 a4 hsetup htable hH hsplit hfront hanswer
    have hstop := Adapter.StopsAt.of_front hfront hanswer hnotOk back
    rw [← hsplit] at hstop
    obtain ⟨t, hexec, hrsp, hciph, hadapter⟩ := exec_oneShot_of_notOk hsetup
      (oneShotSteps_of_stop (s := s.pastSetup key (.ok (h, 16)) a1) htable hH hstop)
    refine ⟨t, hexec, hrsp, hadapter, hciph.trans ?_⟩
    simp

end Sys2Proof.Machine
end

section
/-! ONE_SHOT against the streaming commands (`46_one_shot.md`, R227): a session that succeeds got all its requests
answered, and with those answers both are known in closed form. -/

namespace Sys2Proof.Machine

/-! ### A session that succeeded got its answers -/

theorem performAll_append_eq_some {is js : List Instr} {s u : State} {datas : List (List Byte)}
    (h : performAll (is ++ js) s = some (datas, u)) :
    ∃ front t back, performAll is s = some (front, t) ∧ performAll js t = some (back, u) ∧ datas = front ++ back := by
  induction is generalizing s datas with
  | nil => exact ⟨[], s, datas, rfl, h, rfl⟩
  | cons i is ih =>
    obtain ⟨data, s1, rest, hfirst, hrest, rfl⟩ := performAll_cons_eq_some.mp h
    obtain ⟨front, t, back, hfront, hback, rfl⟩ := ih hrest
    exact ⟨data :: front, t, back, performAll_cons_eq_some.mpr ⟨data, s1, front, hfirst, hfront, rfl⟩, hback, rfl⟩

/-- PROCESS commands in phase TEXT that succeed: the requests of their boundaries were answered. -/
theorem answers_of_performAll_process {s u : State} (hlife : s.ctx.life = .live) (hmode : s.ctx.mode = .text)
    (hlen : s.ctx.buflen ≤ 16) {texts : List (Direction × List Byte)} {datas : List (List Byte)}
    (h : performAll (texts.map fun c => .process c.1 c.2) s = some (datas, u)) :
    ∃ outs a, Adapter.encryptAll s.ctx.sched (boundaryCounters s.ctx (payloadOf texts).length) s.adapter =
      some (outs, a) := by
  induction texts generalizing s datas with
  | nil =>
    have hnone : boundaryCounters s.ctx (payloadOf []).length = [] := boundaryCounters_zero hlen
    exact ⟨[], s.adapter, by rw [hnone]; rfl⟩
  | cons text texts ih =>
    obtain ⟨dir, chunk⟩ := text
    obtain ⟨data, s1, rest, hfirst, hrest, rfl⟩ := performAll_cons_eq_some.mp h
    obtain ⟨hwait, t, hbody, -⟩ := perform_eq_some.mp hfirst
    rw [commandBody, processBody_of_legal hlife hlen, closePhases_of_text hmode, Result.done_andThen] at hbody
    obtain ⟨front, a1, hfront⟩ | ⟨reply, sent, a1, hstop⟩ :=
      Adapter.answers_or_stops s.ctx.sched (boundaryCounters s.ctx chunk.length) s.adapter
    swap
    · exact absurd hbody ((stopsText hlen dir chunk reply sent a1 hstop).ne_done _ _)
    obtain ⟨X, buflen, rsp, hfills, hone⟩ := perform_process_of_text hwait hlife hmode hlen dir chunk hfront
    cases hfirst.symm.trans hone
    obtain ⟨back, a, hback⟩ := ih
      (s := (s.afterKeystream (boundaryCounters s.ctx chunk.length) front a1 X buflen).withRsp rsp)
      hlife hmode (fills_le hfills) hrest
    obtain ⟨later, hsplit, hlater⟩ := boundaryCounters_add s.ctx chunk.length (payloadOf texts).length
    have hcount : front.length = boundaries s.ctx.buflen.toNat chunk.length := by
      rw [Adapter.length_of_encryptAll hfront, boundaryCounters, List.length_map, List.length_range]
    rw [length_payloadOf_cons, hsplit, hlater front X buflen hcount hfills]
    exact ⟨_, a, Adapter.encryptAll_append_eq_some.mpr ⟨front, a1, back, hfront, hback, rfl⟩⟩

/-- PROCESS commands behind a header that succeed: the requests of R192 were answered. -/
theorem answers_of_performAll_process_of_header {H : Block} {iv aad : List Byte} {s u : State}
    (hlife : s.ctx.life = .live) (hlen : s.ctx.buflen ≤ 15) (hheader : HeaderAbsorbed H iv aad (closeIvPhase s.ctx))
    {texts : List (Direction × List Byte)} (hsome : texts ≠ []) {datas : List (List Byte)}
    (h : performAll (texts.map fun c => .process c.1 c.2) s = some (datas, u)) :
    ∃ keystream a, Adapter.encryptAll s.ctx.sched
      (counterBlocks (initialCounter H iv) (payloadOf texts).length) s.adapter = some (keystream, a) := by
  obtain ⟨first, a1, hfirst⟩ :
      ∃ first a1, s.adapter.encrypt s.ctx.sched (inc32 (closeIvPhase s.ctx).Y) = (.ok first, a1) := by
    cases texts with
    | nil => exact absurd rfl hsome
    | cons text texts =>
      obtain ⟨data, s1, rest, hperform, -, -⟩ := performAll_cons_eq_some.mp h
      obtain ⟨t, hbody, -⟩ := processBody_of_perform hperform
      obtain ⟨-, -, s2, hclose, -⟩ := processBody_done hbody
      obtain ⟨-, hclose⟩ | ⟨hmode, -⟩ := closeAadPhase_done hclose
      swap
      · exact absurd hheader.mode hmode
      obtain ⟨first, hanswer, -⟩ := aadClose_done hclose
      exact ⟨first, _, closeIvPhase_sched s.ctx ▸ hanswer⟩
  rw [performAll_process_eq_past_closes hlife hlen hheader.mode hfirst hsome] at h
  obtain ⟨habsorbed, hY⟩ := hheader.pastAadClose (s := s.setCtx (closeIvPhase s.ctx)) (by simp [hlife]) first a1
  obtain ⟨outs, a, hback⟩ := answers_of_performAll_process (s := s.pastCloses first a1) habsorbed.under.life
    habsorbed.under.mode (zero_le_buflen _) h
  obtain ⟨later, hsplit, hlater⟩ := counterBlocks_eq (initialCounter H iv) (payloadOf texts).length
  rw [hsplit, hlater (s.pastCloses first a1).ctx hY rfl]
  rw [State.pastCloses_sched] at hback
  rw [hheader.Y] at hfirst
  exact ⟨_, a, Adapter.encryptAll_cons_eq_some.mpr ⟨first, a1, outs, hfirst, hback, rfl⟩⟩

/-- A session behind its opening command that succeeds: the requests of R192 were answered. -/
theorem answers_of_performAll_sessionBody {s u : State} (hwait : s.waiting = false) (hstart : atSessionStart s.ctx)
    (hmult : s.ctx.multipliesByH) {ivs aads : List (List Byte)} {texts : List (Direction × List Byte)}
    (hsome : texts ≠ []) {tagLen : Byte} {datas : List (List Byte)}
    (h : performAll (sessionBody ivs aads texts tagLen) s = some (datas, u)) :
    ∃ keystream a mask a', Adapter.encryptAll s.ctx.sched
        (counterBlocks (initialCounter s.ctx.H ivs.flatten) (payloadOf texts).length) s.adapter = some (keystream, a) ∧
      a.encrypt s.ctx.sched (initialCounter s.ctx.H ivs.flatten) = (.ok mask, a') := by
  obtain ⟨hlife, hzero⟩ := hstart
  have hmode : s.ctx.mode = .iv := by rw [← hzero, zeroSession_mode]
  obtain ⟨front, c, rsp, hfront, -, hclife, hclen, hclosed⟩ :=
    performAll_header hwait hlife hmode (ivPhase_of_zeroSession hzero).buflen ivs aads
  have hheader := headerAbsorbed_of_zeroSession hzero hmult ivs.flatten aads.flatten
  have hsched : c.sched = s.ctx.sched := by
    rw [← closeIvPhase_sched, hclosed, headerContext_sched]
  rw [← hclosed] at hheader
  obtain ⟨datas1, t, datas2, hmost, hfinish, -⟩ := performAll_append_eq_some h
  obtain ⟨front', s1, datas3, hfront', htexts, -⟩ := performAll_append_eq_some hmost
  cases hfront.symm.trans hfront'
  obtain ⟨keystream, a, hkeystream⟩ := answers_of_performAll_process_of_header hclife hclen hheader hsome htexts
  obtain ⟨datas4, t', htexts', -, habsorbed, -, htsched, rfl, -⟩ :=
    performAll_process_of_header (s := { s with ctx := c, rsp := rsp }) hwait hclife hclen hheader hsome hkeystream
  cases htexts.symm.trans htexts'
  obtain ⟨tag, v, _, hperform, -, -⟩ := performAll_cons_eq_some.mp hfinish
  obtain ⟨-, w, hbody, -⟩ := perform_eq_some.mp hperform
  obtain ⟨-, -, -, mask, a', hmask, -, -⟩ := finishBody_done hbody
  rw [habsorbed.Y0, htsched] at hmask
  rw [← hsched]
  exact ⟨keystream, _, mask, a', hkeystream, hmask⟩

/-- A session opened by INIT that succeeds: INIT's tests passed, and all its requests were answered. -/
theorem answers_of_performAll_session {s u : State} {tbl : Bool} {sched : Handle} {ivs aads : List (List Byte)}
    {texts : List (Direction × List Byte)} (hsome : texts ≠ []) {tagLen : Byte} {datas : List (List Byte)}
    (h : performAll (session (.init tbl 16 sched) ivs aads texts tagLen) s = some (datas, u)) :
    s.waiting = false ∧ (tbl = true → s.hasTable = true) ∧
      ∃ H a1 keystream a2 mask a3, s.adapter.encrypt sched 0 = (.ok H, a1) ∧
        Adapter.encryptAll sched (counterBlocks (initialCounter H ivs.flatten) (payloadOf texts).length) a1 =
          some (keystream, a2) ∧
        a2.encrypt sched (initialCounter H ivs.flatten) = (.ok mask, a3) := by
  obtain ⟨data, t, rest, hinit, hbody, -⟩ := performAll_cons_eq_some.mp h
  obtain ⟨hwait, v, hdone, -⟩ := perform_eq_some.mp hinit
  obtain ⟨-, htable, -, H, hH, -⟩ := initBody_done hdone
  obtain ⟨rsp, hopened⟩ := perform_init hwait htable hH
  cases hinit.symm.trans hopened
  obtain ⟨keystream, a2, mask, a3, hkeystream, hmask⟩ := answers_of_performAll_sessionBody
    (s := { s with
      ctx := openContext tbl H (initAsks sched s).ctx, adapter := v.adapter,
      ciph := s.ciph ++ [.encrypt sched 0 (.ok H)], rsp := rsp })
    hwait ⟨rfl, rfl⟩ (multipliesByH_openContext tbl H _) hsome hbody
  exact ⟨hwait, htable, H, v.adapter, keystream, a2, mask, a3, hH, hkeystream, hmask⟩

/-! ### The same payload in pieces -/

/-- Pieces in one direction are the payload of their concatenation. -/
theorem payloadOf_pieces (dir : Direction) (pieces : List (List Byte)) :
    payloadOf (pieces.map fun c => (dir, c)) = payloadOf [(dir, pieces.flatten)] := by
  simp [payloadOf, List.flatMap_def, List.map_flatten, Function.comp_def]

theorem map_snd_payloadOf_chunk (dir : Direction) (payload : List Byte) :
    (payloadOf [(dir, payload)]).map Prod.snd = payload := by
  simp [payloadOf, Function.comp_def]

theorem length_payloadOf_chunk (dir : Direction) (payload : List Byte) :
    (payloadOf [(dir, payload)]).length = payload.length := by
  simp [payloadOf]

/-- Settles O42: the session's answers are those ONE_SHOT gets, and both closed forms have the same data. -/
theorem oneShotEqualsStreaming : Obligations.OneShotEqualsStreaming := by
  rintro s u dir tbl tagLen key _ _ _ h a ivs aads pieces datas hsetup hsome rfl rfl rfl hsession
  have htexts : pieces.map (fun c => (dir, c)) ≠ [] := by simpa using hsome
  obtain ⟨hwait, htable, H, a1, keystream, a2, mask, a3, hH, hkeystream, hmask⟩ :=
    answers_of_performAll_session htexts hsession
  obtain ⟨datas', u', hclosed, hdata, -, hciph, hadapter, hlife⟩ := sessionClosedForm { s with adapter := a } tbl h ivs
    aads _ tagLen H mask keystream a1 a2 a3 htable hwait htexts hH hkeystream hmask
  cases hsession.symm.trans hclosed
  rw [payloadOf_pieces, map_snd_payloadOf_chunk, cipherBytes_of_chunk dir (length_xorKeystream _ _)] at hdata
  rw [payloadOf_pieces, length_payloadOf_chunk] at hkeystream hciph
  obtain ⟨t, hbody, htciph, htadapter⟩ := oneShotBody_of_answers (s := s) (dir := dir) (tagLen := tagLen)
    (aad := aads.flatten) htable hsetup hH hkeystream hmask
  have hperform := perform_of_done (s := s)
    (i := .oneShot dir tbl tagLen key ivs.flatten aads.flatten pieces.flatten) hwait hbody
  refine ⟨_, .encrypt h 0 (.ok H) ::
    (encryptTransactions h (counterBlocks (initialCounter H ivs.flatten) pieces.flatten.length) keystream ++
      [.encrypt h (initialCounter H ivs.flatten) (.ok mask), .release h]),
    hperform.trans (congrArg (fun data => some (data, _)) hdata.symm), ?_, ?_, htadapter.trans hadapter.symm, rfl,
    hlife⟩
  · rw [hciph]
    simp
  · rw [State.respond_ciph, State.loseContext_ciph, htciph]
    simp

end Sys2Proof.Machine
end

section
/-! Errors (`60_exceptions.md`): what a command that raised one leaves, the two tests every data command begins with
(R260, R261), and a keystream request answered not-ok (R262). -/

namespace Sys2Proof.Machine

/-! ### The end of a command that answered -/

theorem ErrorKind.code_ne_ok (k : ErrorKind) : k.code ≠ okCode := by cases k <;> decide

theorem ErrorKind.code_ne_invalidState {k : ErrorKind} (h : k ≠ .invalidState) :
    k.code ≠ ErrorKind.invalidState.code := by
  cases k with
  | invalidState => exact absurd rfl h
  | invalidArgument | invalidCipher | allocationFailure | invalidKey => decide

/-- Behind the same RSP two answers that agree carry the same code and data. -/
theorem answer_unique {rsp rsp' : List Byte} {code code' : BitVec 4} {c c' : Context} {data data' : List Byte}
    (hkept : rsp' = rsp) (h : rsp' ++ response code' c' data' = rsp ++ response code c data) :
    code' = code ∧ data' = data := by
  subst hkept
  have hsame := List.append_cancel_left h
  exact ⟨response_code_inj hsame, response_data_inj hsame⟩

/-- A command that answered ended its pseudocode, with OK and its data, or raised the error whose code it answers. -/
theorem exec_answered {i : Instr} {s t : State} {code : BitVec 4} {data : List Byte} (h : exec i s = .next t)
    (hrsp : t.rsp = s.rsp ++ response code t.ctx data) :
    (code = okCode ∧ ∃ u, commandBody i s = .done data u ∧ t = u.respond okCode data) ∨
      ∃ k u, code = k.code ∧ data = [] ∧ commandBody i s = .raised k u ∧ t = u.takeError (createsContext i) k := by
  obtain ⟨-, -, hkept, -⟩ := commandBody_sameFrame i s
  have ht := exec_next h
  cases hbody : commandBody i s with
  | done data' u =>
    rw [hbody] at hkept ht
    subst ht
    obtain ⟨rfl, rfl⟩ := answer_unique hkept hrsp
    exact .inl ⟨rfl, u, rfl, rfl⟩
  | raised k u =>
    rw [hbody] at hkept ht
    subst ht
    obtain ⟨rfl, rfl⟩ := answer_unique hkept hrsp
    exact .inr ⟨k, u, rfl, rfl, rfl, rfl⟩
  | waiting u =>
    rw [hbody] at hkept ht
    subst ht
    have hnone : s.rsp ++ response code (u.wait s.ctx).ctx data = s.rsp := hrsp.symm.trans hkept
    exact absurd (List.append_right_eq_self.mp hnone) (response_ne_nil _ _ _)

/-- Settles O8: with the cipher the pseudocode ends or raises, and neither end writes the waiting mark. -/
theorem cipherAdapterNeverWaits : Obligations.CipherAdapterNeverWaits := by
  intro i s t hs h
  have hends := endsUnderCipher_commandBody i hs
  obtain ⟨-, -, -, hwaiting⟩ := commandBody_sameFrame i s
  rw [exec_next h]
  cases hbody : commandBody i s with
  | done data u =>
    rw [hbody] at hends hwaiting
    exact ⟨hwaiting, hends⟩
  | raised k u =>
    rw [hbody] at hends hwaiting
    exact ⟨hwaiting, hends⟩
  | waiting u =>
    rw [hbody] at hends
    exact hends.elim

/-! ### The tests a command begins with (R260, R261) -/

theorem addAadLegal_eq (c : Context) : addAadLegal c = (c.life == .live && (c.mode == .iv || c.mode == .aad)) := by
  cases hmode : c.mode <;> simp [addAadLegal, hmode]

/-- A data command begins with the tests of R243 items 3 and 4, on the state R260 gives it. -/
theorem commandBody_of_dataCommand {i : Instr} (hi : isDataCommand i = true) (s : State) :
    ∃ k, commandBody i s = (checkState (stateLegal i s.ctx.life s.ctx.mode) s).andThen k := by
  cases i with
  | init tbl blockLen sched => cases hi
  | addIv chunk => exact ⟨_, rfl⟩
  | addAad chunk => exact ⟨_, by rw [commandBody, addAadBody, addAadLegal_eq]; rfl⟩
  | process dir chunk => exact ⟨_, rfl⟩
  | finish tagLen => exact ⟨_, rfl⟩
  | reset => cases hi
  | oneShot dir tbl tagLen key iv aad payload => cases hi

theorem stateLegal_reset (l : Life) (m : Mode) : stateLegal .reset l m = resetLegal l := by cases l <;> rfl

/-- A command that R260 refuses is a data command or RESET. -/
theorem dataCommand_or_reset_of_illegal {i : Instr} {l : Life} {m : Mode} (h : stateLegal i l m = false) :
    isDataCommand i = true ∨ i = .reset := by
  cases i with
  | init | oneShot => cases h
  | addIv | addAad | process | finish => exact .inl rfl
  | reset => exact .inr rfl

/-- A data command and RESET work on the context they find. -/
theorem createsContext_of_dataCommand_or_reset {i : Instr} (hi : isDataCommand i = true ∨ i = .reset) :
    createsContext i = false := by
  obtain hi | rfl := hi
  · cases i with
    | init | reset | oneShot => cases hi
    | addIv | addAad | process | finish => rfl
  · rfl

/-- In a state that R260 does not mark ok nothing but the test is run. -/
theorem commandBody_of_illegal {i : Instr} {s : State} (h : stateLegal i s.ctx.life s.ctx.mode = false) :
    commandBody i s = .raised .invalidState s := by
  obtain hi | rfl := dataCommand_or_reset_of_illegal h
  · obtain ⟨k, hbody⟩ := commandBody_of_dataCommand hi s
    rw [hbody, h]
    rfl
  · rw [stateLegal_reset] at h
    rw [commandBody, resetBody, h]
    rfl

theorem commandBody_of_buflen_gt {i : Instr} {s : State} (hi : isDataCommand i = true)
    (hlegal : stateLegal i s.ctx.life s.ctx.mode = true) (hlen : 16 < s.ctx.buflen) :
    commandBody i s = .raised .invalidArgument s := by
  obtain ⟨k, hbody⟩ := commandBody_of_dataCommand hi s
  rw [hbody, hlegal, checkState_eq, if_neg (by decide), if_pos hlen]
  rfl

/-- Data commands are legal in LIVE alone (R260). -/
theorem live_of_dataCommand_legal {i : Instr} {l : Life} {m : Mode} (hi : isDataCommand i = true)
    (h : stateLegal i l m = true) : l = .live := by
  cases i with
  | init | reset | oneShot => cases hi
  | addIv | addAad | process | finish =>
    simp only [stateLegal, Bool.and_eq_true, beq_iff_eq] at h
    simp [h]

/-! ### A command on a context that raised an error (R245) -/

/-- A command on a context that raises an error has not written `life`. -/
theorem commandBody_raised_found {i : Instr} (hi : createsContext i = false) {s t : State} {k : ErrorKind}
    (h : commandBody i s = .raised k t) : t.ctx.life = s.ctx.life := by
  cases i with
  | init | oneShot => cases hi
  | addIv | addAad | process | finish => exact commandBody_raised_life rfl h
  | reset =>
    obtain htest | ⟨_, _, -, hend⟩ := Result.andThen_eq_raised.mp h
    · have hstate := Result.refuseIf_state (!resetLegal s.ctx.life) .invalidState s
      rw [htest] at hstate
      exact congrArg (·.ctx.life) hstate
    · cases hend

/-- The error entry of a command that makes no context: the code, FAULT or EMPTY by what it found, and no request
beyond those of its pseudocode. -/
theorem exec_of_raised {i : Instr} (hi : createsContext i = false) {s t : State} {k : ErrorKind}
    (h : commandBody i s = .raised k t) :
    ∃ u : State, exec i s = .next u ∧ u.ciph = t.ciph ∧ u.adapter = t.adapter ∧ u.waiting = s.waiting ∧
      u.ctx.life = (if s.ctx.life = .empty then .empty else .fault) ∧
      u.rsp = s.rsp ++ [k.code ++ (if s.ctx.life = .empty then 0x0#4 else 0xC#4), 0, 0, 0, 0] := by
  obtain ⟨-, -, hrsp, hwaiting⟩ := commandBody_sameFrame i s
  rw [h] at hrsp hwaiting
  have hlife : (t.takeError false k).ctx.life = if s.ctx.life = .empty then .empty else .fault := by
    rw [State.takeError_ctx, commandBody_raised_found hi h, lifeAfterError_false]
  refine ⟨t.takeError false k, ?_, rfl, rfl, hwaiting, hlife, ?_⟩
  · rw [exec_eq, h, hi]
    rfl
  · rw [State.takeError_rsp, response_nil, hlife]
    refine congrArg₂ (· ++ ·) hrsp (congrArg (· :: _) ?_)
    split
    · exact statusByte_error_empty k _
    · exact statusByte_error_fault k _

/-- The same for a data command that found a context in LIVE. -/
theorem exec_of_raised_live {i : Instr} (hi : isDataCommand i = true) {s t : State} (hlive : s.ctx.life = .live)
    {k : ErrorKind} (h : commandBody i s = .raised k t) :
    ∃ u : State, exec i s = .next u ∧ u.ciph = t.ciph ∧ u.adapter = t.adapter ∧ u.ctx.life = .fault ∧
      u.rsp = s.rsp ++ [k.code ++ 0xC#4, 0, 0, 0, 0] := by
  obtain ⟨u, hexec, hciph, hadapter, -, hlife, hrsp⟩ :=
    exec_of_raised (createsContext_of_dataCommand_or_reset (.inl hi)) h
  rw [hlive] at hlife hrsp
  exact ⟨u, hexec, hciph, hadapter, hlife, hrsp⟩

/-- Settles O11: the second test, on the state the command found. -/
theorem buflenAbove16IsInvalidArgument : Obligations.BuflenAbove16IsInvalidArgument := by
  intro i s hi hlegal hlen
  exact exec_of_raised_live hi (live_of_dataCommand_legal hi hlegal) (commandBody_of_buflen_gt hi hlegal hlen)

/-! ### PROCESS whose request is answered not-ok (R262) -/

/-- A chunk's boundary requests, cut before the `k`-th. -/
theorem boundaryCounters_split {c : Context} {n k : Nat} (hk : k < boundaries c.buflen.toNat n) :
    ∃ back, boundaryCounters c n = (List.range k).map (ctrBlock c.Y) ++ ctrBlock c.Y k :: back := by
  obtain ⟨m, hm⟩ := Nat.exists_eq_add_of_lt hk
  refine ⟨(List.range m).map fun j => ctrBlock c.Y (k + (j + 1)), ?_⟩
  rw [boundaryCounters, hm, Nat.add_assoc, List.range_add, List.range_succ_eq_map]
  simp [Function.comp_def]

/-- A data command in LIVE that a not-ok answer stopped. -/
theorem exec_of_stopsWith_notOk {i : Instr} (hi : isDataCommand i = true) {s : State} (hlive : s.ctx.life = .live)
    {sent : List Transaction} {a : Adapter} (h : (commandBody i s).StopsWith .notOk s sent a) :
    ∃ t : State, exec i s = .next t ∧ t.ctx.life = .fault ∧ t.rsp = s.rsp ++ [0x3C, 0, 0, 0, 0] ∧
      t.ciph = s.ciph ++ sent ∧ t.adapter = a := by
  obtain ⟨u, hraised, hsent, rfl⟩ := h.raised
  obtain ⟨t, hexec, hciph, hadapter, hlife, hrsp⟩ := exec_of_raised_live hi hlive hraised
  exact ⟨t, hexec, hlife, hrsp, hciph.trans hsent, hadapter⟩

/-- Settles O33: the chunk stops at the refused request, or AadClose does before the chunk. -/
theorem processCipherFailure : Obligations.ProcessCipherFailure := by
  have hnotOk : ∀ out, (Reply.notOk : Reply Block) ≠ .ok out := fun _ h => by cases h
  refine ⟨fun s dir chunk k outs a a' hlive hmode hlen hk hfront hanswer => ?_,
    fun s dir chunk a hlive hmode hlen hanswer => ?_⟩
  · obtain ⟨back, hsplit⟩ := boundaryCounters_split (c := s.ctx) (n := chunk.length) hk
    have hstop := Adapter.StopsAt.of_front hfront hanswer hnotOk back
    rw [← hsplit] at hstop
    rw [List.append_assoc]
    refine exec_of_stopsWith_notOk rfl hlive ?_
    rw [commandBody, processBody_of_legal hlive hlen, closePhases_of_text hmode, Result.done_andThen]
    exact stopsText hlen dir chunk _ _ _ hstop
  · refine exec_of_stopsWith_notOk rfl hlive ?_
    rw [commandBody, processBody_of_legal hlive hlen, closePhases_of_aad hmode]
    exact (aadClose_stopsWith hanswer hnotOk).andThen _

end Sys2Proof.Machine
end

section
/-! Which errors a legal command can raise and what it has sent before one (`60_exceptions.md`): `InvalidState` exactly
(R260), FAULT (R246) and the error entry (R245). -/

namespace Sys2Proof.Machine

/-! ### What a legal command has done when it raises an error -/

/-- From `s` to `t` no RELEASE was sent. -/
def State.sentNoRelease (s t : State) : Prop := ∃ sent, t.ciph = s.ciph ++ sent ∧ ∀ h, Transaction.release h ∉ sent

theorem State.sentNoRelease_of_ciph_eq {s t : State} (h : t.ciph = s.ciph) : s.sentNoRelease t :=
  ⟨[], by rw [h, List.append_nil], fun _ => List.not_mem_nil⟩

theorem State.sentNoRelease.encrypted {s t : State} (h : s.sentNoRelease t) (B : Block) :
    s.sentNoRelease (t.encrypted B) := by
  obtain ⟨sent, hciph, hnone⟩ := h
  refine ⟨_, by rw [State.encrypted_ciph, hciph, List.append_assoc], fun handle => ?_⟩
  simp [hnone handle]

/-- Since `s` the pseudocode has sent no RELEASE, and if it raised an error, that is `InvalidCipher`: all it asked of
the adapter are ENCRYPTs, and it makes no test. -/
def Result.OnlyAsks {α : Type} (s : State) : Result α → Prop
  | .done _ t => s.sentNoRelease t
  | .raised k t => k = .invalidCipher ∧ s.sentNoRelease t
  | .waiting _ => True

theorem Result.onlyAsks_andThen {α β : Type} {s : State} {r : Result α} {k : α → State → Result β}
    (h1 : r.OnlyAsks s) (h2 : ∀ a t, s.sentNoRelease t → (k a t).OnlyAsks s) : (r.andThen k).OnlyAsks s := by
  cases r with
  | done a t => exact h2 a t h1
  | raised e t => exact h1
  | waiting t => trivial

section OnlyAsks

variable {s u : State} (hu : s.sentNoRelease u)

include hu

theorem onlyAsks_enc (B : Block) : (enc B u).OnlyAsks s := by
  cases hanswer : (u.adapter.encrypt u.ctx.sched B).1 with
  | ok out =>
    rw [enc_ok hanswer]
    exact hu.encrypted B
  | notOk =>
    rw [enc_notOk hanswer]
    exact ⟨rfl, hu.encrypted B⟩
  | silent =>
    rw [enc_silent hanswer]
    trivial

theorem onlyAsks_fetchKeystream : (fetchKeystream u).OnlyAsks s :=
  Result.onlyAsks_andThen (onlyAsks_enc hu _) fun _ _ ht => ht

theorem onlyAsks_closeAadPhase : (closeAadPhase u).OnlyAsks s := by
  unfold closeAadPhase
  split
  · exact Result.onlyAsks_andThen (onlyAsks_fetchKeystream hu) fun _ _ ht => ht
  · exact hu

theorem onlyAsks_processByte (dir : Direction) (b : Byte) : (processByte dir b u).OnlyAsks s := by
  refine Result.onlyAsks_andThen ?_ fun _ _ ht => ht
  unfold crossBoundary
  split
  · exact onlyAsks_fetchKeystream hu
  · exact hu

theorem onlyAsks_processBytes (dir : Direction) (chunk : List Byte) : (processBytes dir chunk u).OnlyAsks s := by
  induction chunk generalizing u with
  | nil => exact hu
  | cons b chunk ih =>
    exact Result.onlyAsks_andThen (onlyAsks_processByte hu dir b) fun _ _ ht =>
      Result.onlyAsks_andThen (ih ht) fun _ _ ht => ht

end OnlyAsks

/-- Every error the pseudocode raises is another than `InvalidState`, and no RELEASE was sent before it. -/
def Result.RaisesBeforeRelease {α : Type} (s : State) (r : Result α) : Prop :=
  ∀ k t, r = .raised k t → k ≠ .invalidState ∧ s.sentNoRelease t

theorem Result.OnlyAsks.raisesBeforeRelease {α : Type} {s : State} {r : Result α} (h : r.OnlyAsks s) :
    r.RaisesBeforeRelease s := by
  rintro k t rfl
  obtain ⟨rfl, hsent⟩ := h
  exact ⟨by decide, hsent⟩

theorem Result.raisesBeforeRelease_done {α : Type} {s : State} {a : α} {t : State} :
    (Result.done a t).RaisesBeforeRelease s := fun _ _ h => by cases h

/-- An ENCRYPT, and after its answer nothing that raises. -/
theorem raisesBeforeRelease_enc {α : Type} {s u : State} (hu : s.sentNoRelease u) (B : Block)
    {k : Block → State → Result α} (hk : ∀ out t, (k out t).RaisesBeforeRelease s) :
    ((enc B u).andThen k).RaisesBeforeRelease s := by
  intro e t h
  obtain henc | ⟨out, v, -, hrest⟩ := Result.andThen_eq_raised.mp h
  · exact (onlyAsks_enc hu B).raisesBeforeRelease e t henc
  · exact hk out v e t hrest

/-- A test that raises another error than `InvalidState`. -/
theorem raisesBeforeRelease_refuseIf {α : Type} {s u : State} (hu : s.sentNoRelease u) {bad : Bool} {e : ErrorKind}
    (he : e ≠ .invalidState) {k : Unit → State → Result α} (hk : (k () u).RaisesBeforeRelease s) :
    ((Result.refuseIf bad e u).andThen k).RaisesBeforeRelease s := by
  cases bad with
  | false => exact hk
  | true =>
    intro _ _ h
    cases h
    exact ⟨he, hu⟩

/-- The tests of a data command in a legal state. -/
theorem raisesBeforeRelease_checkState {α : Type} {s : State} {legal : Bool} (hlegal : legal = true)
    {k : Unit → State → Result α} (hk : (k () s).RaisesBeforeRelease s) :
    ((checkState legal s).andThen k).RaisesBeforeRelease s := by
  subst hlegal
  exact raisesBeforeRelease_refuseIf (State.sentNoRelease_of_ciph_eq rfl) (by decide) hk

/-- A legal command other than ONE_SHOT: FINISH sends its RELEASE behind everything that can raise (R210). -/
theorem raisesBeforeRelease_commandBody {i : Instr} (hone : isOneShot i = false) {s : State}
    (hlegal : stateLegal i s.ctx.life s.ctx.mode = true) : (commandBody i s).RaisesBeforeRelease s := by
  have hnone : ∀ t : State, t.ciph = s.ciph → s.sentNoRelease t := fun _ => State.sentNoRelease_of_ciph_eq
  cases i with
  | init tbl blockLen sched =>
    refine raisesBeforeRelease_refuseIf (hnone (s.setLife .empty) rfl) (e := .invalidCipher) (by decide) ?_
    refine raisesBeforeRelease_refuseIf (hnone (s.setLife .empty) rfl) (e := .allocationFailure) (by decide) ?_
    exact raisesBeforeRelease_enc (hnone (initAsks sched s) rfl) 0 fun _ _ => Result.raisesBeforeRelease_done
  | addIv chunk => exact raisesBeforeRelease_checkState hlegal Result.raisesBeforeRelease_done
  | addAad chunk =>
    exact raisesBeforeRelease_checkState ((addAadLegal_eq s.ctx).trans hlegal) Result.raisesBeforeRelease_done
  | process dir chunk =>
    refine raisesBeforeRelease_checkState hlegal (Result.OnlyAsks.raisesBeforeRelease ?_)
    exact Result.onlyAsks_andThen (onlyAsks_closeAadPhase (hnone (s.setCtx _) rfl)) fun _ _ ht =>
      onlyAsks_processBytes ht dir chunk
  | finish tagLen =>
    refine raisesBeforeRelease_checkState hlegal ?_
    exact raisesBeforeRelease_enc (hnone (finishAsks s) rfl) _ fun _ _ => Result.raisesBeforeRelease_done
  | reset =>
    rw [stateLegal_reset, resetLegal_iff] at hlegal
    rw [commandBody, resetBody_of_holds hlegal]
    exact Result.raisesBeforeRelease_done
  | oneShot dir tbl tagLen key iv aad payload => cases hone

/-! ### `InvalidState` exactly (R260) -/

/-- The five steps find each other's states legal: they never raise `InvalidState` (R225). -/
theorem oneShotSteps_raised_ne_invalidState {dir : Direction} {tbl : Bool} {tagLen blockLen : Byte} {handle : Handle}
    {iv aad payload : List Byte} {s t : State} {k : ErrorKind}
    (h : oneShotSteps dir tbl tagLen blockLen handle iv aad payload s = .raised k t) : k ≠ .invalidState := by
  obtain hraised | ⟨_, s1, hinit, h⟩ := Result.andThen_eq_raised.mp h
  · exact (raisesBeforeRelease_commandBody (i := .init tbl blockLen handle) rfl rfl k t hraised).1
  obtain ⟨-, -, -, H, -, hs1⟩ := initBody_done hinit
  have hstart : s1.ctx.life = .live ∧ s1.ctx.mode = .iv := by rw [hs1]; exact ⟨rfl, rfl⟩
  obtain ⟨hlive1, hiv1⟩ := hstart
  obtain hraised | ⟨_, s2, haddIv, h⟩ := Result.andThen_eq_raised.mp h
  · exact (raisesBeforeRelease_commandBody (i := .addIv iv) rfl (by rw [hlive1, hiv1]; rfl) k t hraised).1
  obtain ⟨-, -, -, -, hs2⟩ := addIvBody_done haddIv
  have hlive2 : s2.ctx.life = .live := by rw [hs2]; simpa using hlive1
  have hiv2 : s2.ctx.mode = .iv := by rw [hs2]; simpa using hiv1
  obtain hraised | ⟨_, s3, haddAad, h⟩ := Result.andThen_eq_raised.mp h
  · exact (raisesBeforeRelease_commandBody (i := .addAad aad) rfl (by rw [hlive2, hiv2]; rfl) k t hraised).1
  obtain ⟨-, -, -, -, hs3⟩ := addAadBody_done haddAad
  have hlive3 : s3.ctx.life = .live := by rw [hs3]; simpa using hlive2
  obtain hraised | ⟨_, s4, hprocess, h⟩ := Result.andThen_eq_raised.mp h
  · exact (raisesBeforeRelease_commandBody (i := .process dir payload) rfl (by rw [hlive3]; rfl) k t hraised).1
  have hlive4 := (KeptBySessionWrites.life .live).processBody dir payload hlive3
  rw [hprocess, Result.state_done] at hlive4
  have htext4 := processBody_done_mode hprocess
  obtain hraised | ⟨_, s5, -, h⟩ := Result.andThen_eq_raised.mp h
  · exact (raisesBeforeRelease_commandBody (i := .finish tagLen) rfl (by rw [hlive4, htext4]; rfl) k t hraised).1
  cases h

theorem oneShotBody_raised_ne_invalidState {dir : Direction} {tbl : Bool} {tagLen : Byte}
    {key iv aad payload : List Byte} {s t : State} {k : ErrorKind}
    (h : oneShotBody dir tbl tagLen key iv aad payload s = .raised k t) : k ≠ .invalidState := by
  obtain ⟨reply, a, hsetup⟩ : ∃ reply a, s.adapter.setup key = (reply, a) := ⟨_, _, rfl⟩
  cases reply with
  | notOk =>
    rw [oneShotBody_of_refused hsetup] at h
    cases h
    decide
  | silent =>
    rw [oneShotBody_of_silent hsetup] at h
    cases h
  | ok made =>
    rw [oneShotBody_of_setup hsetup] at h
    cases hsteps : oneShotSteps dir tbl tagLen made.2 made.1 iv aad payload (s.pastSetup key (.ok made) a) with
    | done data u => rw [hsteps] at h; cases h
    | raised e u =>
      rw [hsteps] at h
      cases h
      exact oneShotSteps_raised_ne_invalidState hsteps
    | waiting u => rw [hsteps] at h; cases h

theorem commandBody_raised_ne_invalidState {i : Instr} {s t : State} {k : ErrorKind}
    (hlegal : stateLegal i s.ctx.life s.ctx.mode = true) (h : commandBody i s = .raised k t) : k ≠ .invalidState := by
  cases i with
  | oneShot dir tbl tagLen key iv aad payload => exact oneShotBody_raised_ne_invalidState h
  | init | addIv | addAad | process | finish | reset => exact (raisesBeforeRelease_commandBody rfl hlegal k t h).1

/-- Settles O10: outside the table the test is all that runs, and inside it no error raised is `InvalidState`. -/
theorem invalidStateExactly : Obligations.InvalidStateExactly := by
  refine ⟨fun i s hillegal => ?_, fun i s t code data hlegal h hrsp => ?_⟩
  · obtain ⟨t, hexec, hciph, hadapter, hwaiting, hlife, hrsp⟩ := exec_of_raised
      (createsContext_of_dataCommand_or_reset (dataCommand_or_reset_of_illegal hillegal))
      (commandBody_of_illegal hillegal)
    refine ⟨t, hexec, hciph, hadapter, hwaiting, hlife, hrsp.trans (congrArg (s.rsp ++ [·, 0, 0, 0, 0]) ?_)⟩
    split <;> rfl
  · obtain ⟨rfl, -⟩ | ⟨k, u, rfl, -, hraised, -⟩ := exec_answered h hrsp
    · decide
    · exact ErrorKind.code_ne_invalidState (commandBody_raised_ne_invalidState hlegal hraised)

/-! ### FAULT (R246) -/

/-- In FAULT R260 marks neither a data command nor RESET ok. -/
theorem stateLegal_fault {i : Instr} (hi : isDataCommand i = true ∨ i = .reset) (m : Mode) :
    stateLegal i .fault m = false := by
  obtain hi | rfl := hi
  · exact Bool.eq_false_iff.mpr fun hlegal => by cases live_of_dataCommand_legal hi hlegal
  · rfl

/-- Settles O12: `InvalidState` where R260 refuses, and the commands that make a context of their own. -/
theorem faultIsTerminal : Obligations.FaultIsTerminal := by
  refine ⟨fun i s hfault hi => ?_, fun tbl blockLen sched s t code data _ h hrsp => ?_,
    fun dir tbl tagLen key iv aad payload s t code data _ h hrsp => ?_, fun s lost => rfl⟩
  · obtain ⟨t, hexec, -, -, -, hlife, hrsp⟩ :=
      invalidStateExactly.1 i s (by rw [hfault]; exact stateLegal_fault hi s.ctx.mode)
    rw [hfault] at hlife hrsp
    exact ⟨t, hexec, hlife, hrsp⟩
  · obtain ⟨rfl, u, hdone, rfl⟩ | ⟨k, u, rfl, -, -, rfl⟩ := exec_answered h hrsp
    · obtain ⟨-, -, -, H, -, hu⟩ := initBody_done hdone
      rw [if_pos rfl, State.respond_ctx, hu]
      rfl
    · rw [if_neg k.code_ne_ok]
      exact (u.takeError_creates k).2
  · refine oneShot_answered_life h fun hsame => response_ne_nil code t.ctx data ?_
    exact List.append_right_eq_self.mp (hrsp.symm.trans hsame)

/-! ### The error entry (R245) -/

/-- `life` after an error: EMPTY for the commands that make a context and where there was none, else FAULT. -/
theorem lifeAfterError_eq (creates : Bool) (l : Life) :
    lifeAfterError creates l = if creates = true ∨ l = .empty then .empty else .fault := by
  cases creates with
  | false => simp [lifeAfterError_false]
  | true => simp [lifeAfterError_creates]

/-- The status byte of an error reports no mode (R85). -/
theorem statusByte_afterError (code : BitVec 4) (creates : Bool) (l : Life) (m : Mode) :
    statusByte code (lifeAfterError creates l) m = code ++ (lifeAfterError creates l).code ++ 0#2 := by
  rw [statusByte, modeBits_eq, holds_lifeAfterError]
  rfl

/-- A command other than ONE_SHOT that raised an error has sent no RELEASE, in whatever state it was given. -/
theorem commandBody_raised_sentNoRelease {i : Instr} (hone : isOneShot i = false) {s t : State} {k : ErrorKind}
    (h : commandBody i s = .raised k t) : s.sentNoRelease t := by
  cases hlegal : stateLegal i s.ctx.life s.ctx.mode with
  | true => exact (raisesBeforeRelease_commandBody hone hlegal k t h).2
  | false =>
    rw [commandBody_of_illegal hlegal] at h
    cases h
    exact State.sentNoRelease_of_ciph_eq rfl

/-- Settles O13: the error entry, and what the pseudocode had done before it. -/
theorem errorEntry : Obligations.ErrorEntry := by
  intro i s t code data h hrsp hcode
  obtain ⟨rfl, -⟩ | ⟨k, u, rfl, rfl, hraised, rfl⟩ := exec_answered h hrsp
  · exact absurd rfl hcode
  have hlife : (u.takeError (createsContext i) k).ctx.life = lifeAfterError (createsContext i) s.ctx.life := by
    rw [State.takeError_ctx]
    cases hi : createsContext i with
    | true => simp only [lifeAfterError_creates]
    | false => rw [commandBody_raised_found hi hraised]
  have hsent : isOneShot i = false → s.sentNoRelease u := fun hone => commandBody_raised_sentNoRelease hone hraised
  refine ⟨rfl, hlife.trans (lifeAfterError_eq _ _), ?_, hsent⟩
  rw [hrsp, response_nil, hlife, statusByte_afterError]

end Sys2Proof.Machine
end

section
/-! Round trip and hazards (`70_reset_and_hazards.md`): power-on reset (R280, R281), a released handle (R300), a session
decrypted again under the same answers (R305), and the tag under a zero subkey (R307). -/

namespace Sys2Proof.Machine

/-! ### Power-on reset (R280, R281) -/

/-- Settles O51: there is no context yet, so the invariants ask only for an empty table in canonical form and for the
cipher behind CIPH. -/
theorem resetMeetsTheInvariants : Obligations.ResetMeetsTheInvariants := by
  have hlost : State.reset.ctx.life.holds = false := rfl
  refine ⟨contextInv_of_lost hlost Memory.wf_nil, counterInv_of_lost hlost, ?_, rfl, rfl, rfl, rfl, rfl⟩
  have hnone : State.reset.ctx.life.holds ≠ true := by rw [hlost]; decide
  exact ⟨⟨_, _, rfl⟩, fun hholds => absurd hholds hnone, fun hholds => absurd hholds hnone⟩

/-- In EMPTY R260 marks neither a data command nor RESET ok. -/
theorem stateLegal_empty {i : Instr} (hi : isDataCommand i = true ∨ i = .reset) (m : Mode) :
    stateLegal i .empty m = false := by
  obtain hi | rfl := hi
  · exact Bool.eq_false_iff.mpr fun hlegal => by cases live_of_dataCommand_legal hi hlegal
  · rfl

/-- Settles O52: the context is that of EMPTY, in which R260 refuses each of these commands. -/
theorem powerOnReset : Obligations.PowerOnReset := by
  intro s lost p
  have hlost : p.ctx.life.holds = false := rfl
  refine ⟨rfl, rfl, rfl, rfl, rfl, contextInv_of_lost hlost Memory.wf_nil, counterInv_of_lost hlost, fun i hi => ?_⟩
  obtain ⟨t, hexec, hciph, -, -, hlife, hrsp⟩ := invalidStateExactly.1 i p (stateLegal_empty hi p.ctx.mode)
  exact ⟨t, hexec, hlife, hrsp, hciph⟩

/-! ### A released handle (R300) -/

/-- The handles released once `h` is released too. -/
theorem Adapter.release_cipher (inval : Bool) (released : List Handle) (h : Handle) :
    ∃ released', (Adapter.cipher inval released).release h = .cipher inval released' ∧
      ∀ h', released'.contains h' = (h' == h || released.contains h') := by
  refine ⟨_, rfl, fun h' => ?_⟩
  split
  · rename_i hmem
    by_cases heq : h' = h
    · simpa [heq] using hmem
    · simp [heq]
  · exact List.contains_cons

theorem Adapter.encrypt_cipher_fst (inval : Bool) (released : List Handle) (h : Handle) (B : Block) :
    ((Adapter.cipher inval released).encrypt h B).1 =
      if inval && released.contains h then .notOk else replyOf (Config.encrypt h B) := rfl

theorem not_contains_releasedAfterSetup (released : List Handle) (h : Handle) (blockLen : Byte) :
    (releasedAfterSetup released (some (h, blockLen))).contains h = false := by
  simp [releasedAfterSetup]

/-- Settles O39: the handle is among the released ones after RELEASE, the others are as they were, and a SETUP that
makes it takes it out again. -/
theorem releasedHandle : Obligations.ReleasedHandle := by
  intro inval released h B before after
  obtain ⟨released', hafter, hcontains⟩ := Adapter.release_cipher inval released h
  have hrelease : after = .cipher inval released' := hafter
  refine ⟨?_, fun h' hother => ?_, fun blockLen => ?_⟩
  · rw [hrelease, Adapter.encrypt_cipher_fst, Adapter.encrypt_cipher_fst, hcontains]
    cases inval with
    | false => rfl
    | true => simp
  · rw [hrelease, Adapter.encrypt_cipher_fst, Adapter.encrypt_cipher_fst, hcontains, beq_eq_false_iff_ne.mpr hother,
      Bool.false_or]
  · rw [Adapter.encrypt_cipher_fst, not_contains_releasedAfterSetup, Bool.and_false]
    rfl

/-! ### A zero subkey (R307) -/

theorem gfMult_zero_right (A : Block) : gfMult A 0 = 0 := by
  obtain ⟨-, -, -, -, hzero⟩ := fieldProductLaws A 0 0
  exact hzero

/-- Settles O59: the last product of the GHASH, that of the length block, is already zero. -/
theorem zeroSubkeyTag : Obligations.ZeroSubkeyTag := by
  intro mask aad cipher
  rw [closedTag, ghashFrom_append_block, gfMult_zero_right]
  exact BitVec.xor_zero

/-! ### Round trip (R305) -/

/-- Commands that succeed begin on a machine that does not wait. -/
theorem waiting_of_performAll {is : List Instr} (hsome : is ≠ []) {s t : State} {datas : List (List Byte)}
    (h : performAll is s = some (datas, t)) : s.waiting = false := by
  cases is with
  | nil => exact absurd rfl hsome
  | cons i is =>
    obtain ⟨data, s1, rest, hfirst, -, -⟩ := performAll_cons_eq_some.mp h
    obtain ⟨hwait, -⟩ := perform_eq_some.mp hfirst
    exact hwait

theorem sessionBody_ne_nil (ivs aads : List (List Byte)) (texts : List (Direction × List Byte)) (tagLen : Byte) :
    sessionBody ivs aads texts tagLen ≠ [] := by
  simp [sessionBody]

theorem holds_of_atSessionStart {c : Context} (hstart : atSessionStart c) : c.life.holds = true := by
  obtain ⟨hlife, -⟩ := hstart
  rw [hlife]
  rfl

/-- An adapter that answers alike gives the same outputs. -/
theorem Adapter.answerAlike.encryptAll {h : Handle} {a a' b : Adapter} (halike : a.answerAlike h a')
    {Bs outs : List Block} (hall : Adapter.encryptAll h Bs a = some (outs, b)) :
    ∃ b', Adapter.encryptAll h Bs a' = some (outs, b') := by
  have hsame := halike Bs
  rw [hall] at hsame
  obtain ⟨⟨outs', b'⟩, hall', rfl⟩ := Option.map_eq_some_iff.mp hsame
  exact ⟨b', hall'⟩

/-- The requests of a session, its keystream and then its mask, answered alike. -/
theorem Adapter.answerAlike.session {h : Handle} {a a' b c : Adapter} (halike : a.answerAlike h a')
    {Bs keystream : List Block} {B mask : Block} (hkeystream : Adapter.encryptAll h Bs a = some (keystream, b))
    (hmask : b.encrypt h B = (.ok mask, c)) :
    ∃ b' c', Adapter.encryptAll h Bs a' = some (keystream, b') ∧ b'.encrypt h B = (.ok mask, c') := by
  have hlast : Adapter.encryptAll h [B] b = some ([mask], c) :=
    Adapter.encryptAll_cons_eq_some.mpr ⟨mask, c, [], hmask, rfl, rfl⟩
  obtain ⟨c', hall⟩ := halike.encryptAll
    (Adapter.encryptAll_append_eq_some.mpr ⟨keystream, b, [mask], hkeystream, hlast, rfl⟩)
  obtain ⟨front, b', back, hfront, hback, houts⟩ := Adapter.encryptAll_append_eq_some.mp hall
  obtain ⟨out, c1, rest, hout, hrest, rfl⟩ := Adapter.encryptAll_cons_eq_some.mp hback
  cases hrest
  obtain ⟨rfl, hsame⟩ := List.append_inj' houts rfl
  cases hsame
  exact ⟨b', _, hfront, hout⟩

/-- The keystream XORed in twice gives the payload back. -/
theorem xorKeystream_xorKeystream (keystream : List Block) (payload : List Byte) :
    xorKeystream keystream (xorKeystream keystream payload) = payload := by
  refine List.ext_getElem (by simp only [length_xorKeystream]) fun p hp hp' => ?_
  simp [xorKeystream]

/-- A session in one direction, in closed form: its outputs and its tag. -/
theorem performAll_sessionBody_pieces {s : State} (hwait : s.waiting = false) (hstart : atSessionStart s.ctx)
    (hmult : s.ctx.multipliesByH) (ivs aads : List (List Byte)) (dir : Direction) {pieces : List (List Byte)}
    (hsome : pieces ≠ []) (tagLen : Byte) {mask : Block} {keystream : List Block} {a a' : Adapter}
    (hkeystream : Adapter.encryptAll s.ctx.sched
      (counterBlocks (initialCounter s.ctx.H ivs.flatten) pieces.flatten.length) s.adapter = some (keystream, a))
    (hmask : a.encrypt s.ctx.sched (initialCounter s.ctx.H ivs.flatten) = (.ok mask, a')) :
    let out := xorKeystream keystream pieces.flatten
    let tag := closedTag s.ctx.H mask aads.flatten (cipherText dir pieces.flatten out)
    ∃ datas t, performAll (sessionBody ivs aads (pieces.map fun c => (dir, c)) tagLen) s =
        some (datas ++ [truncateTag tag tagLen], t) ∧ datas.flatten = out := by
  have hpayload := payloadOf_pieces dir pieces
  have hlength : (payloadOf (pieces.map fun c => (dir, c))).length = pieces.flatten.length := by
    rw [hpayload, length_payloadOf_chunk]
  rw [← hlength] at hkeystream
  obtain ⟨datas, t, hperform, hout, -⟩ := performAll_sessionBody hwait hstart hmult ivs aads (by simpa using hsome)
    tagLen hkeystream hmask
  rw [hpayload, map_snd_payloadOf_chunk] at hperform hout
  rw [cipherBytes_of_chunk dir (length_xorKeystream _ _)] at hperform
  exact ⟨datas, t, hperform, hout⟩

/-- Settles O58: both sessions are in closed form under the same answers; the keystream cancels, and both absorb the
same ciphertext. -/
theorem roundTrip : Obligations.RoundTrip := by
  intro s s' t ivs ivs' aads aads' plain cipher' tagLen datas hs hstart hs' hstart' hwait' hsched hH halike hplain
    hcipher hivs haads hperform hout
  have hwait := waiting_of_performAll (sessionBody_ne_nil _ _ _ _) hperform
  have hmult := contextInv_multipliesByH hs (holds_of_atSessionStart hstart)
  have hmult' := contextInv_multipliesByH hs' (holds_of_atSessionStart hstart')
  obtain ⟨keystream, a, mask, b, hkeystream, hmask⟩ :=
    answers_of_performAll_sessionBody hwait hstart hmult (by simpa using hplain) hperform
  rw [payloadOf_pieces, length_payloadOf_chunk] at hkeystream
  obtain ⟨datas1, u, hclosed, hdata⟩ :=
    performAll_sessionBody_pieces hwait hstart hmult ivs aads .encrypt hplain tagLen hkeystream hmask
  cases hperform.symm.trans hclosed
  rw [List.dropLast_concat, hdata] at hout
  have hlength : cipher'.flatten.length = plain.flatten.length := by rw [hout, length_xorKeystream]
  obtain ⟨a', b', hkeystream', hmask'⟩ := halike.session hkeystream hmask
  rw [← hsched, ← hH, hivs] at hkeystream' hmask'
  rw [← hlength] at hkeystream'
  obtain ⟨datas2, v, hclosed', hdata'⟩ :=
    performAll_sessionBody_pieces hwait' hstart' hmult' ivs' aads' .decrypt hcipher tagLen hkeystream' hmask'
  refine ⟨_, v, hclosed', ?_, ?_⟩
  · rw [List.dropLast_concat, hdata', hout, xorKeystream_xorKeystream]
  · rw [List.getLast?_concat, List.getLast?_concat, hH, haads, hout]
    rfl

end Sys2Proof.Machine
end

section
/-! Streaming equivalence (`70_reset_and_hazards.md`, R306): PROCESS commands are one run over the bytes of their
payload, each in its own direction, so of a session only the concatenations count, whatever multiplier the context
has. -/

namespace Sys2Proof.Machine

/-! ### PROCESS commands as one run over their payload (R185 corner case d) -/

/-- The bytes of a payload, each in its own direction: `processBytes` with the direction of every byte. -/
def processPayload : Payload → State → Result (List Byte)
  | [], s => .done [] s
  | (dir, b) :: rest, s =>
    (processByte dir b s).andThen fun out s =>
    (processPayload rest s).andThen fun outs s =>
    .done (out :: outs) s

theorem processPayload_append (front back : Payload) (s : State) :
    processPayload (front ++ back) s =
      (processPayload front s).andThen fun outs s =>
      (processPayload back s).andThen fun outs' s =>
      .done (outs ++ outs') s := by
  induction front generalizing s with
  | nil =>
    rw [List.nil_append, processPayload, Result.done_andThen]
    cases processPayload back s <;> rfl
  | cons text front ih =>
    obtain ⟨dir, b⟩ := text
    simp only [List.cons_append, processPayload, ih, Result.andThen_assoc, Result.done_andThen]

/-- The chunk of one command. -/
theorem processPayload_chunk (dir : Direction) (chunk : List Byte) (s : State) :
    processPayload (payloadOf [(dir, chunk)]) s = processBytes dir chunk s := by
  induction chunk generalizing s with
  | nil => rfl
  | cons b chunk ih =>
    have hcons : payloadOf [(dir, b :: chunk)] = (dir, b) :: payloadOf [(dir, chunk)] := rfl
    simp only [hcons, processPayload, ih, processBytes]

theorem ignoresRsp_processPayload (payload : Payload) : IgnoresRsp (processPayload payload) := by
  induction payload with
  | nil => exact ignoresRsp_finished []
  | cons text payload ih =>
    obtain ⟨dir, b⟩ := text
    exact (ignoresRsp_processByte dir b).andThen fun out => ih.andThen fun outs => ignoresRsp_finished (out :: outs)

/-- PROCESS that succeeds in phase TEXT ran over its chunk, and left phase TEXT. -/
theorem processBytes_of_perform {dir : Direction} {chunk data : List Byte} {s t : State} (hmode : s.ctx.mode = .text)
    (h : perform (.process dir chunk) s = some (data, t)) :
    ∃ u, processBytes dir chunk s = .done data u ∧ t = u.respond okCode data ∧ u.ctx.mode = .text := by
  obtain ⟨u, hbody, rfl⟩ := processBody_of_perform h
  obtain ⟨-, -, s1, hclose, hbytes⟩ := processBody_done hbody
  rw [closePhases_of_text hmode] at hclose
  cases hclose
  exact ⟨u, hbytes, rfl, processBody_done_mode hbody⟩

/-- PROCESS commands that succeed in phase TEXT ran over their payload; RSP apart, that run is all they do. -/
theorem processPayload_of_performAll {texts : List (Direction × List Byte)} {s t : State} {datas : List (List Byte)}
    (hmode : s.ctx.mode = .text) (h : performAll (texts.map fun c => .process c.1 c.2) s = some (datas, t))
    (rsp : List Byte) :
    processPayload (payloadOf texts) (s.withRsp rsp) = .done datas.flatten (t.withRsp rsp) := by
  induction texts generalizing s datas with
  | nil =>
    cases h
    rfl
  | cons text texts ih =>
    obtain ⟨dir, chunk⟩ := text
    obtain ⟨data, s1, rest, hfirst, hrest, rfl⟩ := performAll_cons_eq_some.mp h
    obtain ⟨u, hbytes, rfl, hmode1⟩ := processBytes_of_perform hmode hfirst
    have hchunk : processPayload (payloadOf [(dir, chunk)]) (s.withRsp rsp) =
        .done data ((u.respond okCode data).withRsp rsp) := by
      rw [ignoresRsp_processPayload, processPayload_chunk, hbytes]
      rfl
    rw [payloadOf_cons, processPayload_append, hchunk, Result.done_andThen,
      ih (s := u.respond okCode data) hmode1 hrest]
    rfl

/-- In phase TEXT the same payload, cut into other commands: all succeed too, and RSP apart the machine and the outputs
are the same. -/
theorem performAll_process_recut_of_text {texts texts' : List (Direction × List Byte)} {s t : State}
    {datas : List (List Byte)} (hwait : s.waiting = false) (hlife : s.ctx.life = .live) (hmode : s.ctx.mode = .text)
    (hlen : s.ctx.buflen ≤ 16) (hsame : payloadOf texts = payloadOf texts')
    (h : performAll (texts.map fun c => .process c.1 c.2) s = some (datas, t)) (rsp : List Byte) :
    ∃ datas' rsp', performAll (texts'.map fun c => .process c.1 c.2) (s.withRsp rsp) =
        some (datas', t.withRsp rsp') ∧ datas'.flatten = datas.flatten := by
  obtain ⟨outs, a, hanswer⟩ := answers_of_performAll_process hlife hmode hlen h
  rw [hsame] at hanswer
  obtain ⟨datas', X, buflen, rsp', h', -⟩ :=
    performAll_process_of_text (s := s.withRsp rsp) hwait hlife hmode hlen texts' hanswer
  have hrun := processPayload_of_performAll hmode h rsp'
  have hrun' := processPayload_of_performAll (s := s.withRsp rsp) hmode h' rsp'
  rw [hsame] at hrun
  obtain ⟨hdata, hstate⟩ := Result.done.inj (hrun'.symm.trans hrun)
  exact ⟨datas', rsp', h'.trans (congrArg (fun u => some (datas', u)) hstate), hdata⟩

/-! ### The closes before the payload (R171, R188) -/

/-- PROCESS commands that succeed behind phase AAD: AadClose got its keystream block. -/
theorem answer_of_performAll_process {texts : List (Direction × List Byte)} (hsome : texts ≠ []) {s t : State}
    {datas : List (List Byte)} (hmode : (closeIvPhase s.ctx).mode = .aad)
    (h : performAll (texts.map fun c => .process c.1 c.2) s = some (datas, t)) :
    ∃ keystream a, s.adapter.encrypt s.ctx.sched (inc32 (closeIvPhase s.ctx).Y) = (.ok keystream, a) := by
  cases texts with
  | nil => exact absurd rfl hsome
  | cons text texts =>
    obtain ⟨data, s1, rest, hperform, -, -⟩ := performAll_cons_eq_some.mp h
    obtain ⟨u, hbody, -⟩ := processBody_of_perform hperform
    obtain ⟨-, -, s2, hclose, -⟩ := processBody_done hbody
    obtain ⟨-, hclose⟩ | ⟨hnot, -⟩ := closeAadPhase_done hclose
    · obtain ⟨keystream, hanswer, -⟩ := aadClose_done hclose
      exact ⟨keystream, _, closeIvPhase_sched s.ctx ▸ hanswer⟩
    · exact absurd hmode hnot

/-- The PROCESS commands of two sessions whose headers come to the same context of phase AAD, one of them with phase IV
still open perhaps. -/
theorem performAll_process_recut {texts texts' : List (Direction × List Byte)} (hsome : texts ≠ [])
    (hsome' : texts' ≠ []) (hsame : payloadOf texts = payloadOf texts') {s t : State} {datas : List (List Byte)}
    {c : Context} {rsp : List Byte} (hwait : s.waiting = false) (hlife : s.ctx.life = .live) (hlen : s.ctx.buflen ≤ 15)
    (hclife : c.life = .live) (hclen : c.buflen ≤ 15) (hclosed : closeIvPhase c = closeIvPhase s.ctx)
    (hmode : (closeIvPhase s.ctx).mode = .aad)
    (h : performAll (texts.map fun c => .process c.1 c.2) s = some (datas, t)) :
    ∃ datas' rsp', performAll (texts'.map fun c => .process c.1 c.2) { s with ctx := c, rsp := rsp } =
        some (datas', t.withRsp rsp') ∧ datas'.flatten = datas.flatten := by
  obtain ⟨keystream, a, hanswer⟩ := answer_of_performAll_process hsome hmode h
  rw [performAll_process_eq_past_closes hlife hlen hmode hanswer hsome] at h
  have hsched : c.sched = s.ctx.sched := by rw [← closeIvPhase_sched c, hclosed, closeIvPhase_sched]
  have hanswer' : s.adapter.encrypt c.sched (inc32 (closeIvPhase c).Y) = (.ok keystream, a) := by
    rw [hclosed, hsched, hanswer]
  have hpast : State.pastCloses { s with ctx := c, rsp := rsp } keystream a =
      (s.pastCloses keystream a).withRsp rsp := by
    unfold State.pastCloses
    rw [← hclosed]
    rfl
  rw [performAll_process_eq_past_closes (s := { s with ctx := c, rsp := rsp }) hclife hclen (hclosed ▸ hmode) hanswer'
    hsome', hpast]
  have hpastLife : (s.pastCloses keystream a).ctx.life = .live :=
    (foldPartialAad_life _).trans ((closeIvPhase_life _).trans hlife)
  exact performAll_process_recut_of_text (s := s.pastCloses keystream a) hwait hpastLife rfl (zero_le_buflen _) hsame h
    rsp

/-! ### The whole session (R306) -/

/-- INIT or RESET that succeeds leaves the start of a session. -/
theorem atSessionStart_of_perform {opener : Instr} (hopens : opensSession opener = true) {s t : State}
    {data : List Byte} (h : perform opener s = some (data, t)) : atSessionStart t.ctx := by
  obtain ⟨-, u, hbody, rfl⟩ := perform_eq_some.mp h
  cases opener with
  | init tbl blockLen sched =>
    obtain ⟨-, -, -, H, -, hu⟩ := initBody_done hbody
    rw [State.respond_ctx, hu]
    exact ⟨rfl, rfl⟩
  | reset =>
    obtain ⟨-, -, rfl⟩ := resetBody_done hbody
    exact ⟨rfl, rfl⟩
  | addIv | addAad | process | finish | oneShot => cases hopens

/-- A session behind its opening command, its strings cut otherwise. -/
theorem performAll_sessionBody_recut {s t : State} (hstart : atSessionStart s.ctx)
    {ivs ivs' aads aads' : List (List Byte)} {texts texts' : List (Direction × List Byte)} {tagLen : Byte}
    {datas : List (List Byte)} (hsome : texts ≠ []) (hsome' : texts' ≠ []) (hivs : ivs.flatten = ivs'.flatten)
    (haads : aads.flatten = aads'.flatten) (hsame : payloadOf texts = payloadOf texts')
    (h : performAll (sessionBody ivs aads texts tagLen) s = some (datas, t)) :
    ∃ outs outs' tag rsp, datas = outs ++ [tag] ∧
      performAll (sessionBody ivs' aads' texts' tagLen) s = some (outs' ++ [tag], t.withRsp rsp) ∧
      outs'.flatten = outs.flatten := by
  have hwait := waiting_of_performAll (sessionBody_ne_nil _ _ _ _) h
  obtain ⟨hlife, hzero⟩ := hstart
  have hmode : s.ctx.mode = .iv := by rw [← hzero, zeroSession_mode]
  have hlen := (ivPhase_of_zeroSession hzero).buflen
  obtain ⟨header, c, rsp, hheader, hsilent, hclife, hclen, hclosed⟩ :=
    performAll_header hwait hlife hmode hlen ivs aads
  obtain ⟨header', c', rsp', hheader', hsilent', hclife', hclen', hclosed'⟩ :=
    performAll_header hwait hlife hmode hlen ivs' aads'
  have haad : (closeIvPhase c).mode = .aad := by rw [hclosed, headerContext, absorbAad_mode, ivClose_mode]
  rw [← hivs, ← haads, ← hclosed] at hclosed'
  obtain ⟨most, s2, last, hmost, hlast, rfl⟩ := performAll_append_eq_some h
  obtain ⟨front, s1, mid, hfront, htexts, rfl⟩ := performAll_append_eq_some hmost
  cases hheader.symm.trans hfront
  obtain ⟨tag, t', rest, hfinish, hend, rfl⟩ := performAll_cons_eq_some.mp hlast
  cases hend
  obtain ⟨mid', rsp2, htexts', hout⟩ := performAll_process_recut (s := { s with ctx := c, rsp := rsp }) (rsp := rsp')
    hsome hsome' hsame hwait hclife hclen hclife' hclen' hclosed' haad htexts
  obtain ⟨rsp3, hfinish'⟩ := perform_withRsp (i := .finish tagLen) (ignoresRsp_finishBody tagLen) hfinish rsp2
  refine ⟨header ++ mid, header' ++ mid', tag, rsp3, rfl, ?_, ?_⟩
  · exact performAll_append (performAll_append hheader' htexts')
      (performAll_cons_eq_some.mpr ⟨tag, _, [], hfinish', rfl, rfl⟩)
  · rw [List.flatten_append, List.flatten_append, hsilent, hsilent', hout]

/-- Settles O57: the opening command is the same, and behind it the two sessions differ on RSP alone. -/
theorem streamingEquivalence : Obligations.StreamingEquivalence := by
  intro s t opener ivs ivs' aads aads' texts texts' tagLen datas hopens hsome hsome' hivs haads hsame h
  obtain ⟨data, s1, rest, hopen, hbody, rfl⟩ := performAll_cons_eq_some.mp h
  obtain ⟨outs, outs', tag, rsp, rfl, hbody', hout⟩ :=
    performAll_sessionBody_recut (atSessionStart_of_perform hopens hopen) hsome hsome' hivs haads hsame hbody
  refine ⟨_, _, performAll_cons_eq_some.mpr ⟨data, s1, _, hopen, hbody', rfl⟩, ?_, ?_, rfl, rfl⟩
  · rw [← List.cons_append, ← List.cons_append, List.dropLast_concat, List.dropLast_concat, List.flatten_cons,
      List.flatten_cons, hout]
  · rw [← List.cons_append, ← List.cons_append, List.getLast?_concat, List.getLast?_concat]

end Sys2Proof.Machine
end
